-- ==== Sys2Proof/Word.lean ====
section
/-! DEFINITION. The words, indices and memory records of the block (spec/00_scope.md R7, R9, R11;
spec/10_state.md R29, R33). All values are unsigned; bit 0 is the least significant bit (R9). -/

namespace Sys2Proof

/-- A command word, CW_W = 64 bits (R7, R80). -/
abbrev CmdWord := BitVec 64

/-- A response word, RW_W = 64 bits (R7, R82). -/
abbrev RspWord := BitVec 64

/-- A symbol, SYM_W = 24 bits: an opaque number, compared for equality only (R7, R11). -/
abbrev Symbol := BitVec 24

/-- A weight or a count, W_W = 32 bits, unsigned (R7, R11). -/
abbrev Weight := BitVec 32

/-- A node index, a leaf index or a node count, IDX_W = 16 bits, unsigned (R7, R11). -/
abbrev Index := BitVec 16

/-- The KIND of a node: 0 is a leaf, 1 an internal node (R29). -/
inductive Kind where
  | leaf
  | internal
deriving DecidableEq, Repr, Inhabited

/-- One record of the node arena (R29). SYM of an internal node and LEFT and RIGHT of a leaf are
the zero padding that RDN returns. -/
structure Node where
  kind  : Kind
  sym   : Symbol
  wt    : Weight
  left  : Index
  right : Index
deriving DecidableEq, Repr, Inhabited

/-- One entry of the code table (R33). CBITS is CODE_W bits wide, and CODE_W depends on NMAX, so
it is held as the number its bits make, bit 0 being the first bit of the code (R34). -/
structure CtEntry where
  clen  : BitVec 16
  cbits : Nat
deriving DecidableEq, Repr, Inhabited

/-- A memory addressed by entry number (R61): the written entries, each with its index. The
canonical form (`Slots.wf`) is strictly rising indices. -/
abbrev Slots (α : Type) := List (Nat × α)

end Sys2Proof
end

