-- ==== Sys2Proof/Machine/Operands.lean ====
section
/-! DEFINITION. The fields of a command word (spec/30_encoding.md R80) and the four operand kinds
cut from them (R81). All are unsigned; none is scaled, shifted or sign-extended. -/

namespace Sys2Proof.Machine

/-- op = cw[63:56] (R80). -/
def opField (cw : CmdWord) : BitVec 8 := cw.extractLsb' 56 8

/-- a = cw[55:32] (R80). -/
def aField (cw : CmdWord) : BitVec 24 := cw.extractLsb' 32 24

/-- b = cw[31:0] (R80). -/
def bField (cw : CmdWord) : BitVec 32 := cw.extractLsb' 0 32

/-- The operand sym: all of a (R81). -/
def symOperand (cw : CmdWord) : Symbol := aField cw

/-- The operand cnt: all of b (R81). -/
def cntOperand (cw : CmdWord) : Weight := bField cw

/-- The operand idx: a[15:0] = cw[47:32] (R81). -/
def idxOperand (cw : CmdWord) : Index := (aField cw).extractLsb' 0 16

/-- The operand sel: b[15:0] = cw[15:0] (R81). -/
def selOperand (cw : CmdWord) : BitVec 16 := (bField cw).extractLsb' 0 16

/-- a[23:16] = cw[55:48], which must be 0 in format X (R85). -/
def aHigh (cw : CmdWord) : BitVec 8 := (aField cw).extractLsb' 16 8

/-- b[31:16] = cw[31:16], which must be 0 in formats S and X (R85). -/
def bHigh (cw : CmdWord) : BitVec 16 := (bField cw).extractLsb' 16 16

/-- The word with the given op, a and b (R80). -/
def commandWord (op : BitVec 8) (a : BitVec 24) (b : BitVec 32) : CmdWord := op ++ a ++ b

end Sys2Proof.Machine
end

