-- ==== Sys2Proof/Syntax.lean ====
section
/-! DEFINITION. The eight commands of spec/opcode_table.json (spec/30_encoding.md R84), one
constructor a row, with the operands of R81 at their widths. -/

namespace Sys2Proof

/-- A command with its operands. A must-be-zero field is no operand: the decoder checks it and the
encoder writes it (R83, R85). -/
inductive Instr where
  /-- `CLR`, format Z (R101). -/
  | clr
  /-- `LDF sym, cnt`, format L (R103). -/
  | ldf (sym : Symbol) (cnt : Weight)
  /-- `BLD`, format Z (R125). -/
  | bld
  /-- `DRV`, format Z (R141). -/
  | drv
  /-- `RDS sel`, format S (R160). -/
  | rds (sel : BitVec 16)
  /-- `RDN idx, sel`, format X (R161). -/
  | rdn (idx : Index) (sel : BitVec 16)
  /-- `RDC idx, sel`, format X (R162). -/
  | rdc (idx : Index) (sel : BitVec 16)
  /-- `RDB idx, sel`, format X (R163). -/
  | rdb (idx : Index) (sel : BitVec 16)
deriving DecidableEq, Repr

end Sys2Proof
end

