-- ==== Sys2Proof/Decode.lean ====
section
/-! DEFINITION. The decoder of spec/30_encoding.md R83, total on 64-bit words, the encoder written
from the same tables (R84, R85), and the rows of the opcode map as data (R84). -/

namespace Sys2Proof

/-- Why a word is illegal (R83, R86). Either way it faults E_ILLOP when it is executed (R184). -/
inductive IllegalWord where
  /-- op is none of 0x01 to 0x04 and 0x10 to 0x13. -/
  | unknownOpcode
  /-- A legal op with a nonzero bit in a must-be-zero field. -/
  | mustBeZero
deriving DecidableEq, Repr

/-- A format-Z command: a and b must be 0 (R85). -/
def decodeZ (i : Instr) (cw : CmdWord) : Except IllegalWord Instr :=
  if Machine.aField cw = 0 ∧ Machine.bField cw = 0 then .ok i else .error .mustBeZero

/-- The format-S command: a and b[31:16] must be 0 (R85). -/
def decodeS (f : BitVec 16 → Instr) (cw : CmdWord) : Except IllegalWord Instr :=
  if Machine.aField cw = 0 ∧ Machine.bHigh cw = 0 then .ok (f (Machine.selOperand cw))
  else .error .mustBeZero

/-- A format-X command: a[23:16] and b[31:16] must be 0 (R85). -/
def decodeX (f : Index → BitVec 16 → Instr) (cw : CmdWord) : Except IllegalWord Instr :=
  if Machine.aHigh cw = 0 ∧ Machine.bHigh cw = 0 then
    .ok (f (Machine.idxOperand cw) (Machine.selOperand cw))
  else .error .mustBeZero

/-- R83: the command a word is, or why it is illegal. Reads no state. -/
def decode (cw : CmdWord) : Except IllegalWord Instr :=
  if Machine.opField cw = 0x01#8 then decodeZ .clr cw
  else if Machine.opField cw = 0x02#8 then
    .ok (.ldf (Machine.symOperand cw) (Machine.cntOperand cw))
  else if Machine.opField cw = 0x03#8 then decodeZ .bld cw
  else if Machine.opField cw = 0x04#8 then decodeZ .drv cw
  else if Machine.opField cw = 0x10#8 then decodeS .rds cw
  else if Machine.opField cw = 0x11#8 then decodeX .rdn cw
  else if Machine.opField cw = 0x12#8 then decodeX .rdc cw
  else if Machine.opField cw = 0x13#8 then decodeX .rdb cw
  else .error .unknownOpcode

/-- The opcode of a command (R84). -/
def opcode : Instr → BitVec 8
  | .clr => 0x01#8
  | .ldf _ _ => 0x02#8
  | .bld => 0x03#8
  | .drv => 0x04#8
  | .rds _ => 0x10#8
  | .rdn _ _ => 0x11#8
  | .rdc _ _ => 0x12#8
  | .rdb _ _ => 0x13#8

/-- The field a of a command: sym, or idx with a[23:16] = 0, or 0 (R85). -/
def aOperand : Instr → BitVec 24
  | .clr | .bld | .drv | .rds _ => 0#24
  | .ldf sym _ => sym
  | .rdn idx _ | .rdc idx _ | .rdb idx _ => 0#8 ++ idx

/-- The field b of a command: cnt, or sel with b[31:16] = 0, or 0 (R85). -/
def bOperand : Instr → BitVec 32
  | .clr | .bld | .drv => 0#32
  | .ldf _ cnt => cnt
  | .rds sel | .rdn _ sel | .rdc _ sel | .rdb _ sel => 0#16 ++ sel

/-- The word of a command (R84, R85). -/
def encode (i : Instr) : CmdWord := Machine.commandWord (opcode i) (aOperand i) (bOperand i)

/-- One row of the opcode map: a word is the row's command exactly when `cw &&& mask = pattern`
(R84; `pattern` is the column "match"). -/
structure OpcodeRow where
  mnemonic : String
  pattern  : CmdWord
  mask     : CmdWord
deriving DecidableEq, Repr

def rowCLR : OpcodeRow := ⟨"CLR", 0x0100000000000000#64, 0xFFFFFFFFFFFFFFFF#64⟩
def rowLDF : OpcodeRow := ⟨"LDF", 0x0200000000000000#64, 0xFF00000000000000#64⟩
def rowBLD : OpcodeRow := ⟨"BLD", 0x0300000000000000#64, 0xFFFFFFFFFFFFFFFF#64⟩
def rowDRV : OpcodeRow := ⟨"DRV", 0x0400000000000000#64, 0xFFFFFFFFFFFFFFFF#64⟩
def rowRDS : OpcodeRow := ⟨"RDS", 0x1000000000000000#64, 0xFFFFFFFFFFFF0000#64⟩
def rowRDN : OpcodeRow := ⟨"RDN", 0x1100000000000000#64, 0xFFFF0000FFFF0000#64⟩
def rowRDC : OpcodeRow := ⟨"RDC", 0x1200000000000000#64, 0xFFFF0000FFFF0000#64⟩
def rowRDB : OpcodeRow := ⟨"RDB", 0x1300000000000000#64, 0xFFFF0000FFFF0000#64⟩

/-- The opcode map of R84, in its order. -/
def opcodeMap : List OpcodeRow :=
  [rowCLR, rowLDF, rowBLD, rowDRV, rowRDS, rowRDN, rowRDC, rowRDB]

/-- The row of a command (R84). -/
def rowOf : Instr → OpcodeRow
  | .clr => rowCLR
  | .ldf _ _ => rowLDF
  | .bld => rowBLD
  | .drv => rowDRV
  | .rds _ => rowRDS
  | .rdn _ _ => rowRDN
  | .rdc _ _ => rowRDC
  | .rdb _ _ => rowRDB

/-- A word matches a row of the map (R84). -/
def OpcodeRow.fits (r : OpcodeRow) (cw : CmdWord) : Prop := cw &&& r.mask = r.pattern

/-- The command in an instruction of `nbits` bits (64, for every row of the table) whose bits
are `w`, bit 0 least significant; every bit above `nbits` is 0. -/
def decodeTableWord (nbits w : Nat) : Option Instr :=
  (decode (BitVec.ofNat 64 (w % 2 ^ nbits))).toOption

end Sys2Proof
end

