-- ==== Sys2Proof/Config.lean ====
section
/-! DEFINITION. The parameter of an instance and the values the spec leaves free
(spec/00_scope.md R7; spec/93_implementation_defined.md section 2, rows 1 to 3). -/

namespace Sys2Proof

/-- NMAX of the instance that `State.reset` stands for. DESIGN CHOICE (log 1): the spec leaves
NMAX open (1 to 32768) and its vectors use 256. `State.resetWith` is the reset state for every
NMAX, and no statement rests on this number. -/
def Config.nmax : Index := 256

/-- The smallest and the largest NMAX of an instance (R7). -/
def Config.nmaxMin : Nat := 1
def Config.nmaxMax : Nat := 32768

/-- The largest weight and the largest TOTAL, 2^32 - 1 (R28, R103). -/
def Config.weightMax : Nat := 4294967295

/-- What a node slot that holds no value holds: any value (R29, R46, R69; log 5). Free: no body,
so no proof can see it. -/
opaque Config.unspecifiedNode : Nat → Node

/-- What a code-table entry that holds no value holds: any value (R33, R46, R69; log 5). Free. -/
opaque Config.unspecifiedEntry : Nat → CtEntry

end Sys2Proof
end

