-- ==== Sys2Proof/Machine/State.lean ====
section
/-! DEFINITION. Everything the spec gives the block (spec/10_state.md; the ports of
spec/70_reset_and_hazards.md R222), the reasons a step can stop, and the state after reset (R46).
STATE IS PLAIN DATA. -/

namespace Sys2Proof.Machine

/-- STATUS.PHASE (R22, R23). The value 3 never occurs. -/
inductive Phase where
  | load
  | built
  | derived
deriving DecidableEq, Repr

/-- The nine fault codes of spec/60_exceptions.md R183. -/
inductive Err where
  /-- 1: the word is not one of the eight commands (R184). -/
  | illop
  /-- 2: the block is locked (R182). -/
  | faulted
  /-- 3: the command is not accepted in the current phase (R185). -/
  | phase
  /-- 4: the selector names nothing (R187). -/
  | sel
  /-- 5: the index names no entry in use (R187). -/
  | range
  /-- 6: codes are requested of an absent tree (R186). -/
  | empty
  /-- 7: NMAX entries are already loaded (R189). -/
  | full
  /-- 8: the symbol is already loaded (R189). -/
  | dupsym
  /-- 9: the sum of all counts would pass 2^32 - 1 (R189). -/
  | wovf
deriving DecidableEq, Repr

/-- STATUS, register 0, by its fields (R22). `err` is `none` for ERR = 0. The reserved bits hold
nothing; `Status.word` reads them as 0. -/
structure Status where
  phase  : Phase
  rootv  : Bool
  empty  : Bool
  single : Bool
  err    : Option Err
deriving DecidableEq, Repr

/-- What the host does next at the ports (spec/70_reset_and_hazards.md R213). -/
inductive HostEvent where
  /-- It applies reset (R210). -/
  | reset
  /-- It sends a command word, once the block is ready for one (R214). -/
  | send (cw : CmdWord)
  /-- It takes the response word, once one is offered (R214). -/
  | take
deriving DecidableEq, Repr

/-- Where the spec gives the block no meaning. None is reached from a state that meets the
invariants of spec/10_state.md section 6 (log 8), and each is SAFE: the model stops. -/
inductive Fault where
  /-- Raised by BLD: `extract_min` on an empty queue, which "needs PQ non-empty" and which BLD
  never calls (R121, R126). Safe. -/
  | emptyQueue
  /-- Raised by BLD: `merge_step` with no free slot, which "needs NNODE < NNODE_MAX" and never
  lacks it (R122, R126). Safe. -/
  | arenaFull
  /-- Raised by DRV: the traversal of an arena whose child indices do not decrease, to which "a
  model need not give `visit` a meaning" (R142). Safe. -/
  | malformedTree
deriving DecidableEq, Repr

/-- Why a command has no meaning in the model. -/
inductive Refusal where
  /-- Raised by `exec` for a command not modelled yet; no arm does. Safe. -/
  | notModelled (mnemonic : String)
deriving DecidableEq, Repr

/-- The state of the block and of its ports. -/
structure State where
  /-- Register 0, STATUS (R22). -/
  status : Status
  /-- Register 1, NLEAF: the number of leaves loaded (R26). -/
  nleaf  : Index
  /-- Register 2, NNODE: the number of arena slots in use (R26). -/
  nnode  : Index
  /-- Register 3, QCNT: the number of members of the queue (R27). -/
  qcnt   : Index
  /-- Register 4, ROOT: the root's index while ROOTV = 1, else 0 (R27). -/
  root   : Index
  /-- Register 5, TOTAL: the sum of all loaded counts (R28). -/
  total  : Weight
  /-- Register 6, NMAX: the capacity parameter, which nothing writes (R28). -/
  nmax   : Index
  /-- The node arena NODE (R29): the slots written so far. -/
  node   : Slots Node
  /-- The priority queue PQ (R31): a set, as the strictly rising list of its members. -/
  pq     : List Index
  /-- The code table CT (R33): the entries written so far. -/
  ct     : Slots CtEntry
  /-- The response port (R82, R214, R222): the word offered and not yet taken. -/
  rsp    : Option RspWord
  /-- What the host does next: the model's own field, an input of the block (R44, R213). -/
  host   : List HostEvent
deriving DecidableEq, Repr

/-- STATUS after reset: every field 0 (R46). -/
def Status.reset : Status :=
  { phase := .load, rootv := false, empty := false, single := false, err := none }

/-- The state after reset of an instance with capacity `nmax` (R46, R210), with no response
offered (log 4) and a host that does nothing yet (log 2). -/
def State.resetWith (nmax : Index) : State :=
  { status := Status.reset
    nleaf := 0, nnode := 0, qcnt := 0, root := 0, total := 0, nmax := nmax
    node := [], pq := [], ct := []
    rsp := none, host := [] }

/-- The state after reset of the instance of `Config.nmax` (log 1). -/
def State.reset : State := State.resetWith Config.nmax

end Sys2Proof.Machine
end

