-- ==== Sys2Proof/Machine/Flags.lean ====
section
/-! DEFINITION. STATUS as a 32-bit word and the writes of its fields (spec/10_state.md R22 to R25;
spec/60_exceptions.md R181, R183). -/

namespace Sys2Proof.Machine

/-- The value of PHASE (R22). -/
def Phase.bits : Phase → BitVec 2
  | .load => 0#2
  | .built => 1#2
  | .derived => 2#2

/-- The number of a fault code (R183). -/
def Err.code : Err → BitVec 8
  | .illop => 1#8
  | .faulted => 2#8
  | .phase => 3#8
  | .sel => 4#8
  | .range => 5#8
  | .empty => 6#8
  | .full => 7#8
  | .dupsym => 8#8
  | .wovf => 9#8

/-- The ERR field: 0, or the code of the first fault (R22, R25). -/
def Status.errBits (st : Status) : BitVec 8 :=
  match st.err with
  | none => 0#8
  | some e => e.code

/-- The STATUS register (R22): reserved 31:16, ERR 15:8, reserved 7:5, SINGLE 4, EMPTY 3, ROOTV 2,
PHASE 1:0. -/
def Status.word (st : Status) : BitVec 32 :=
  0#16 ++ st.errBits ++ 0#3 ++ BitVec.ofBool st.single ++ BitVec.ofBool st.empty
    ++ BitVec.ofBool st.rootv ++ st.phase.bits

/-- The block is locked: ERR is not 0 (R182). -/
def Status.locked (st : Status) : Bool := st.err.isSome

/-- The fault action's write of ERR: only when it holds 0 (R25, R181). -/
def Status.latch (st : Status) (e : Err) : Status :=
  match st.err with
  | none => { st with err := some e }
  | some _ => st

/-- BLD on zero entries: EMPTY and PHASE (R125, R127). -/
def Status.builtEmpty (st : Status) : Status := { st with empty := true, phase := .built }

/-- BLD on one entry or more: ROOTV, SINGLE and PHASE (R125). -/
def Status.builtTree (st : Status) (one : Bool) : Status :=
  { st with rootv := true, single := one, phase := .built }

/-- DRV: PHASE (R141). -/
def Status.toDerived (st : Status) : Status := { st with phase := .derived }

end Sys2Proof.Machine
end

