-- ==== Sys2Proof/Machine/Ops.lean ====
section
/-! DEFINITION. The operations every command is made of: the sizes of an instance
(spec/00_scope.md R8), the entry memories (spec/20_memory.md R61), the queue as a set
(spec/10_state.md R31), the response (spec/30_encoding.md R82), the fault action and the return
from it (spec/60_exceptions.md R181, R191). -/

namespace Sys2Proof

/-- The value written last at index `i`, if any. -/
def Slots.get? {α : Type} (m : Slots α) (i : Nat) : Option α :=
  match m with
  | [] => none
  | (j, v) :: rest => if j = i then some v else Slots.get? rest i

/-- Replace entry `i` by `v` (R61), in the canonical form. -/
def Slots.set {α : Type} (m : Slots α) (i : Nat) (v : α) : Slots α :=
  match m with
  | [] => [(i, v)]
  | (j, w) :: rest =>
    if i < j then (i, v) :: (j, w) :: rest
    else if i = j then (i, v) :: rest
    else (j, w) :: Slots.set rest i v

/-- The canonical form: strictly rising indices. An index not listed has no value a listed one
could equal (log 5). -/
def Slots.wf {α : Type} (m : Slots α) : Bool :=
  match m with
  | [] => true
  | (i, _) :: rest => rest.all (fun e => decide (i < e.1)) && Slots.wf rest

end Sys2Proof

namespace Sys2Proof.Machine

/-! ### The sizes of an instance (R8) -/

/-- NNODE_MAX = 2 NMAX - 1, the number of arena slots. -/
def nnodeMax (nmax : Index) : Nat := 2 * nmax.toNat - 1

/-- CODE_W = max(NMAX - 1, 1), the number of bits kept for one code. -/
def codeW (nmax : Index) : Nat := max (nmax.toNat - 1) 1

/-- NCHUNK = ceil(CODE_W / 32), the number of chunks of one code. -/
def nchunk (nmax : Index) : Nat := (codeW nmax + 31) / 32

/-! ### The entry memories (R10, R61) -/

/-- `NODE[i]`. A slot that holds no value holds any value (R29; log 5). -/
def State.nodeAt (s : State) (i : Nat) : Node :=
  match s.node.get? i with
  | some n => n
  | none => Config.unspecifiedNode i

/-- `CT[i]`. An entry that holds no value holds any value (R33; log 5). -/
def State.ctAt (s : State) (i : Nat) : CtEntry :=
  match s.ct.get? i with
  | some e => e
  | none => Config.unspecifiedEntry i

/-! ### The priority queue as a set (R31) -/

/-- `PQ ∪ {k}`, in rising order. -/
def pqInsert (k : Index) (pq : List Index) : List Index :=
  match pq with
  | [] => [k]
  | i :: rest =>
    if k < i then k :: i :: rest
    else if k = i then i :: rest
    else i :: pqInsert k rest

/-- `PQ \ {k}`. -/
def pqRemove (k : Index) (pq : List Index) : List Index := pq.filter (fun i => decide (i ≠ k))

/-- The canonical form of the queue: strictly rising, so no member twice. -/
def pqWf (pq : List Index) : Bool :=
  match pq with
  | [] => true
  | i :: rest => rest.all (fun j => decide (i < j)) && pqWf rest

/-- INQ of node `i`: 1 exactly when it is a member of the queue (R31). -/
def State.inq (s : State) (i : Index) : Bool := s.pq.contains i

/-! ### The response (R82) -/

/-- The response word: err 63:56, zero 55:32, data 31:0. -/
def responseWord (err : BitVec 8) (data : BitVec 32) : RspWord := err ++ 0#24 ++ data

/-- `respond(0, data)`: the command completes and the word is offered (R214). -/
def complete (data : BitVec 32) (s : State) : State := { s with rsp := some (responseWord 0#8 data) }

/-! ### The fault action and the return from it -/

/-- `raise Fault(e)` (R181): latch the code if none is latched, respond with it and data 0, write
nothing else. -/
def raiseFault (e : Err) (s : State) : State :=
  { s with status := s.status.latch e, rsp := some (responseWord e.code 0#32) }

/-- A command that faults: a next state, through the fault action. -/
def faults (e : Err) (s : State) : Host.Outcome State Fault Refusal := .next (raiseFault e s)

/-- The start of a new invocation (R101), the one way out of the lock (R191): STATUS, the counters,
ROOT and TOTAL to 0 and PQ empty. NODE and CT are not written. -/
def newInvocation (s : State) : State :=
  { s with status := Status.reset
           nleaf := 0, nnode := 0, qcnt := 0, root := 0, total := 0
           pq := [] }

end Sys2Proof.Machine
end

