-- ==== Sys2Proof/Machine/Build.lean ====
section
/-! DEFINITION. BLD, the priority-queue merge (spec/41_build.md R120 to R128). -/

namespace Sys2Proof.Machine

/-- The key of node `i`, (WT, i), is lower than that of node `j`: unsigned, the weight first, then
the index (R120). -/
def State.keyLower (s : State) (i j : Index) : Bool :=
  decide ((s.nodeAt i.toNat).wt < (s.nodeAt j.toNat).wt) ||
    (decide ((s.nodeAt i.toNat).wt = (s.nodeAt j.toNat).wt) && decide (i < j))

/-- The member of a queue with the lowest key; none of an empty queue (R121). -/
def State.lowest (s : State) (pq : List Index) : Option Index :=
  match pq with
  | [] => none
  | i :: rest =>
    match s.lowest rest with
    | none => some i
    | some j => if s.keyLower i j then some i else some j

/-- The writes of an extraction (R121): `PQ <- PQ \ {i}`, `QCNT <- QCNT - 1`. -/
def State.dequeue (s : State) (i : Index) : State :=
  { s with pq := pqRemove i s.pq, qcnt := s.qcnt - 1 }

/-- `extract_min()` (R121): the member with the lowest key, and the state without it. It needs PQ
non-empty. -/
def State.extractMin (s : State) : Except Fault (Index × State) :=
  match s.lowest s.pq with
  | none => .error .emptyQueue
  | some i => .ok (i, s.dequeue i)

/-- The internal node a merge makes: the first extracted is LEFT, the second RIGHT (R122, R123). -/
def mergedNode (s : State) (a b : Index) : Node :=
  { kind := .internal, sym := 0
    wt := (s.nodeAt a.toNat).wt + (s.nodeAt b.toNat).wt
    left := a, right := b }

/-- The end of a merge (R122): write slot NNODE, queue it, count it. -/
def State.pushMerged (s : State) (a b : Index) : State :=
  { s with node := s.node.set s.nnode.toNat (mergedNode s a b)
           pq := pqInsert s.nnode s.pq
           qcnt := s.qcnt + 1
           nnode := s.nnode + 1 }

/-- `merge_step()` (R122). It needs a free slot; `extract_min` needs its members. -/
def State.mergeStep (s : State) : Except Fault State :=
  match s.extractMin with
  | .error f => .error f
  | .ok (a, s1) =>
    match s1.extractMin with
    | .error f => .error f
    | .ok (b, s2) =>
      if s2.nnode.toNat < nnodeMax s2.nmax then .ok (s2.pushMerged a b) else .error .arenaFull

/-- `while QCNT > 1 do merge_step()` (R125). QCNT falls by one at each turn (R126), so fuel QCNT is
enough for the loop to end by its test. -/
def State.mergeLoop (fuel : Nat) (s : State) : Except Fault State :=
  match fuel with
  | 0 => .ok s
  | k + 1 =>
    if 1 < s.qcnt.toNat then
      match s.mergeStep with
      | .error f => .error f
      | .ok s' => s'.mergeLoop k
    else .ok s

/-- The writes of BLD after the last extraction (R125): ROOT, ROOTV, SINGLE, PHASE. -/
def State.setRoot (s : State) (r : Index) : State :=
  { s with root := r, status := s.status.builtTree (decide (s.nleaf = 1)) }

/-- The writes of BLD on the empty map (R125, R127): EMPTY, PHASE. -/
def State.setEmpty (s : State) : State := { s with status := s.status.builtEmpty }

/-- The tree of one entry or more (R125): merge, then extract the one member left as the root. -/
def State.buildTree (s : State) : Except Fault State :=
  match s.mergeLoop s.qcnt.toNat with
  | .error f => .error f
  | .ok s1 =>
    match s1.extractMin with
    | .error f => .error f
    | .ok (r, s2) => .ok (s2.setRoot r)

/-- BLD (R125). The response is the new STATUS. -/
def execBld (s : State) : Host.Outcome State Fault Refusal :=
  if s.status.locked then faults .faulted s
  else if s.status.phase ≠ .load then faults .phase s
  else if s.nleaf = 0 then
    .next (complete s.setEmpty.status.word s.setEmpty)
  else
    match s.buildTree with
    | .ok s' => .next (complete s'.status.word s')
    | .error f => .fault f

end Sys2Proof.Machine
end

