-- ==== Sys2Proof/Machine/ClearLoad.lean ====
section
/-! DEFINITION. CLR and LDF (spec/40_clear_load.md R100 to R104). -/

namespace Sys2Proof.Machine

/-- CLR (R101): the reset state, response 0. It never faults and is not subject to the lock. -/
def execClr (s : State) : Host.Outcome State Fault Refusal := .next (complete 0#32 (newInvocation s))

/-- `exists i, 0 <= i < NLEAF, NODE[i].SYM = sym` (R103). -/
def State.hasSymbol (s : State) (sym : Symbol) : Bool :=
  (List.range s.nleaf.toNat).any (fun i => decide ((s.nodeAt i).sym = sym))

/-- The leaf an LDF writes (R103). -/
def leafNode (sym : Symbol) (cnt : Weight) : Node :=
  { kind := .leaf, sym := sym, wt := cnt, left := 0, right := 0 }

/-- The writes of an LDF that does not fault (R103): slot NLEAF, PQ, NLEAF, NNODE, QCNT, TOTAL. -/
def State.loadLeaf (s : State) (sym : Symbol) (cnt : Weight) : State :=
  { s with node := s.node.set s.nleaf.toNat (leafNode sym cnt)
           pq := pqInsert s.nleaf s.pq
           nleaf := s.nleaf + 1
           nnode := s.nleaf + 1
           qcnt := s.qcnt + 1
           total := s.total + cnt }

/-- LDF sym, cnt (R103). The sum of the overflow check is on unbounded integers. -/
def execLdf (sym : Symbol) (cnt : Weight) (s : State) : Host.Outcome State Fault Refusal :=
  if s.status.locked then faults .faulted s
  else if s.status.phase ≠ .load then faults .phase s
  else if s.nleaf = s.nmax then faults .full s
  else if s.hasSymbol sym then faults .dupsym s
  else if s.total.toNat + cnt.toNat > Config.weightMax then faults .wovf s
  else .next (complete (s.nleaf.setWidth 32) (s.loadLeaf sym cnt))

end Sys2Proof.Machine
end

