-- ==== Sys2Proof/Machine/Derive.lean ====
section
/-! DEFINITION. DRV, the tree traversal and bit-path encoder (spec/42_derive.md R140 to R147). A
path is the list of its edge bits from the root, `false` for left (0) and `true` for right (1). -/

namespace Sys2Proof.Machine

/-- `pack(s)` (R144): the number whose bit j is the j-th bit of the path. -/
def packBits (p : List Bool) : Nat :=
  match p with
  | [] => 0
  | b :: rest => b.toNat + 2 * packBits rest

/-- The entry that records the bit string `p` (R144): its length, and the CODE_W bits kept. -/
def codeEntry (nmax : Index) (p : List Bool) : CtEntry :=
  { clen := BitVec.ofNat 16 p.length, cbits := packBits (p.take (codeW nmax)) }

/-- `visit(i, p)` (R141): record each leaf below node `i`, left before right (R145). A child has a
smaller index than its parent (R38), so fuel above the index is enough; `none` is a malformed
arena, to which the spec gives no meaning (R142). -/
def State.visit (s : State) (fuel : Nat) (i : Index) (p : List Bool) (ct : Slots CtEntry) :
    Option (Slots CtEntry) :=
  match fuel with
  | 0 => none
  | k + 1 =>
    match (s.nodeAt i.toNat).kind with
    | .leaf => some (ct.set i.toNat (codeEntry s.nmax p))
    | .internal =>
      match s.visit k (s.nodeAt i.toNat).left (p ++ [false]) ct with
      | none => none
      | some ct' => s.visit k (s.nodeAt i.toNat).right (p ++ [true]) ct'

/-- The code table DRV leaves (R141): the single leaf has the code "0" (R143), any other tree is
traversed from the root with the empty path. -/
def State.derivedTable (s : State) : Option (Slots CtEntry) :=
  match (s.nodeAt s.root.toNat).kind with
  | .leaf => some (s.ct.set s.root.toNat { clen := 1, cbits := 0 })
  | .internal => s.visit (s.root.toNat + 1) s.root [] s.ct

/-- The writes of a DRV that does not fault: the table and PHASE (R141). -/
def State.storeTable (s : State) (ct : Slots CtEntry) : State :=
  { s with ct := ct, status := s.status.toDerived }

/-- DRV (R141). The response is the new STATUS. -/
def execDrv (s : State) : Host.Outcome State Fault Refusal :=
  if s.status.locked then faults .faulted s
  else if s.status.phase ≠ .built then faults .phase s
  else if s.status.rootv = false then faults .empty s
  else
    match s.derivedTable with
    | some ct => .next (complete s.status.toDerived.word (s.storeTable ct))
    | none => .fault .malformedTree

end Sys2Proof.Machine
end

