-- ==== Sys2Proof/Machine/Readout.lean ====
section
/-! DEFINITION. The four read commands (spec/43_readout.md R160 to R164). They are not subject to
the lock, and one that does not fault changes nothing but the response port. -/

namespace Sys2Proof.Machine

/-- Status register number `sel` on 32 bits; none when `sel` names no register (R160). -/
def State.statusRegister (s : State) (sel : Nat) : Option (BitVec 32) :=
  match sel with
  | 0 => some s.status.word
  | 1 => some (s.nleaf.setWidth 32)
  | 2 => some (s.nnode.setWidth 32)
  | 3 => some (s.qcnt.setWidth 32)
  | 4 => some (s.root.setWidth 32)
  | 5 => some s.total
  | 6 => some (s.nmax.setWidth 32)
  | _ => none

/-- RDS sel (R160). -/
def execRds (sel : BitVec 16) (s : State) : Host.Outcome State Fault Refusal :=
  match s.statusRegister sel.toNat with
  | some v => .next (complete v s)
  | none => faults .sel s

/-- KIND as a bit (R29). -/
def Kind.bit : Kind → BitVec 1
  | .leaf => 0#1
  | .internal => 1#1

/-- INFO of a node (R161): KIND 31, INQ 30, zero 29:24, SYM 23:0. -/
def infoWord (n : Node) (inq : Bool) : BitVec 32 :=
  Kind.bit n.kind ++ BitVec.ofBool inq ++ 0#6 ++ n.sym

/-- KIDS of a node (R161): LEFT 31:16, RIGHT 15:0. -/
def kidsWord (n : Node) : BitVec 32 := n.left ++ n.right

/-- Field group `sel` of node `idx`: 0 INFO, 1 WT, 2 KIDS (R161). -/
def State.nodeGroup (s : State) (idx : Index) (sel : Nat) : BitVec 32 :=
  match sel with
  | 0 => infoWord (s.nodeAt idx.toNat) (s.inq idx)
  | 1 => (s.nodeAt idx.toNat).wt
  | _ => kidsWord (s.nodeAt idx.toNat)

/-- RDN idx, sel (R161): the selector is checked before the index. -/
def execRdn (idx : Index) (sel : BitVec 16) (s : State) : Host.Outcome State Fault Refusal :=
  if sel.toNat > 2 then faults .sel s
  else if idx.toNat ≥ s.nnode.toNat then faults .range s
  else .next (complete (s.nodeGroup idx sel.toNat) s)

/-- The symbol (0) or the code length (1) of entry `idx`, on 32 bits (R162). -/
def State.entryGroup (s : State) (idx : Index) (sel : Nat) : BitVec 32 :=
  match sel with
  | 0 => (s.nodeAt idx.toNat).sym.setWidth 32
  | _ => (s.ctAt idx.toNat).clen.setWidth 32

/-- RDC idx, sel (R162). -/
def execRdc (idx : Index) (sel : BitVec 16) (s : State) : Host.Outcome State Fault Refusal :=
  if s.status.phase ≠ .derived then faults .phase s
  else if sel.toNat > 1 then faults .sel s
  else if idx.toNat ≥ s.nleaf.toNat then faults .range s
  else .next (complete (s.entryGroup idx sel.toNat) s)

/-- Chunk `k` of CBITS (R64): bit t is CBITS[32 k + t] when 32 k + t < CODE_W, and 0 otherwise. -/
def chunk (nmax : Index) (cbits k : Nat) : BitVec 32 :=
  BitVec.ofNat 32 ((cbits % 2 ^ codeW nmax) >>> (32 * k))

/-- RDB idx, sel (R163). -/
def execRdb (idx : Index) (sel : BitVec 16) (s : State) : Host.Outcome State Fault Refusal :=
  if s.status.phase ≠ .derived then faults .phase s
  else if sel.toNat ≥ nchunk s.nmax then faults .sel s
  else if idx.toNat ≥ s.nleaf.toNat then faults .range s
  else .next (complete (chunk s.nmax (s.ctAt idx.toNat).cbits sel.toNat) s)

end Sys2Proof.Machine
end

