-- ==== Sys2Proof/Machine/Dispatch.lean ====
section
/-! DEFINITION. One arm for each command (spec/30_encoding.md R84). -/

namespace Sys2Proof.Machine

def exec (i : Instr) (s : State) : Host.Outcome State Fault Refusal :=
  match i with
  | .clr => Sys2Proof.Machine.execClr s
  | .ldf sym cnt => Sys2Proof.Machine.execLdf sym cnt s
  | .bld => Sys2Proof.Machine.execBld s
  | .drv => Sys2Proof.Machine.execDrv s
  | .rds sel => Sys2Proof.Machine.execRds sel s
  | .rdn idx sel => Sys2Proof.Machine.execRdn idx sel s
  | .rdc idx sel => Sys2Proof.Machine.execRdc idx sel s
  | .rdb idx sel => Sys2Proof.Machine.execRdb idx sel s

end Sys2Proof.Machine
end

