-- ==== Sys2Proof/Machine/Port.lean ====
section
/-! DEFINITION. The ports (spec/70_reset_and_hazards.md R210, R213, R214, R222, R223). -/

namespace Sys2Proof.Machine

/-- cmd_ready: low from the acceptance of a command until its response has been taken (R222). -/
def State.cmdReady (s : State) : Bool := s.rsp.isNone

/-- rsp_valid: the block offers a response word (R222). -/
def State.rspValid (s : State) : Bool := s.rsp.isSome

/-- Reset (R210): the reset state of the same instance. What the host does next is no state of the
block and stays. A response not yet taken is gone (log 4). -/
def applyReset (s : State) : State := { State.resetWith s.nmax with host := s.host }

/-- The word that passes on the command port now, and the state with it passed: the host sends
one and the block is ready (R214, R222). -/
def State.acceptWord (s : State) : Option (CmdWord × State) :=
  match s.host with
  | .send cw :: rest => if s.cmdReady then some (cw, { s with host := rest }) else none
  | _ => none

/-- What happens when no command word passes: reset, the taking of a response, or nothing, the
host or the block waiting (R210, R214; log 3). -/
def State.portTurn (s : State) : State :=
  match s.host with
  | .reset :: rest => applyReset { s with host := rest }
  | .take :: rest => if s.rspValid then { s with rsp := none, host := rest } else s
  | _ => s

/-- An illegal word is executed as `raise Fault(E_ILLOP)` (R83, R184). -/
def execIllegal (s : State) : Host.Outcome State Fault Refusal := faults .illop s

end Sys2Proof.Machine
end

