-- ==== Sys2Proof/Machine/Step.lean ====
section
/-! DEFINITION. One step: one command from acceptance to response (spec/20_memory.md R68), or one
action of the host at a port. -/

namespace Sys2Proof.Machine

/-- Decode a word and execute it (spec/40_clear_load.md R100). -/
def runWord (cw : CmdWord) (s : State) : Host.Outcome State Fault Refusal :=
  match decode cw with
  | .ok i => exec i s
  | .error _ => execIllegal s

/-- One step of the machine. -/
def step (s : State) : Host.Outcome State Fault Refusal :=
  match s.acceptWord with
  | some (cw, s') => runWord cw s'
  | none => .next s.portTurn

/-- The host has taken the last response and sends the word `w` of `nbits` bits next, so that the
very next step executes it. -/
def State.withFetchWord (s : State) (nbits w : Nat) : State :=
  { s with host := .send (BitVec.ofNat 64 (w % 2 ^ nbits)) :: s.host, rsp := none }

end Sys2Proof.Machine
end

