-- ==== Sys2Proof/WellFormed.lean ====
section
/-! DEFINITION. Which written commands are commands of the block. A command as a person writes it
(spec/30_encoding.md R89) has natural numbers as operands; it is well formed when each fits its
field (R81). A term of `Instr` carries its operands at the field's width, so it is well formed by
its type. A selector or an index that names nothing is well formed: it decodes, and the command
faults when it executes (R86). -/

namespace Sys2Proof

/-- A command as it is written: mnemonic and numerals (R89). -/
inductive AsmCmd where
  | clr
  | ldf (sym cnt : Nat)
  | bld
  | drv
  | rds (sel : Nat)
  | rdn (idx sel : Nat)
  | rdc (idx sel : Nat)
  | rdb (idx sel : Nat)
deriving DecidableEq, Repr

/-- Each operand fits its field: sym 24 bits, cnt 32 bits, idx 16 bits, sel 16 bits (R81). -/
def AsmCmd.wellFormed : AsmCmd → Bool
  | .clr => true
  | .ldf sym cnt => decide (sym < 2 ^ 24) && decide (cnt < 2 ^ 32)
  | .bld => true
  | .drv => true
  | .rds sel => decide (sel < 2 ^ 16)
  | .rdn idx sel => decide (idx < 2 ^ 16) && decide (sel < 2 ^ 16)
  | .rdc idx sel => decide (idx < 2 ^ 16) && decide (sel < 2 ^ 16)
  | .rdb idx sel => decide (idx < 2 ^ 16) && decide (sel < 2 ^ 16)

/-- The command a written command stands for; nothing when an operand does not fit. -/
def AsmCmd.toInstr (c : AsmCmd) : Option Instr :=
  if c.wellFormed then
    match c with
    | .clr => some .clr
    | .ldf sym cnt => some (.ldf (BitVec.ofNat 24 sym) (BitVec.ofNat 32 cnt))
    | .bld => some .bld
    | .drv => some .drv
    | .rds sel => some (.rds (BitVec.ofNat 16 sel))
    | .rdn idx sel => some (.rdn (BitVec.ofNat 16 idx) (BitVec.ofNat 16 sel))
    | .rdc idx sel => some (.rdc (BitVec.ofNat 16 idx) (BitVec.ofNat 16 sel))
    | .rdb idx sel => some (.rdb (BitVec.ofNat 16 idx) (BitVec.ofNat 16 sel))
  else none

/-- Every term of `Instr` is well formed: its operands have their fields' widths by type. -/
def Instr.wellFormed : Instr → Bool
  | .clr | .bld | .drv => true
  | .ldf sym cnt => decide (sym.toNat < 2 ^ 24) && decide (cnt.toNat < 2 ^ 32)
  | .rds sel => decide (sel.toNat < 2 ^ 16)
  | .rdn idx sel | .rdc idx sel | .rdb idx sel =>
    decide (idx.toNat < 2 ^ 16) && decide (sel.toNat < 2 ^ 16)

end Sys2Proof
end

