-- ==== Sys2Proof/Machine/Assembler.lean ====
section
/-! DEFINITION. The spec's notation for a command sequence (spec/30_encoding.md R89, R90): the
names of selectors and the three pseudo-instructions, as terms. The characters of a line are not
modelled (log 16). -/

namespace Sys2Proof.Machine

/-- The names for the selector of RDS (R90). -/
def selSTATUS : Nat := 0
def selNLEAF : Nat := 1
def selNNODE : Nat := 2
def selQCNT : Nat := 3
def selROOT : Nat := 4
def selTOTAL : Nat := 5
def selNMAX : Nat := 6

/-- The names for the selector of RDN (R90). -/
def selINFO : Nat := 0
def selWT : Nat := 1
def selKIDS : Nat := 2

/-- The names for the selector of RDC (R90). -/
def selSYM : Nat := 0
def selLEN : Nat := 1

/-- A line: a command, or a pseudo-instruction (R90). -/
inductive AsmLine where
  | cmd (c : AsmCmd)
  | stat
  | rdcode (idx : Nat)
  | run
deriving DecidableEq, Repr

/-- The commands a line expands to on an instance of capacity `nmax` (R90). -/
def AsmLine.expand (nmax : Index) : AsmLine → List AsmCmd
  | .cmd c => [c]
  | .stat => [.rds selSTATUS]
  | .rdcode idx => .rdc idx selLEN :: (List.range (nchunk nmax)).map (fun k => .rdb idx k)
  | .run => [.bld, .drv]

/-- The command words of a sequence of lines; nothing when an operand does not fit its field. -/
def assemble (nmax : Index) (lines : List AsmLine) : Option (List CmdWord) :=
  (lines.flatMap (AsmLine.expand nmax)).mapM (fun c => c.toInstr.map encode)

/-- A host that sends each word and takes each response before the next (R214). -/
def hostRuns (words : List CmdWord) : List HostEvent :=
  words.flatMap (fun cw => [.send cw, .take])

end Sys2Proof.Machine
end

