-- ==== Sys2Proof/Safety.lean ====
section
/-! DEFINITION. What the state stands for (spec/10_state.md R35), the invariants of its section 6
(R36 to R41), when each fault applies (spec/60_exceptions.md R183, R185, R187), and which part of
the state a host can read. -/

namespace Sys2Proof.Machine

/-! ### What the state stands for (R35) -/

/-- A Huffman tree (R35). -/
inductive Tree where
  | leaf (sym : Symbol) (wt : Weight)
  | internal (wt : Weight) (left right : Tree)
deriving DecidableEq, Repr

/-- `tree(i)` (R35). Children have smaller indices (R38), so fuel above the index is enough. -/
def State.treeAt (s : State) (fuel : Nat) (i : Index) : Option Tree :=
  match fuel with
  | 0 => none
  | k + 1 =>
    match (s.nodeAt i.toNat).kind with
    | .leaf => some (.leaf (s.nodeAt i.toNat).sym (s.nodeAt i.toNat).wt)
    | .internal =>
      match s.treeAt k (s.nodeAt i.toNat).left, s.treeAt k (s.nodeAt i.toNat).right with
      | some l, some r => some (.internal (s.nodeAt i.toNat).wt l r)
      | _, _ => none

/-- The HuffmanTree: absent when ROOTV = 0 (R35). -/
def State.huffmanTree (s : State) : Option Tree :=
  if s.status.rootv then s.treeAt (s.root.toNat + 1) s.root else none

/-- The weight of the root of a tree. -/
def Tree.weight : Tree → Weight
  | .leaf _ w => w
  | .internal w _ _ => w

/-- The sum of the weights of a tree's leaves (R39). -/
def Tree.leafSum : Tree → Nat
  | .leaf _ w => w.toNat
  | .internal _ l r => l.leafSum + r.leafSum

/-- The FrequencyMap, in load order (R35). -/
def State.frequencyMap (s : State) : List (Symbol × Weight) :=
  (List.range s.nleaf.toNat).map (fun i => ((s.nodeAt i).sym, (s.nodeAt i).wt))

/-- The bit string of an entry, first bit first (R34). -/
def CtEntry.bits (e : CtEntry) : List Bool := (List.range e.clen.toNat).map e.cbits.testBit

/-- `code(i)`: the code of leaf `i` (R33), while PHASE = DERIVED and `i` is below NLEAF. DESIGN CHOICE
(log 18): elsewhere, where the spec defines no code, it is the bits of whatever entry `i` holds. -/
def State.code (s : State) (i : Nat) : List Bool := CtEntry.bits (s.ctAt i)

/-- The CodeTable: one entry for each leaf, while PHASE = DERIVED (R33, R35). DESIGN CHOICE (log 18):
in the other phases, in which R35 does not define it, it is `none`. -/
def State.codeTable (s : State) : Option (List (Symbol × List Bool)) :=
  if s.status.phase = .derived then
    some ((List.range s.nleaf.toNat).map (fun i => ((s.nodeAt i).sym, s.code i)))
  else none

/-- The node reached from node `i` along a path: left for 0, right for 1 (R140). -/
def State.follow (s : State) (i : Index) (p : List Bool) : Option Index :=
  match p with
  | [] => some i
  | b :: rest =>
    match (s.nodeAt i.toNat).kind with
    | .leaf => none
    | .internal =>
      s.follow (if b then (s.nodeAt i.toNat).right else (s.nodeAt i.toNat).left) rest

/-- The cost of giving leaf `i` a code of length `len i`: the sum of WT times length (R42). -/
def State.cost (s : State) (len : Nat → Nat) : Nat :=
  (Finset.range s.nleaf.toNat).sum (fun i => (s.nodeAt i).wt.toNat * len i)

/-! ### The merge in the spec's own terms (R120, R126) -/

/-- The key of node `i` is lower than the key of node `j` (R120), on the numbers. -/
def KeyBelow (s : State) (i j : Index) : Prop :=
  (s.nodeAt i.toNat).wt.toNat < (s.nodeAt j.toNat).wt.toNat ∨
    ((s.nodeAt i.toNat).wt.toNat = (s.nodeAt j.toNat).wt.toNat ∧ i.toNat < j.toNat)

/-- `k` merge steps one after another (R126). -/
def mergeTimes (k : Nat) (s : State) : Except Fault State :=
  match k with
  | 0 => .ok s
  | j + 1 =>
    match s.mergeStep with
    | .ok s' => mergeTimes j s'
    | .error f => .error f

/-! ### The invariants (R36 to R41) -/

/-- Node `j` is LEFT or RIGHT of node `k`. -/
def State.isChild (s : State) (k j : Nat) : Prop :=
  (s.nodeAt k).left.toNat = j ∨ (s.nodeAt k).right.toNat = j

/-- Slot `k` holds an internal node (R38). -/
structure InternalNode (s : State) (k : Nat) : Prop where
  kind : (s.nodeAt k).kind = .internal
  sym : (s.nodeAt k).sym = 0
  left_lt : (s.nodeAt k).left.toNat < k
  right_lt : (s.nodeAt k).right.toNat < k
  left_ne_right : (s.nodeAt k).left ≠ (s.nodeAt k).right
  weight : (s.nodeAt k).wt.toNat =
    (s.nodeAt (s.nodeAt k).left.toNat).wt.toNat + (s.nodeAt (s.nodeAt k).right.toNat).wt.toNat

/-- The entry of leaf `i` (R41): its length, the zero bits above it, and the path it is. -/
structure LeafCode (s : State) (i : Nat) : Prop where
  written : (s.ct.get? i).isSome
  length_pos : 1 ≤ (s.ctAt i).clen.toNat
  length_le : (s.ctAt i).clen.toNat ≤ max (s.nleaf.toNat - 1) 1
  high_zero : (s.ctAt i).cbits < 2 ^ (s.ctAt i).clen.toNat
  single : s.nleaf.toNat = 1 → s.code i = [false]
  path : 2 ≤ s.nleaf.toNat → (s.follow s.root (s.code i)).map BitVec.toNat = some i

/-- The invariants of section 6 of spec/10_state.md, with the canonical forms of the model's lists
and the range of NMAX (R7). -/
structure Invariants (s : State) : Prop where
  /-- R7 -/
  nmax_ge : Config.nmaxMin ≤ s.nmax.toNat
  nmax_le : s.nmax.toNat ≤ Config.nmaxMax
  /-- the canonical forms of the memories and the queue (log 5, log 10) -/
  node_wf : s.node.wf = true
  ct_wf : s.ct.wf = true
  pq_wf : pqWf s.pq = true
  /-- R27, R31 -/
  qcnt_eq : s.qcnt.toNat = s.pq.length
  /-- R36 -/
  nleaf_le : s.nleaf.toNat ≤ s.nmax.toNat
  load_nnode : s.status.phase = .load → s.nnode = s.nleaf
  load_queue : s.status.phase = .load → ∀ i : Index, i ∈ s.pq ↔ i.toNat < s.nleaf.toNat
  built_queue : s.status.phase ≠ .load → s.pq = []
  built_nnode : s.status.phase ≠ .load → s.nnode.toNat = 2 * s.nleaf.toNat - 1
  derived_nleaf : s.status.phase = .derived → 1 ≤ s.nleaf.toNat
  /-- every slot in use has been written (R26, R69) -/
  written : ∀ i, i < s.nnode.toNat → (s.node.get? i).isSome
  /-- R37 -/
  leaf : ∀ i, i < s.nleaf.toNat →
    (s.nodeAt i).kind = .leaf ∧ (s.nodeAt i).left = 0 ∧ (s.nodeAt i).right = 0
  distinct : ∀ i j, i < j → j < s.nleaf.toNat → (s.nodeAt i).sym ≠ (s.nodeAt j).sym
  /-- R32, R38 -/
  internal : ∀ k, s.nleaf.toNat ≤ k → k < s.nnode.toNat → InternalNode s k
  one_parent : ∀ j k k', s.nleaf.toNat ≤ k → k < s.nnode.toNat → s.nleaf.toNat ≤ k' →
    k' < s.nnode.toNat → s.isChild k j → s.isChild k' j → k = k'
  /-- R39 -/
  total_eq : s.total.toNat = s.cost (fun _ => 1)
  /-- R40 -/
  load_flags : s.status.phase = .load →
    s.status.rootv = false ∧ s.status.empty = false ∧ s.status.single = false ∧ s.root = 0
  absent_flags : s.status.phase ≠ .load → s.nleaf.toNat = 0 →
    s.status.rootv = false ∧ s.status.empty = true ∧ s.status.single = false ∧ s.root = 0
  tree_flags : s.status.phase ≠ .load → 1 ≤ s.nleaf.toNat →
    s.status.rootv = true ∧ s.status.empty = false ∧ (s.status.single = true ↔ s.nleaf.toNat = 1)
  root_last : s.status.phase ≠ .load → 1 ≤ s.nleaf.toNat → s.root.toNat = 2 * s.nleaf.toNat - 2
  has_parent : s.status.phase ≠ .load → ∀ j, j < s.nnode.toNat → j ≠ s.root.toNat →
    ∃ k, s.nleaf.toNat ≤ k ∧ k < s.nnode.toNat ∧ s.isChild k j
  root_weight : s.status.phase ≠ .load → 1 ≤ s.nleaf.toNat →
    (s.nodeAt s.root.toNat).wt = s.total
  /-- R41 -/
  codes : s.status.phase = .derived → ∀ i, i < s.nleaf.toNat → LeafCode s i

/-! ### When a fault applies (R183, R185, R187, R189) -/

/-- The phase table of R185: the phase check passes. -/
def phaseOk : Instr → Phase → Bool
  | .clr, _ => true
  | .ldf _ _, p => decide (p = .load)
  | .bld, p => decide (p = .load)
  | .drv, p => decide (p = .built)
  | .rds _, _ => true
  | .rdn _ _, _ => true
  | .rdc _ _, p => decide (p = .derived)
  | .rdb _ _, p => decide (p = .derived)

/-- The commands that are subject to the lock (R182). -/
def lockable : Instr → Bool
  | .ldf _ _ | .bld | .drv => true
  | .clr | .rds _ | .rdn _ _ | .rdc _ _ | .rdb _ _ => false

/-- The selector names no register, field group or chunk (R187). -/
def selBad (i : Instr) (s : State) : Prop :=
  match i with
  | .rds sel => 6 < sel.toNat
  | .rdn _ sel => 2 < sel.toNat
  | .rdc _ sel => 1 < sel.toNat
  | .rdb _ sel => nchunk s.nmax ≤ sel.toNat
  | .clr | .ldf _ _ | .bld | .drv => False

/-- The index names no entry in use (R187). -/
def rangeBad (i : Instr) (s : State) : Prop :=
  match i with
  | .rdn idx _ => s.nnode.toNat ≤ idx.toNat
  | .rdc idx _ | .rdb idx _ => s.nleaf.toNat ≤ idx.toNat
  | .clr | .ldf _ _ | .bld | .drv | .rds _ => False

/-- The cause of a fault holds of a decoded command in a state (R183). -/
def Applies (e : Err) (i : Instr) (s : State) : Prop :=
  match e with
  | .illop => False
  | .faulted => lockable i = true ∧ s.status.err ≠ none
  | .phase => phaseOk i s.status.phase = false
  | .sel => selBad i s
  | .range => rangeBad i s
  | .empty => i = .drv ∧ s.status.rootv = false
  | .full => ∃ sym cnt, i = .ldf sym cnt ∧ s.nleaf = s.nmax
  | .dupsym => ∃ sym cnt, i = .ldf sym cnt ∧ ∃ j, j < s.nleaf.toNat ∧ (s.nodeAt j).sym = sym
  | .wovf => ∃ sym cnt, i = .ldf sym cnt ∧ 2 ^ 32 - 1 < s.total.toNat + cnt.toNat

/-- The commands that read (spec/43_readout.md R164). -/
def isRead : Instr → Bool
  | .rds _ | .rdn _ _ | .rdc _ _ | .rdb _ _ => true
  | .clr | .ldf _ _ | .bld | .drv => false

/-! ### What a host can read -/

/-- Two states that no command tells apart by what it can read: the registers, the queue, the
slots and entries in use, and the ports. The slots at and above NNODE, and the code table where it
holds no value, may differ (R29, R33, R69). -/
structure SameView (s t : State) : Prop where
  status : s.status = t.status
  nleaf : s.nleaf = t.nleaf
  nnode : s.nnode = t.nnode
  qcnt : s.qcnt = t.qcnt
  root : s.root = t.root
  total : s.total = t.total
  nmax : s.nmax = t.nmax
  pq : s.pq = t.pq
  rsp : s.rsp = t.rsp
  host : s.host = t.host
  node : ∀ i, i < s.nnode.toNat → s.nodeAt i = t.nodeAt i
  ct : s.status.phase = .derived → ∀ i, i < s.nleaf.toNat → s.ctAt i = t.ctAt i

/-! ### What starts a new invocation (R212) -/

/-- The host's next action starts a new invocation when the block takes it: reset, or a word that
is CLR (R212). -/
def startsInvocation (s : State) : Prop :=
  s.host.head? = some .reset ∨ ∃ cw, s.host.head? = some (.send cw) ∧ decode cw = .ok .clr

/-- The host's next action is the command `i`. -/
def sends (s : State) (i : Instr) : Prop :=
  ∃ cw, s.host.head? = some (.send cw) ∧ decode cw = .ok i

end Sys2Proof.Machine
end

