-- ==== Sys2Proof/Certificates/Slice0/Obligations.lean ====
section
/-! DEFINITION. The statements for the provers. Each cites the rule of spec/ it formalises. -/

open Sys2Proof Sys2Proof.Machine

/-! ### Commands and responses (spec/30_encoding.md) -/

/-- Every command, with every operand at every value, is what its word decodes to (R83, R84, R85). -/
def Obligations.DecodeOfEncode : Prop := ∀ i : Instr, decode (encode i) = .ok i

/-- A word that decodes is the word of the command it decodes to: no command has two words (R84). -/
def Obligations.EncodeOfDecode : Prop :=
  ∀ (cw : CmdWord) (i : Instr), decode cw = .ok i → encode i = cw

/-- R84: a word is the command of a row exactly when `cw & mask = match`, the rows are disjoint,
and a word that matches no row is illegal. -/
def Obligations.DecodeAgreesWithOpcodeMap : Prop :=
  ∀ cw : CmdWord,
    (∀ r ∈ opcodeMap, r.fits cw ↔ ∃ i, decode cw = .ok i ∧ rowOf i = r) ∧
    (∀ r ∈ opcodeMap, ∀ r' ∈ opcodeMap, r.fits cw → r'.fits cw → r = r') ∧
    ((∃ e, decode cw = .error e) ↔ ∀ r ∈ opcodeMap, ¬ r.fits cw)

/-- R81: which bits each operand is, on the numbers, and which bits must be 0. -/
def Obligations.OperandsAreTheirBits : Prop :=
  (∀ cw sym cnt, decode cw = .ok (.ldf sym cnt) →
    sym.toNat = cw.toNat / 2 ^ 32 % 2 ^ 24 ∧ cnt.toNat = cw.toNat % 2 ^ 32) ∧
  (∀ cw sel, decode cw = .ok (.rds sel) →
    sel.toNat = cw.toNat % 2 ^ 16 ∧ cw.toNat / 2 ^ 16 % 2 ^ 16 = 0 ∧
      cw.toNat / 2 ^ 32 % 2 ^ 24 = 0) ∧
  (∀ cw idx sel, (decode cw = .ok (.rdn idx sel) ∨ decode cw = .ok (.rdc idx sel) ∨
      decode cw = .ok (.rdb idx sel)) →
    idx.toNat = cw.toNat / 2 ^ 32 % 2 ^ 16 ∧ cw.toNat / 2 ^ 48 % 2 ^ 8 = 0 ∧
      sel.toNat = cw.toNat % 2 ^ 16 ∧ cw.toNat / 2 ^ 16 % 2 ^ 16 = 0) ∧
  (∀ cw, (decode cw = .ok .clr ∨ decode cw = .ok .bld ∨ decode cw = .ok .drv) →
    cw.toNat / 2 ^ 32 % 2 ^ 24 = 0 ∧ cw.toNat % 2 ^ 32 = 0)

/-- R91: words written out from the encodings decode to the commands they stand for. -/
def Obligations.WorkedWordsDecode : Prop :=
  decode 0x0100000000000000#64 = .ok .clr ∧
  decode 0x0200006C00000002#64 = .ok (.ldf 0x6C#24 2#32) ∧
  decode 0x0300000000000000#64 = .ok .bld ∧
  decode 0x0400000000000000#64 = .ok .drv ∧
  decode 0x1000000000000004#64 = .ok (.rds 4#16) ∧
  decode 0x1100000600000002#64 = .ok (.rdn 6#16 2#16) ∧
  decode 0x1200000200000001#64 = .ok (.rdc 2#16 1#16) ∧
  decode 0x1300000200000000#64 = .ok (.rdb 2#16 0#16) ∧
  decode 0x0000000000000000#64 = .error .unknownOpcode ∧
  decode 0x0300000000000001#64 = .error .mustBeZero ∧
  decode 0x1101000000000000#64 = .error .mustBeZero

/-- R82 and R183: a command answers with a response word whose err field is at most 9, whose bits
55:32 are 0, and whose data field is 0 when err is not 0. -/
def Obligations.ResponsesHaveTheirLayout : Prop :=
  ∀ (i : Instr) (s t : State), exec i s = .next t →
    ∃ e d : Nat, e ≤ 9 ∧ d < 2 ^ 32 ∧ (e ≠ 0 → d = 0) ∧
      t.rsp.map BitVec.toNat = some (e * 2 ^ 56 + d)

/-- R22: the STATUS word by its fields; every bit not listed is 0, and so is every field at reset. -/
def Obligations.StatusWordLayout : Prop :=
  (∀ st : Status,
    st.word.toNat =
      (match st.phase with | .load => 0 | .built => 1 | .derived => 2)
      + 4 * st.rootv.toNat + 8 * st.empty.toNat + 16 * st.single.toNat
      + 256 * (match st.err with
        | none => 0 | some .illop => 1 | some .faulted => 2 | some .phase => 3 | some .sel => 4
        | some .range => 5 | some .empty => 6 | some .full => 7 | some .dupsym => 8
        | some .wovf => 9)) ∧
  Status.reset.word.toNat = 0

/-- R90: the names of the selectors and the three pseudo-instructions. -/
def Obligations.PseudoInstructionsExpand : Prop :=
  selSTATUS = 0 ∧ selNLEAF = 1 ∧ selNNODE = 2 ∧ selQCNT = 3 ∧ selROOT = 4 ∧ selTOTAL = 5 ∧
  selNMAX = 6 ∧ selINFO = 0 ∧ selWT = 1 ∧ selKIDS = 2 ∧ selSYM = 0 ∧ selLEN = 1 ∧
  ∀ (nmax : Index) (idx : Nat),
    AsmLine.expand nmax .stat = [.rds 0] ∧
    AsmLine.expand nmax .run = [.bld, .drv] ∧
    (AsmLine.expand nmax (.rdcode idx)).length = nchunk nmax + 1 ∧
    (AsmLine.expand nmax (.rdcode idx))[0]? = some (.rdc idx 1) ∧
    ∀ k, k < nchunk nmax → (AsmLine.expand nmax (.rdcode idx))[k + 1]? = some (.rdb idx k)

/-- R8: the sizes of an instance, for every NMAX of R7, and those of NMAX = 256. -/
def Obligations.SizesOfAnInstance : Prop :=
  (∀ nmax : Index, 1 ≤ nmax.toNat → nmax.toNat ≤ 32768 →
    nnodeMax nmax + 1 = 2 * nmax.toNat ∧ nnodeMax nmax ≤ 65535 ∧
    codeW nmax = max (nmax.toNat - 1) 1 ∧
    codeW nmax ≤ 32 * nchunk nmax ∧ 32 * nchunk nmax < codeW nmax + 32) ∧
  codeW 256 = 255 ∧ nchunk 256 = 8

/-! ### Steps and ports (spec/70_reset_and_hazards.md) -/

/-- R100, R214: when the block is ready and the host sends a word that decodes, the step is that
command at the state with the word passed. That what the host does is a list in the state is the
model's form (log 2, DESIGN CHOICE). -/
def Obligations.StepRunsDecodedCommand : Prop :=
  ∀ (s : State) (cw : CmdWord) (rest : List HostEvent) (i : Instr),
    s.host = .send cw :: rest → s.rsp = none → decode cw = .ok i →
    step s = exec i { s with host := rest }

/-- R86, R184: in every state in which the block is ready, locked or not and in every phase, a word
that matches no row faults E_ILLOP: response 0x01 and zeros, code latched if none is, nothing else. -/
def Obligations.IllegalWordFaultsIllop : Prop :=
  ∀ (s : State) (cw : CmdWord) (rest : List HostEvent),
    s.host = .send cw :: rest → s.rsp = none → (∀ r ∈ opcodeMap, ¬ r.fits cw) →
    step s = .next { s with
      host := rest
      rsp := some 0x0100000000000000#64
      status := { s.status with err := some (s.status.err.getD .illop) } }

/-- R214 with R222: an accepted word gets exactly one response, offered by the step that accepts
it; while it is not taken no word passes and nothing changes; taking it frees the port and changes
nothing else. -/
def Obligations.OneCommandAtATime : Prop :=
  (∀ (s t : State) (cw : CmdWord) (rest : List HostEvent), s.host = .send cw :: rest →
    s.rsp = none → step s = .next t → t.host = rest ∧ ∃ r, t.rsp = some r) ∧
  (∀ (s : State) (cw : CmdWord) (rest : List HostEvent) (r : RspWord), s.host = .send cw :: rest →
    s.rsp = some r → step s = .next s) ∧
  (∀ (s : State) (rest : List HostEvent) (r : RspWord), s.host = .take :: rest →
    s.rsp = some r → step s = .next { s with rsp := none, host := rest })

/-- The model's choice (log 3, log 15): a host that takes when nothing is offered waits, and a host
that does nothing leaves the block as it is. -/
def Obligations.IdleStepsChangeNothing : Prop :=
  (∀ (s : State) (rest : List HostEvent), s.host = .take :: rest → s.rsp = none →
    step s = .next s) ∧
  (∀ s : State, s.host = [] → step s = .next s)

/-- R46, R210: what reset leaves, whatever the state: the registers, that no node and no code can
be read, and that it is what CLR leaves. What NODE, CT and the port hold is the model's choice
(log 4, log 6) and not stated. -/
def Obligations.ResetLeavesResetState : Prop :=
  ∀ (s : State) (rest : List HostEvent), s.host = .reset :: rest →
    ∃ t, step s = .next t ∧
      t.status.phase = .load ∧ t.status.rootv = false ∧ t.status.empty = false ∧
      t.status.single = false ∧ t.status.err = none ∧
      t.nleaf = 0 ∧ t.nnode = 0 ∧ t.qcnt = 0 ∧ t.root = 0 ∧ t.total = 0 ∧ t.pq = [] ∧
      t.nmax = s.nmax ∧ t.host = rest ∧
      (∀ idx sel, ∃ e, exec (.rdn idx sel) t = .next (raiseFault e t)) ∧
      (∀ idx sel, exec (.rdc idx sel) t = .next (raiseFault .phase t) ∧
        exec (.rdb idx sel) t = .next (raiseFault .phase t)) ∧
      ∃ u, exec .clr { s with host := rest } = .next u ∧ SameView t { u with rsp := t.rsp }

/-- R46: the state the machine starts in, for every NMAX of an instance (the number itself is the
model's choice for `State.reset`, log 1). -/
def Obligations.ResetStateIsTheSpecs : Prop :=
  ∀ nmax : Index,
    (State.resetWith nmax).status.word = 0 ∧ (State.resetWith nmax).nleaf = 0 ∧
    (State.resetWith nmax).nnode = 0 ∧ (State.resetWith nmax).qcnt = 0 ∧
    (State.resetWith nmax).root = 0 ∧ (State.resetWith nmax).total = 0 ∧
    (State.resetWith nmax).pq = [] ∧ (State.resetWith nmax).nmax = nmax

/-! ### CLR and LDF (spec/40_clear_load.md) -/

/-- R101: CLR completes in every state, locked or not. It is the reset state with response 0; NODE
and CT are not written. No other command clears ERR, ROOTV, EMPTY or SINGLE. -/
def Obligations.ClrStartsNewInvocation : Prop :=
  (∀ s : State, exec .clr s = .next { s with
    status := { phase := .load, rootv := false, empty := false, single := false, err := none }
    nleaf := 0, nnode := 0, qcnt := 0, root := 0, total := 0
    pq := []
    rsp := some 0x0000000000000000#64 }) ∧
  ∀ (i : Instr) (s t : State), Invariants s → i ≠ .clr → exec i s = .next t →
    (s.status.err ≠ none → t.status.err ≠ none) ∧
    (s.status.rootv = true → t.status.rootv = true) ∧
    (s.status.empty = true → t.status.empty = true) ∧
    (s.status.single = true → t.status.single = true)

/-- R103: an LDF whose checks all pass completes: what it writes, the response, and that it writes
nothing else (a count of 0 and a symbol of 0 are among its operands); the first check that does not
pass is the fault it answers. -/
def Obligations.LdfLoadsOneLeaf : Prop :=
  ∀ (s : State) (sym : Symbol) (cnt : Weight),
    (s.status.err = none → s.status.phase = .load → s.nleaf ≠ s.nmax →
      (∀ i, i < s.nleaf.toNat → (s.nodeAt i).sym ≠ sym) →
      s.total.toNat + cnt.toNat ≤ 2 ^ 32 - 1 →
      ∃ t, exec (.ldf sym cnt) s = .next t ∧
        t.nodeAt s.nleaf.toNat =
          { kind := .leaf, sym := sym, wt := cnt, left := 0, right := 0 } ∧
        (∀ j, j ≠ s.nleaf.toNat → t.node.get? j = s.node.get? j) ∧
        (∀ k, k ∈ t.pq ↔ k ∈ s.pq ∨ k = s.nleaf) ∧
        t.nleaf = s.nleaf + 1 ∧ t.nnode = s.nleaf + 1 ∧ t.qcnt = s.qcnt + 1 ∧
        t.total.toNat = s.total.toNat + cnt.toNat ∧
        t.rsp.map BitVec.toNat = some s.nleaf.toNat ∧
        t.status = s.status ∧ t.root = s.root ∧ t.nmax = s.nmax ∧ t.ct = s.ct ∧
        t.host = s.host) ∧
    (s.status.err ≠ none → exec (.ldf sym cnt) s = .next (raiseFault .faulted s)) ∧
    (s.status.err = none → s.status.phase ≠ .load →
      exec (.ldf sym cnt) s = .next (raiseFault .phase s)) ∧
    (s.status.err = none → s.status.phase = .load → s.nleaf = s.nmax →
      exec (.ldf sym cnt) s = .next (raiseFault .full s)) ∧
    (s.status.err = none → s.status.phase = .load → s.nleaf ≠ s.nmax →
      (∃ i, i < s.nleaf.toNat ∧ (s.nodeAt i).sym = sym) →
      exec (.ldf sym cnt) s = .next (raiseFault .dupsym s)) ∧
    (s.status.err = none → s.status.phase = .load → s.nleaf ≠ s.nmax →
      (∀ i, i < s.nleaf.toNat → (s.nodeAt i).sym ≠ sym) →
      2 ^ 32 - 1 < s.total.toNat + cnt.toNat →
      exec (.ldf sym cnt) s = .next (raiseFault .wovf s))

/-! ### BLD (spec/41_build.md) -/

/-- R120: the key order: the comparison BLD makes is the order of the pairs (WT, index), of two
different nodes one key is lower, and a queue that is not empty has exactly one lowest member. -/
def Obligations.KeyOrderHasOneLowest : Prop :=
  ∀ s : State,
    (∀ i j : Index, s.keyLower i j = true ↔ KeyBelow s i j) ∧
    (∀ i j : Index, i ≠ j → (KeyBelow s i j ↔ ¬ KeyBelow s j i)) ∧
    (∀ pq : List Index, pq ≠ [] → ∃ i, i ∈ pq ∧ (∀ j ∈ pq, j ≠ i → KeyBelow s i j) ∧
      ∀ k ∈ pq, (∀ j ∈ pq, j ≠ k → KeyBelow s k j) → k = i)

/-- R121: an extraction from a queue that is not empty returns the member with the lowest key under
R120 and removes it. -/
def Obligations.ExtractMinReturnsLowestKey : Prop :=
  ∀ s : State, s.pq ≠ [] →
    ∃ i t, s.extractMin = .ok (i, t) ∧ i ∈ s.pq ∧ (∀ j ∈ s.pq, j ≠ i → KeyBelow s i j) ∧
      (∀ k, k ∈ t.pq ↔ k ∈ s.pq ∧ k ≠ i) ∧ t.qcnt = s.qcnt - 1 ∧
      t = { s with pq := t.pq, qcnt := t.qcnt }

/-- R122, R123: a merge of a queue with two members or more and a free slot: the two lowest become
the left and the right child of the new node in slot NNODE, which takes their place. -/
def Obligations.MergeStepJoinsTwoLowest : Prop :=
  ∀ s : State, pqWf s.pq = true → 2 ≤ s.pq.length → s.nnode.toNat < nnodeMax s.nmax →
    s.nnode ∉ s.pq →
    ∃ t a b, s.mergeStep = .ok t ∧ a ∈ s.pq ∧ b ∈ s.pq ∧ a ≠ b ∧
      (∀ j ∈ s.pq, j ≠ a → KeyBelow s a j) ∧
      (∀ j ∈ s.pq, j ≠ a → j ≠ b → KeyBelow s b j) ∧
      t.nodeAt s.nnode.toNat =
        { kind := .internal, sym := 0,
          wt := (s.nodeAt a.toNat).wt + (s.nodeAt b.toNat).wt, left := a, right := b } ∧
      (∀ j, j ≠ s.nnode.toNat → t.node.get? j = s.node.get? j) ∧
      (∀ k, k ∈ t.pq ↔ k = s.nnode ∨ (k ∈ s.pq ∧ k ≠ a ∧ k ≠ b)) ∧
      t.qcnt = s.qcnt - 1 ∧ t.nnode = s.nnode + 1 ∧
      t = { s with node := t.node, pq := t.pq, qcnt := t.qcnt, nnode := t.nnode }

/-- R125, R128: BLD on one entry or more completes and leaves the tree: what it writes, the
response, and that it writes nothing else; on none it takes the empty case; locked or in another
phase it faults. -/
def Obligations.BldBuildsTree : Prop :=
  ∀ s : State, Invariants s →
    (s.status.err = none → s.status.phase = .load → 1 ≤ s.nleaf.toNat →
      ∃ t, exec .bld s = .next t ∧
        t.pq = [] ∧ t.qcnt = 0 ∧ t.nnode.toNat = 2 * s.nleaf.toNat - 1 ∧
        t.root.toNat = 2 * s.nleaf.toNat - 2 ∧ (t.nodeAt t.root.toNat).wt = s.total ∧
        (∀ k, s.nleaf.toNat ≤ k → k < t.nnode.toNat → InternalNode t k ∧
          KeyBelow t (t.nodeAt k).left (t.nodeAt k).right) ∧
        t.status = { s.status with
          phase := .built, rootv := true, single := decide (s.nleaf.toNat = 1) } ∧
        t.rsp = some (if s.nleaf.toNat = 1 then 0x15#64 else 0x5#64) ∧
        (∀ j, j < s.nleaf.toNat ∨ 2 * s.nleaf.toNat - 1 ≤ j → t.node.get? j = s.node.get? j) ∧
        t.nleaf = s.nleaf ∧ t.total = s.total ∧ t.nmax = s.nmax ∧ t.ct = s.ct ∧
        t.host = s.host ∧ Invariants t) ∧
    (s.status.err = none → s.status.phase = .load → s.nleaf = 0 →
      exec .bld s = .next { s with
        status := { s.status with phase := .built, empty := true }
        rsp := some 0x9#64 }) ∧
    (s.status.err ≠ none → exec .bld s = .next (raiseFault .faulted s)) ∧
    (s.status.err = none → s.status.phase ≠ .load → exec .bld s = .next (raiseFault .phase s))

/-- R126: the loop of BLD is exactly NLEAF - 1 merge steps, each lowering QCNT and raising NNODE by
one, and then one extraction gives ROOT. -/
def Obligations.BldRunsNleafMinusOneMerges : Prop :=
  ∀ s : State, Invariants s → s.status.err = none → s.status.phase = .load → 1 ≤ s.nleaf.toNat →
    (∀ k, k < s.nleaf.toNat → ∃ u, mergeTimes k s = .ok u ∧
      u.qcnt.toNat = s.nleaf.toNat - k ∧ u.nnode.toNat = s.nleaf.toNat + k ∧
      u.qcnt.toNat + u.nnode.toNat = 2 * s.nleaf.toNat ∧ u.nnode.toNat ≤ nnodeMax s.nmax) ∧
    ∃ u r v t, mergeTimes (s.nleaf.toNat - 1) s = .ok u ∧ u.qcnt.toNat = 1 ∧
      u.nnode.toNat = 2 * s.nleaf.toNat - 1 ∧ u.extractMin = .ok (r, v) ∧
      exec .bld s = .next t ∧ t.root = r ∧ t.node = v.node ∧ t.pq = v.pq ∧ t.qcnt = v.qcnt

/-- R127: BLD on the empty map completes without a fault: EMPTY and BUILT, response 0x9, and
nothing else is written. -/
def Obligations.BldOnEmptyMap : Prop :=
  ∀ s : State, s.status.err = none → s.status.phase = .load → s.status.rootv = false →
    s.status.single = false → s.nleaf = 0 →
    exec .bld s = .next { s with
      status := { phase := .built, rootv := false, empty := true, single := false, err := none }
      rsp := some 0x0000000000000009#64 }

/-! ### DRV (spec/42_derive.md) -/

/-- R141 with R140, R143, R144: DRV on a built tree completes: the entry of each leaf holds the
path to it from the root, the single leaf holds "0", and nothing else is written but PHASE; locked,
in another phase, or with the tree absent it faults. -/
def Obligations.DrvFillsCodeTable : Prop :=
  ∀ s : State, Invariants s →
    (s.status.err = none → s.status.phase = .built → s.status.rootv = true →
      ∃ t, exec .drv s = .next t ∧
        (s.nleaf.toNat = 1 → t.ctAt 0 = { clen := 1, cbits := 0 }) ∧
        (2 ≤ s.nleaf.toNat → ∀ i, i < s.nleaf.toNat → ∃ p : List Bool,
          p ≠ [] ∧ (s.follow s.root p).map BitVec.toNat = some i ∧
          (t.ctAt i).clen.toNat = p.length ∧
          ∀ j, (t.ctAt i).cbits.testBit j = p.getD j false) ∧
        (∀ i, i < s.nleaf.toNat → (t.ct.get? i).isSome) ∧
        (∀ i, s.nleaf.toNat ≤ i → t.ct.get? i = s.ct.get? i) ∧
        t.status = { s.status with phase := .derived } ∧
        t.rsp = some (if s.nleaf.toNat = 1 then 0x16#64 else 0x6#64) ∧
        t = { s with ct := t.ct, status := t.status, rsp := t.rsp } ∧ Invariants t) ∧
    (s.status.err ≠ none → exec .drv s = .next (raiseFault .faulted s)) ∧
    (s.status.err = none → s.status.phase ≠ .built → exec .drv s = .next (raiseFault .phase s)) ∧
    (s.status.err = none → s.status.phase = .built → s.status.rootv = false →
      exec .drv s = .next (raiseFault .empty s))

/-- R146: DRV on an absent tree faults E_EMPTY and writes no entry. -/
def Obligations.DrvOnAbsentTreeFaults : Prop :=
  ∀ s : State, s.status.err = none → s.status.phase = .built → s.status.rootv = false →
    exec .drv s = .next { s with
      status := { s.status with err := some .empty }
      rsp := some 0x0600000000000000#64 }

/-! ### The read commands (spec/43_readout.md) -/

/-- R160: RDS reads the register its selector names, in every state; any other selector faults
E_SEL. -/
def Obligations.RdsReadsStatusRegisters : Prop :=
  ∀ s : State,
    (∀ (sel : BitVec 16) (v : Nat),
      ((sel = 0 ∧ v = s.status.word.toNat) ∨ (sel = 1 ∧ v = s.nleaf.toNat) ∨
        (sel = 2 ∧ v = s.nnode.toNat) ∨ (sel = 3 ∧ v = s.qcnt.toNat) ∨
        (sel = 4 ∧ v = s.root.toNat) ∨ (sel = 5 ∧ v = s.total.toNat) ∨
        (sel = 6 ∧ v = s.nmax.toNat)) →
      exec (.rds sel) s = .next { s with rsp := some (BitVec.ofNat 64 v) }) ∧
    (∀ sel : BitVec 16, 6 < sel.toNat → exec (.rds sel) s = .next (raiseFault .sel s))

/-- R161: RDN reads the field group its selector names of a node in use, in every state; a bad
selector faults E_SEL, and then a slot not in use E_RANGE. -/
def Obligations.RdnReadsNodes : Prop :=
  ∀ (s : State) (idx : Index),
    (idx.toNat < s.nnode.toNat →
      exec (.rdn idx 0) s = .next { s with rsp := some (BitVec.ofNat 64
        ((if (s.nodeAt idx.toNat).kind = .internal then 2 ^ 31 else 0)
          + (if idx ∈ s.pq then 2 ^ 30 else 0) + (s.nodeAt idx.toNat).sym.toNat)) } ∧
      exec (.rdn idx 1) s = .next { s with rsp := some (BitVec.ofNat 64
        (s.nodeAt idx.toNat).wt.toNat) } ∧
      exec (.rdn idx 2) s = .next { s with rsp := some (BitVec.ofNat 64
        ((s.nodeAt idx.toNat).left.toNat * 2 ^ 16 + (s.nodeAt idx.toNat).right.toNat)) }) ∧
    (∀ sel : BitVec 16, 2 < sel.toNat → exec (.rdn idx sel) s = .next (raiseFault .sel s)) ∧
    (∀ sel : BitVec 16, sel.toNat ≤ 2 → s.nnode.toNat ≤ idx.toNat →
      exec (.rdn idx sel) s = .next (raiseFault .range s))

/-- R162: RDC reads the symbol or the code length of an entry while PHASE = DERIVED; else E_PHASE,
E_SEL and E_RANGE in that order. -/
def Obligations.RdcReadsSymbolsAndLengths : Prop :=
  ∀ (s : State) (idx : Index),
    (s.status.phase = .derived → idx.toNat < s.nleaf.toNat →
      exec (.rdc idx 0) s = .next { s with rsp := some (BitVec.ofNat 64
        (s.nodeAt idx.toNat).sym.toNat) } ∧
      exec (.rdc idx 1) s = .next { s with rsp := some (BitVec.ofNat 64
        (s.ctAt idx.toNat).clen.toNat) }) ∧
    (∀ sel : BitVec 16, s.status.phase ≠ .derived →
      exec (.rdc idx sel) s = .next (raiseFault .phase s)) ∧
    (∀ sel : BitVec 16, s.status.phase = .derived → 1 < sel.toNat →
      exec (.rdc idx sel) s = .next (raiseFault .sel s)) ∧
    (∀ sel : BitVec 16, s.status.phase = .derived → sel.toNat ≤ 1 →
      s.nleaf.toNat ≤ idx.toNat → exec (.rdc idx sel) s = .next (raiseFault .range s))

/-- R163 with R64: RDB reads chunk k of CBITS of an entry while PHASE = DERIVED: bit t of the data
is CBITS[32 k + t] below CODE_W and 0 at and above it; else E_PHASE, E_SEL and E_RANGE in that
order. -/
def Obligations.RdbReadsChunks : Prop :=
  ∀ (s : State) (idx : Index) (k : BitVec 16),
    (s.status.phase = .derived → k.toNat < nchunk s.nmax → idx.toNat < s.nleaf.toNat →
      ∃ d : BitVec 32, exec (.rdb idx k) s = .next { s with rsp := some (d.setWidth 64) } ∧
        ∀ t, t < 32 → d.getLsbD t =
          (decide (32 * k.toNat + t < max (s.nmax.toNat - 1) 1) &&
            (s.ctAt idx.toNat).cbits.testBit (32 * k.toNat + t))) ∧
    (s.status.phase ≠ .derived → exec (.rdb idx k) s = .next (raiseFault .phase s)) ∧
    (s.status.phase = .derived → nchunk s.nmax ≤ k.toNat →
      exec (.rdb idx k) s = .next (raiseFault .sel s)) ∧
    (s.status.phase = .derived → k.toNat < nchunk s.nmax → s.nleaf.toNat ≤ idx.toNat →
      exec (.rdb idx k) s = .next (raiseFault .range s))

/-- R163 with R64: a whole code is read back with RDC and RDB: RDC answers its length, bit j of it
is bit (j mod 32) of chunk (j div 32), which is a chunk RDB reads, and every bit of a chunk past the
end of the code is 0. -/
def Obligations.ChunksGiveTheCode : Prop :=
  ∀ (s : State) (idx : Index), Invariants s → s.status.phase = .derived →
    idx.toNat < s.nleaf.toNat →
    exec (.rdc idx 1) s =
      .next { s with rsp := some (BitVec.ofNat 64 (s.code idx.toNat).length) } ∧
    (∀ j, j < (s.code idx.toNat).length → j / 32 < nchunk s.nmax) ∧
    ∀ k, k < nchunk s.nmax → ∃ d : BitVec 32,
      exec (.rdb idx (BitVec.ofNat 16 k)) s = .next { s with rsp := some (d.setWidth 64) } ∧
      ∀ b, b < 32 → d.getLsbD b = (s.code idx.toNat).getD (32 * k + b) false

/-- R67, R164: a read that does not fault changes no state but the response, and asked again after
the response is taken it answers the same; one that faults latches ERR; and whether ERR is 0 makes
no difference to which of the two it does. -/
def Obligations.ReadsHaveNoSideEffects : Prop :=
  ∀ (i : Instr) (s : State), isRead i = true →
    (∃ d : BitVec 32, exec i s = .next { s with rsp := some (responseWord 0 d) } ∧
      (∀ x, exec i { s with rsp := x } = .next { s with rsp := some (responseWord 0 d) }) ∧
      ∀ e, ∃ d', exec i { s with status := { s.status with err := e } } = .next { s with
        status := { s.status with err := e }, rsp := some (responseWord 0 d') }) ∨
    (∃ e : Err, exec i s = .next (raiseFault e s) ∧ (raiseFault e s).status.err ≠ none ∧
      ∀ e', exec i { s with status := { s.status with err := e' } } =
        .next (raiseFault e { s with status := { s.status with err := e' } }))

/-- R92: the data of the response to a command that does not fault. -/
def Obligations.CompletedResponsesCarryTheirData : Prop :=
  ∀ (i : Instr) (s t : State) (d : BitVec 32), exec i s = .next t →
    t.rsp = some (responseWord 0 d) →
    match i with
    | .clr => d = t.status.word ∧ d = 0
    | .ldf _ _ => d.toNat = s.nleaf.toNat
    | .bld | .drv => d = t.status.word
    | .rds sel => s.statusRegister sel.toNat = some d
    | .rdn idx sel => d = s.nodeGroup idx sel.toNat
    | .rdc idx sel =>
      (sel = 0 → d.toNat = (s.nodeAt idx.toNat).sym.toNat) ∧
        (sel = 1 → d.toNat = (s.ctAt idx.toNat).clen.toNat)
    | .rdb idx sel => d = chunk s.nmax (s.ctAt idx.toNat).cbits sel.toNat

/-! ### Faults (spec/60_exceptions.md) -/

/-- R181: what `raise Fault(code)` does, and nothing else. -/
def Obligations.FaultActionLatchesFirstCode : Prop :=
  ∀ (e : Err) (s : State),
    (s.status.err = none → raiseFault e s =
      { s with status := { s.status with err := some e }, rsp := some (responseWord e.code 0) }) ∧
    (s.status.err ≠ none → raiseFault e s = { s with rsp := some (responseWord e.code 0) })

/-- R190: after a response with a nonzero err field the state is the state before the command,
except ERR (which holds the first code) and the response itself; E_FAULTED changes nothing. -/
def Obligations.FaultsArePrecise : Prop :=
  ∀ (i : Instr) (s t : State) (r : RspWord), exec i s = .next t → t.rsp = some r →
    r.toNat / 2 ^ 56 ≠ 0 →
    ∃ e : Err, r = responseWord e.code 0 ∧
      t = { s with status := { s.status with err := some (s.status.err.getD e) }, rsp := some r } ∧
      (e = .faulted → t = { s with rsp := some r })

/-- R182: while ERR is not 0, LDF, BLD and DRV fault E_FAULTED before any other check and change
nothing; CLR and the reads never answer E_FAULTED; and only CLR and reset end the lock. -/
def Obligations.LockRefusesLoadBuildDerive : Prop :=
  (∀ (i : Instr) (s : State), lockable i = true → s.status.err ≠ none →
    exec i s = .next { s with rsp := some 0x0200000000000000#64 }) ∧
  (∀ (i : Instr) (s t : State), lockable i = false → exec i s = .next t →
    t.rsp ≠ some 0x0200000000000000#64) ∧
  (∀ s t : State, step s = .next t → s.status.err ≠ none → t.status.err = none →
    startsInvocation s)

/-- R185: the phase table. A command that is not refused by the lock answers E_PHASE exactly where
its row says so. -/
def Obligations.PhaseTableIsKept : Prop :=
  ∀ (i : Instr) (s : State), (lockable i = true → s.status.err = none) →
    (phaseOk i s.status.phase = false → exec i s = .next (raiseFault .phase s)) ∧
    (phaseOk i s.status.phase = true → ∀ t, exec i s = .next t →
      t.rsp ≠ some 0x0300000000000000#64)

/-- R188: the fault reported is the applicable fault with the smallest code; and a command to which
no fault applies completes. -/
def Obligations.SmallestApplicableFaultIsReported : Prop :=
  (∀ (i : Instr) (s : State) (e : Err), Applies e i s →
    (∀ e', Applies e' i s → e.code.toNat ≤ e'.code.toNat) → exec i s = .next (raiseFault e s)) ∧
  (∀ (i : Instr) (s : State), Invariants s → (∀ e, ¬ Applies e i s) →
    ∃ t d, exec i s = .next t ∧ t.rsp = some (responseWord 0 d))

/-- R25, R191: ERR is written only by a fault while it is 0, with the code of the response, and by
CLR and reset, which clear it: a code in it stays until one of these two; a code that appears in it
is that of the fault just answered; a fault answered while it is 0 leaves its code in it; CLR and
reset leave it 0; and while it is not 0 LDF, BLD and DRV are refused. -/
def Obligations.ErrKeepsFirstFault : Prop :=
  ∀ s t : State, step s = .next t →
    (∀ e, s.status.err = some e →
      t.status.err = some e ∨ (t.status.err = none ∧ startsInvocation s)) ∧
    (s.status.err = none → ∀ e, t.status.err = some e → t.rsp = some (responseWord e.code 0)) ∧
    (s.status.err = none → s.rsp = none → ∀ e, t.rsp = some (responseWord e.code 0) →
      t.status.err = some e) ∧
    (s.host.head? = some .reset ∨ (s.rsp = none ∧ sends s .clr) → t.status.err = none) ∧
    (s.status.err ≠ none → s.rsp = none → ∀ i, lockable i = true → sends s i →
      t.rsp = some 0x0200000000000000#64)

/-! ### Whole-machine rules (spec/10_state.md) -/

/-- R36 to R41: the invariants hold after reset, for every NMAX of an instance (R7). -/
def Obligations.InvariantHoldsAtReset : Prop :=
  ∀ nmax : Index, 1 ≤ nmax.toNat → nmax.toNat ≤ 32768 → Invariants (State.resetWith nmax)

/-- R36 to R41: every step keeps the invariants, whatever the host does. -/
def Obligations.EveryStepKeepsInvariant : Prop :=
  ∀ s t : State, Invariants s → step s = .next t → Invariants t

/-- R126, R141, R213: from a state that meets the invariants every step answers a next state: no
word, and no action of the host, stops the block. -/
def Obligations.NoStepStops : Prop := ∀ s : State, Invariants s → ∃ t, step s = .next t

/-- R23: PHASE moves LOAD to BUILT by a BLD and BUILT to DERIVED by a DRV that do not fault, to LOAD
by CLR and reset, and not otherwise. -/
def Obligations.PhaseMovesAsTheRuleSays : Prop :=
  ∀ s t : State, step s = .next t →
    t.status.phase = s.status.phase ∨
    (t.status.phase = .load ∧ startsInvocation s) ∨
    (s.status.phase = .load ∧ t.status.phase = .built ∧ sends s .bld ∧
      ∃ d, t.rsp = some (responseWord 0 d)) ∨
    (s.status.phase = .built ∧ t.status.phase = .derived ∧ sends s .drv ∧
      ∃ d, t.rsp = some (responseWord 0 d))

/-- R24: ROOTV, EMPTY and SINGLE are written only by BLD, which sets exactly one of ROOTV and EMPTY
and SINGLE only with ROOTV; they are cleared only by CLR and reset; and in LOAD all are 0. -/
def Obligations.FlagsAreWrittenOnlyByBld : Prop :=
  ∀ s t : State, Invariants s → step s = .next t →
    ((t.status.rootv = s.status.rootv ∧ t.status.empty = s.status.empty ∧
        t.status.single = s.status.single) ∨
      (startsInvocation s ∧ t.status.rootv = false ∧ t.status.empty = false ∧
        t.status.single = false) ∨
      (sends s .bld ∧ s.status.phase = .load ∧ t.status.phase = .built ∧
        t.status.rootv = !t.status.empty ∧
        (t.status.single = true → t.status.rootv = true))) ∧
    (t.status.phase = .load →
      t.status.rootv = false ∧ t.status.empty = false ∧ t.status.single = false)

/-- R28: nothing writes NMAX. -/
def Obligations.NmaxIsConstant : Prop := ∀ s t : State, step s = .next t → t.nmax = s.nmax

/-- R30: within an invocation slots are never freed and never written again. -/
def Obligations.SlotsAreOnlyAppended : Prop :=
  ∀ s t : State, Invariants s → step s = .next t → ¬ startsInvocation s →
    s.nnode.toNat ≤ t.nnode.toNat ∧ ∀ i, i < s.nnode.toNat → t.nodeAt i = s.nodeAt i

/-- R221: once the table is filled, the tree and the table stay as they are until CLR or reset. -/
def Obligations.DerivedResultStays : Prop :=
  ∀ s t : State, step s = .next t → s.status.phase = .derived → ¬ startsInvocation s →
    t.status.phase = .derived ∧ t.node = s.node ∧ t.ct = s.ct ∧ t.root = s.root ∧
      t.nleaf = s.nleaf ∧ t.nnode = s.nnode ∧ t.total = s.total ∧ t.pq = s.pq ∧ t.qcnt = s.qcnt

/-- R40: every node in use of a built tree is reached from the root along exactly one path. -/
def Obligations.EveryNodeHasOnePath : Prop :=
  ∀ s : State, Invariants s → s.status.phase ≠ .load → ∀ j : Index, j.toNat < s.nnode.toNat →
    ∃ p, s.follow s.root p = some j ∧ ∀ q, s.follow s.root q = some j → q = p

/-- R39: TOTAL is the sum of the loaded counts; the weight of every node in use is the sum of the
weights of the leaves of its tree, and at most TOTAL. -/
def Obligations.WeightsAreSubtreeSums : Prop :=
  ∀ s : State, Invariants s →
    s.total.toNat = (Finset.range s.nleaf.toNat).sum (fun i => (s.nodeAt i).wt.toNat) ∧
    s.total.toNat ≤ 2 ^ 32 - 1 ∧
    ∀ k : Index, k.toNat < s.nnode.toNat →
      ∃ T, s.treeAt (k.toNat + 1) k = some T ∧ T.weight = (s.nodeAt k.toNat).wt ∧
        T.leafSum = (s.nodeAt k.toNat).wt.toNat ∧ (s.nodeAt k.toNat).wt.toNat ≤ s.total.toNat

/-- R41, R147: in a filled table no code is empty and no code is a prefix of another. -/
def Obligations.CodesArePrefixFree : Prop :=
  ∀ s : State, Invariants s → s.status.phase = .derived →
    (∀ i, i < s.nleaf.toNat → s.code i ≠ []) ∧
    ∀ i j, i < s.nleaf.toNat → j < s.nleaf.toNat → i ≠ j → ¬ s.code i <+: s.code j

/-- R41: with two leaves or more the lengths are those of a full tree: the sum of 2^(-CLEN) is 1
(here both sides times 2^NLEAF). -/
def Obligations.CodeLengthsFillTheTree : Prop :=
  ∀ s : State, Invariants s → s.status.phase = .derived → 2 ≤ s.nleaf.toNat →
    (∀ i, i < s.nleaf.toNat → (s.ctAt i).clen.toNat ≤ s.nleaf.toNat) ∧
    (Finset.range s.nleaf.toNat).sum (fun i => 2 ^ (s.nleaf.toNat - (s.ctAt i).clen.toNat)) =
      2 ^ s.nleaf.toNat

/-- R42, R147: the codes BLD and DRV make cost no more than any other prefix-free assignment of
non-empty codes to the loaded symbols. -/
def Obligations.CodesAreOptimal : Prop :=
  ∀ s : State, Invariants s → s.status.err = none → s.status.phase = .load → 1 ≤ s.nleaf.toNat →
    ∃ u v, exec .bld s = .next u ∧ exec .drv u = .next v ∧
      ∀ c : Nat → List Bool, (∀ i, i < s.nleaf.toNat → c i ≠ []) →
        (∀ i j, i < s.nleaf.toNat → j < s.nleaf.toNat → i ≠ j → ¬ c i <+: c j) →
        v.cost (fun i => (v.code i).length) ≤ s.cost (fun i => (c i).length)

/-- R29, R33, R69, R212: two states a host cannot tell apart stay so, and answer alike, whatever
the slots and entries that hold no value hold. -/
def Obligations.UnusedContentIsNeverSeen : Prop :=
  ∀ s t : State, Invariants s → Invariants t → SameView s t → ∀ s', step s = .next s' →
    ∃ t', step t = .next t' ∧ SameView s' t'

/-- R212: CLR makes any two states of one instance alike: nothing of an earlier invocation is left
to see. -/
def Obligations.NewInvocationForgets : Prop :=
  ∀ s t : State, s.nmax = t.nmax → s.host = t.host →
    ∃ s' t', exec .clr s = .next s' ∧ exec .clr t = .next t' ∧ SameView s' t'

/-- R104, R212, R219: from any two states of one instance, whatever was done before, an invocation
with the same words gives the same state to see after every step. -/
def Obligations.InvocationsAreReproducible : Prop :=
  ∀ (s t : State) (rest : List HostEvent), Invariants s → Invariants t → s.nmax = t.nmax →
    s.rsp = none → t.rsp = none →
    s.host = .send 0x0100000000000000#64 :: rest → t.host = s.host →
    ∀ k, ∃ s' t', Host.Core.run Sys2Proof.core (k + 1) s = .next s' ∧
      Host.Core.run Sys2Proof.core (k + 1) t = .next t' ∧ SameView s' t'
end

