-- ==== Sys2Proof/Laws/Queue.lean ====
section
/-! SUPPORT. The laws of the queue as a set: membership, length and canonical form after an
insertion and a removal. -/

namespace Sys2Proof.Machine

theorem pqWf_iff (pq : List Index) : pqWf pq = true ↔ pq.Pairwise (· < ·) := by
  induction pq with
  | nil => simp [pqWf]
  | cons i rest ih => simp [pqWf, ih]

theorem mem_pqInsert (k i : Index) (pq : List Index) : i ∈ pqInsert k pq ↔ i = k ∨ i ∈ pq := by
  induction pq with
  | nil => simp [pqInsert]
  | cons j rest ih =>
    simp only [pqInsert]
    split
    · simp
    · split
      · next h => subst h; simp
      · simp only [List.mem_cons, ih]
        tauto

theorem pqWf_pqInsert (k : Index) (pq : List Index) (h : pqWf pq = true) :
    pqWf (pqInsert k pq) = true := by
  rw [pqWf_iff] at *
  induction pq with
  | nil => simp [pqInsert]
  | cons j rest ih =>
    rw [List.pairwise_cons] at h
    simp only [pqInsert]
    split
    · next hk =>
      refine List.pairwise_cons.2 ⟨fun x hx => ?_, List.pairwise_cons.2 h⟩
      rcases List.mem_cons.1 hx with rfl | hx
      · exact hk
      · exact BitVec.lt_trans hk (h.1 x hx)
    · split
      · exact List.pairwise_cons.2 h
      · next h1 h2 =>
        refine List.pairwise_cons.2 ⟨fun x hx => ?_, ih h.2⟩
        rcases (mem_pqInsert k x rest).1 hx with rfl | hx
        · have : x.toNat ≠ j.toNat := fun e => h2 (BitVec.eq_of_toNat_eq e)
          have : ¬ x.toNat < j.toNat := h1
          show j.toNat < x.toNat
          omega
        · exact h.1 x hx

theorem length_pqInsert (k : Index) (pq : List Index) (h : k ∉ pq) :
    (pqInsert k pq).length = pq.length + 1 := by
  induction pq with
  | nil => simp [pqInsert]
  | cons j rest ih =>
    simp only [List.mem_cons, not_or] at h
    simp only [pqInsert]
    split
    · simp
    · split
      · exact absurd ‹k = j› h.1
      · simp [ih h.2]

theorem mem_pqRemove (k i : Index) (pq : List Index) : i ∈ pqRemove k pq ↔ i ∈ pq ∧ i ≠ k := by
  simp [pqRemove]

theorem pqWf_pqRemove (k : Index) (pq : List Index) (h : pqWf pq = true) :
    pqWf (pqRemove k pq) = true := by
  rw [pqWf_iff] at *
  exact h.filter _

theorem pqWf_nodup (pq : List Index) (h : pqWf pq = true) : pq.Nodup := by
  rw [pqWf_iff] at h
  exact h.imp (fun hab e => by subst e; exact BitVec.lt_irrefl _ hab)

theorem length_pqRemove (k : Index) (pq : List Index) (h : pqWf pq = true) (hk : k ∈ pq) :
    (pqRemove k pq).length + 1 = pq.length := by
  have hn := pqWf_nodup pq h
  have e : pqRemove k pq = pq.erase k := by
    rw [hn.erase_eq_filter]
    simp [pqRemove, bne, BEq.beq]
  rw [e, List.length_erase_of_mem hk]
  have := List.length_pos_of_mem hk
  omega

end Sys2Proof.Machine
end

