-- ==== Sys2Proof/Laws/Slots.lean ====
section
/-! SUPPORT. The laws of an entry memory: a read after a write to the same index gives the value
written, a write leaves every other index alone, and a write keeps the canonical form. -/

namespace Sys2Proof.Slots

variable {α : Type}

@[simp] theorem get?_set_same (m : Slots α) (i : Nat) (v : α) :
    Slots.get? (Slots.set m i v) i = some v := by
  induction m with
  | nil => simp [Slots.set, Slots.get?]
  | cons e rest ih =>
    obtain ⟨j, w⟩ := e
    simp only [Slots.set]
    split
    · simp [Slots.get?]
    · split
      · simp [Slots.get?]
      · rename_i h1 h2
        simp [Slots.get?, show j ≠ i from fun h => h2 h.symm, ih]

theorem get?_set_other (m : Slots α) (i j : Nat) (v : α) (h : j ≠ i) :
    Slots.get? (Slots.set m i v) j = Slots.get? m j := by
  induction m with
  | nil => simp [Slots.set, Slots.get?, Ne.symm h]
  | cons e rest ih =>
    obtain ⟨k, w⟩ := e
    simp only [Slots.set]
    split
    · simp [Slots.get?, Ne.symm h]
    · split
      · rename_i h2
        subst h2
        simp [Slots.get?, Ne.symm h]
      · simp [Slots.get?, ih]

theorem get?_set (m : Slots α) (i j : Nat) (v : α) :
    Slots.get? (Slots.set m i v) j = if j = i then some v else Slots.get? m j := by
  split
  · next h => subst h; simp
  · next h => exact get?_set_other m i j v h

/-- Every index of a memory after a write is the written one or an index of the memory before. -/
theorem mem_set (m : Slots α) (i : Nat) (v : α) (e : Nat × α) (he : e ∈ Slots.set m i v) :
    e = (i, v) ∨ e ∈ m := by
  induction m with
  | nil => simpa [Slots.set] using he
  | cons f rest ih =>
    obtain ⟨j, w⟩ := f
    simp only [Slots.set] at he
    split at he
    · simpa using he
    · split at he
      · rcases List.mem_cons.1 he with h | h
        · exact .inl h
        · exact .inr (List.mem_cons_of_mem _ h)
      · rcases List.mem_cons.1 he with h | h
        · exact .inr (h ▸ List.mem_cons_self)
        · exact (ih h).imp id (List.mem_cons_of_mem _)

/-- A write keeps the canonical form. -/
theorem wf_set (m : Slots α) (i : Nat) (v : α) (h : Slots.wf m = true) :
    Slots.wf (Slots.set m i v) = true := by
  induction m with
  | nil => simp [Slots.set, Slots.wf]
  | cons e rest ih =>
    obtain ⟨j, w⟩ := e
    simp only [Slots.wf, Bool.and_eq_true, List.all_eq_true, decide_eq_true_eq] at h
    obtain ⟨hj, hrest⟩ := h
    simp only [Slots.set]
    split
    · next hij =>
      simp only [Slots.wf, Bool.and_eq_true, List.all_eq_true, decide_eq_true_eq, List.mem_cons,
        forall_eq_or_imp]
      exact ⟨⟨hij, fun x hx => Nat.lt_trans hij (hj x hx)⟩, hj, hrest⟩
    · split
      · next hij =>
        subst hij
        simp only [Slots.wf, Bool.and_eq_true, List.all_eq_true, decide_eq_true_eq]
        exact ⟨hj, hrest⟩
      · next h1 h2 =>
        simp only [Slots.wf, Bool.and_eq_true, List.all_eq_true, decide_eq_true_eq]
        refine ⟨fun x hx => ?_, ih hrest⟩
        rcases mem_set rest i v x hx with rfl | hx
        · omega
        · exact hj x hx

@[simp] theorem wf_nil : Slots.wf ([] : Slots α) = true := rfl
@[simp] theorem get?_nil (i : Nat) : Slots.get? ([] : Slots α) i = none := rfl

end Sys2Proof.Slots

namespace Sys2Proof.Machine

theorem nodeAt_set (s : State) (i j : Nat) (n : Node) (t : State) (h : t.node = s.node.set i n) :
    t.nodeAt j = if j = i then n else s.nodeAt j := by
  unfold State.nodeAt
  rw [h, Slots.get?_set]
  by_cases hj : j = i <;> simp [hj]

theorem nodeAt_congr (s t : State) (h : t.node = s.node) (j : Nat) : t.nodeAt j = s.nodeAt j := by
  unfold State.nodeAt
  rw [h]

theorem ctAt_congr (s t : State) (h : t.ct = s.ct) (j : Nat) : t.ctAt j = s.ctAt j := by
  unfold State.ctAt
  rw [h]

end Sys2Proof.Machine
end

