-- ==== Sys2Proof/Laws/State.lean ====
section
/-! SUPPORT. One lemma for each field of State after each update of it, and for each field of
STATUS after each write of it, so that no proof unfolds a record update. -/

namespace Sys2Proof.Machine


/-! ### complete -/

@[simp] theorem complete_status (d : BitVec 32) (s : State) : (complete d s).status = s.status := rfl
@[simp] theorem complete_nleaf (d : BitVec 32) (s : State) : (complete d s).nleaf = s.nleaf := rfl
@[simp] theorem complete_nnode (d : BitVec 32) (s : State) : (complete d s).nnode = s.nnode := rfl
@[simp] theorem complete_qcnt (d : BitVec 32) (s : State) : (complete d s).qcnt = s.qcnt := rfl
@[simp] theorem complete_root (d : BitVec 32) (s : State) : (complete d s).root = s.root := rfl
@[simp] theorem complete_total (d : BitVec 32) (s : State) : (complete d s).total = s.total := rfl
@[simp] theorem complete_nmax (d : BitVec 32) (s : State) : (complete d s).nmax = s.nmax := rfl
@[simp] theorem complete_node (d : BitVec 32) (s : State) : (complete d s).node = s.node := rfl
@[simp] theorem complete_pq (d : BitVec 32) (s : State) : (complete d s).pq = s.pq := rfl
@[simp] theorem complete_ct (d : BitVec 32) (s : State) : (complete d s).ct = s.ct := rfl
@[simp] theorem complete_rsp (d : BitVec 32) (s : State) : (complete d s).rsp = some (responseWord 0#8 d) := rfl
@[simp] theorem complete_host (d : BitVec 32) (s : State) : (complete d s).host = s.host := rfl
@[simp] theorem complete_nodeAt (d : BitVec 32) (s : State) (i : Nat) : (complete d s).nodeAt i = s.nodeAt i := rfl
@[simp] theorem complete_ctAt (d : BitVec 32) (s : State) (i : Nat) : (complete d s).ctAt i = s.ctAt i := rfl

/-! ### raiseFault -/

@[simp] theorem raiseFault_status (e : Err) (s : State) : (raiseFault e s).status = s.status.latch e := rfl
@[simp] theorem raiseFault_nleaf (e : Err) (s : State) : (raiseFault e s).nleaf = s.nleaf := rfl
@[simp] theorem raiseFault_nnode (e : Err) (s : State) : (raiseFault e s).nnode = s.nnode := rfl
@[simp] theorem raiseFault_qcnt (e : Err) (s : State) : (raiseFault e s).qcnt = s.qcnt := rfl
@[simp] theorem raiseFault_root (e : Err) (s : State) : (raiseFault e s).root = s.root := rfl
@[simp] theorem raiseFault_total (e : Err) (s : State) : (raiseFault e s).total = s.total := rfl
@[simp] theorem raiseFault_nmax (e : Err) (s : State) : (raiseFault e s).nmax = s.nmax := rfl
@[simp] theorem raiseFault_node (e : Err) (s : State) : (raiseFault e s).node = s.node := rfl
@[simp] theorem raiseFault_pq (e : Err) (s : State) : (raiseFault e s).pq = s.pq := rfl
@[simp] theorem raiseFault_ct (e : Err) (s : State) : (raiseFault e s).ct = s.ct := rfl
@[simp] theorem raiseFault_rsp (e : Err) (s : State) : (raiseFault e s).rsp = some (responseWord e.code 0#32) := rfl
@[simp] theorem raiseFault_host (e : Err) (s : State) : (raiseFault e s).host = s.host := rfl
@[simp] theorem raiseFault_nodeAt (e : Err) (s : State) (i : Nat) : (raiseFault e s).nodeAt i = s.nodeAt i := rfl
@[simp] theorem raiseFault_ctAt (e : Err) (s : State) (i : Nat) : (raiseFault e s).ctAt i = s.ctAt i := rfl

/-! ### newInvocation -/

@[simp] theorem newInvocation_status (s : State) : (newInvocation s).status = Status.reset := rfl
@[simp] theorem newInvocation_nleaf (s : State) : (newInvocation s).nleaf = 0 := rfl
@[simp] theorem newInvocation_nnode (s : State) : (newInvocation s).nnode = 0 := rfl
@[simp] theorem newInvocation_qcnt (s : State) : (newInvocation s).qcnt = 0 := rfl
@[simp] theorem newInvocation_root (s : State) : (newInvocation s).root = 0 := rfl
@[simp] theorem newInvocation_total (s : State) : (newInvocation s).total = 0 := rfl
@[simp] theorem newInvocation_nmax (s : State) : (newInvocation s).nmax = s.nmax := rfl
@[simp] theorem newInvocation_node (s : State) : (newInvocation s).node = s.node := rfl
@[simp] theorem newInvocation_pq (s : State) : (newInvocation s).pq = [] := rfl
@[simp] theorem newInvocation_ct (s : State) : (newInvocation s).ct = s.ct := rfl
@[simp] theorem newInvocation_rsp (s : State) : (newInvocation s).rsp = s.rsp := rfl
@[simp] theorem newInvocation_host (s : State) : (newInvocation s).host = s.host := rfl
@[simp] theorem newInvocation_nodeAt (s : State) (i : Nat) : (newInvocation s).nodeAt i = s.nodeAt i := rfl
@[simp] theorem newInvocation_ctAt (s : State) (i : Nat) : (newInvocation s).ctAt i = s.ctAt i := rfl

/-! ### loadLeaf -/

@[simp] theorem loadLeaf_status (s : State) (sym : Symbol) (cnt : Weight) : (s.loadLeaf sym cnt).status = s.status := rfl
@[simp] theorem loadLeaf_nleaf (s : State) (sym : Symbol) (cnt : Weight) : (s.loadLeaf sym cnt).nleaf = s.nleaf + 1 := rfl
@[simp] theorem loadLeaf_nnode (s : State) (sym : Symbol) (cnt : Weight) : (s.loadLeaf sym cnt).nnode = s.nleaf + 1 := rfl
@[simp] theorem loadLeaf_qcnt (s : State) (sym : Symbol) (cnt : Weight) : (s.loadLeaf sym cnt).qcnt = s.qcnt + 1 := rfl
@[simp] theorem loadLeaf_root (s : State) (sym : Symbol) (cnt : Weight) : (s.loadLeaf sym cnt).root = s.root := rfl
@[simp] theorem loadLeaf_total (s : State) (sym : Symbol) (cnt : Weight) : (s.loadLeaf sym cnt).total = s.total + cnt := rfl
@[simp] theorem loadLeaf_nmax (s : State) (sym : Symbol) (cnt : Weight) : (s.loadLeaf sym cnt).nmax = s.nmax := rfl
@[simp] theorem loadLeaf_node (s : State) (sym : Symbol) (cnt : Weight) : (s.loadLeaf sym cnt).node = s.node.set s.nleaf.toNat (leafNode sym cnt) := rfl
@[simp] theorem loadLeaf_pq (s : State) (sym : Symbol) (cnt : Weight) : (s.loadLeaf sym cnt).pq = pqInsert s.nleaf s.pq := rfl
@[simp] theorem loadLeaf_ct (s : State) (sym : Symbol) (cnt : Weight) : (s.loadLeaf sym cnt).ct = s.ct := rfl
@[simp] theorem loadLeaf_rsp (s : State) (sym : Symbol) (cnt : Weight) : (s.loadLeaf sym cnt).rsp = s.rsp := rfl
@[simp] theorem loadLeaf_host (s : State) (sym : Symbol) (cnt : Weight) : (s.loadLeaf sym cnt).host = s.host := rfl
@[simp] theorem loadLeaf_ctAt (s : State) (sym : Symbol) (cnt : Weight) (i : Nat) : (s.loadLeaf sym cnt).ctAt i = s.ctAt i := rfl

/-! ### dequeue -/

@[simp] theorem dequeue_status (s : State) (k : Index) : (s.dequeue k).status = s.status := rfl
@[simp] theorem dequeue_nleaf (s : State) (k : Index) : (s.dequeue k).nleaf = s.nleaf := rfl
@[simp] theorem dequeue_nnode (s : State) (k : Index) : (s.dequeue k).nnode = s.nnode := rfl
@[simp] theorem dequeue_qcnt (s : State) (k : Index) : (s.dequeue k).qcnt = s.qcnt - 1 := rfl
@[simp] theorem dequeue_root (s : State) (k : Index) : (s.dequeue k).root = s.root := rfl
@[simp] theorem dequeue_total (s : State) (k : Index) : (s.dequeue k).total = s.total := rfl
@[simp] theorem dequeue_nmax (s : State) (k : Index) : (s.dequeue k).nmax = s.nmax := rfl
@[simp] theorem dequeue_node (s : State) (k : Index) : (s.dequeue k).node = s.node := rfl
@[simp] theorem dequeue_pq (s : State) (k : Index) : (s.dequeue k).pq = pqRemove k s.pq := rfl
@[simp] theorem dequeue_ct (s : State) (k : Index) : (s.dequeue k).ct = s.ct := rfl
@[simp] theorem dequeue_rsp (s : State) (k : Index) : (s.dequeue k).rsp = s.rsp := rfl
@[simp] theorem dequeue_host (s : State) (k : Index) : (s.dequeue k).host = s.host := rfl
@[simp] theorem dequeue_nodeAt (s : State) (k : Index) (i : Nat) : (s.dequeue k).nodeAt i = s.nodeAt i := rfl
@[simp] theorem dequeue_ctAt (s : State) (k : Index) (i : Nat) : (s.dequeue k).ctAt i = s.ctAt i := rfl

/-! ### pushMerged -/

@[simp] theorem pushMerged_status (s : State) (a b : Index) : (s.pushMerged a b).status = s.status := rfl
@[simp] theorem pushMerged_nleaf (s : State) (a b : Index) : (s.pushMerged a b).nleaf = s.nleaf := rfl
@[simp] theorem pushMerged_nnode (s : State) (a b : Index) : (s.pushMerged a b).nnode = s.nnode + 1 := rfl
@[simp] theorem pushMerged_qcnt (s : State) (a b : Index) : (s.pushMerged a b).qcnt = s.qcnt + 1 := rfl
@[simp] theorem pushMerged_root (s : State) (a b : Index) : (s.pushMerged a b).root = s.root := rfl
@[simp] theorem pushMerged_total (s : State) (a b : Index) : (s.pushMerged a b).total = s.total := rfl
@[simp] theorem pushMerged_nmax (s : State) (a b : Index) : (s.pushMerged a b).nmax = s.nmax := rfl
@[simp] theorem pushMerged_node (s : State) (a b : Index) : (s.pushMerged a b).node = s.node.set s.nnode.toNat (mergedNode s a b) := rfl
@[simp] theorem pushMerged_pq (s : State) (a b : Index) : (s.pushMerged a b).pq = pqInsert s.nnode s.pq := rfl
@[simp] theorem pushMerged_ct (s : State) (a b : Index) : (s.pushMerged a b).ct = s.ct := rfl
@[simp] theorem pushMerged_rsp (s : State) (a b : Index) : (s.pushMerged a b).rsp = s.rsp := rfl
@[simp] theorem pushMerged_host (s : State) (a b : Index) : (s.pushMerged a b).host = s.host := rfl
@[simp] theorem pushMerged_ctAt (s : State) (a b : Index) (i : Nat) : (s.pushMerged a b).ctAt i = s.ctAt i := rfl

/-! ### setRoot -/

@[simp] theorem setRoot_status (s : State) (r : Index) : (s.setRoot r).status = s.status.builtTree (decide (s.nleaf = 1)) := rfl
@[simp] theorem setRoot_nleaf (s : State) (r : Index) : (s.setRoot r).nleaf = s.nleaf := rfl
@[simp] theorem setRoot_nnode (s : State) (r : Index) : (s.setRoot r).nnode = s.nnode := rfl
@[simp] theorem setRoot_qcnt (s : State) (r : Index) : (s.setRoot r).qcnt = s.qcnt := rfl
@[simp] theorem setRoot_root (s : State) (r : Index) : (s.setRoot r).root = r := rfl
@[simp] theorem setRoot_total (s : State) (r : Index) : (s.setRoot r).total = s.total := rfl
@[simp] theorem setRoot_nmax (s : State) (r : Index) : (s.setRoot r).nmax = s.nmax := rfl
@[simp] theorem setRoot_node (s : State) (r : Index) : (s.setRoot r).node = s.node := rfl
@[simp] theorem setRoot_pq (s : State) (r : Index) : (s.setRoot r).pq = s.pq := rfl
@[simp] theorem setRoot_ct (s : State) (r : Index) : (s.setRoot r).ct = s.ct := rfl
@[simp] theorem setRoot_rsp (s : State) (r : Index) : (s.setRoot r).rsp = s.rsp := rfl
@[simp] theorem setRoot_host (s : State) (r : Index) : (s.setRoot r).host = s.host := rfl
@[simp] theorem setRoot_nodeAt (s : State) (r : Index) (i : Nat) : (s.setRoot r).nodeAt i = s.nodeAt i := rfl
@[simp] theorem setRoot_ctAt (s : State) (r : Index) (i : Nat) : (s.setRoot r).ctAt i = s.ctAt i := rfl

/-! ### setEmpty -/

@[simp] theorem setEmpty_status (s : State) : (s.setEmpty).status = s.status.builtEmpty := rfl
@[simp] theorem setEmpty_nleaf (s : State) : (s.setEmpty).nleaf = s.nleaf := rfl
@[simp] theorem setEmpty_nnode (s : State) : (s.setEmpty).nnode = s.nnode := rfl
@[simp] theorem setEmpty_qcnt (s : State) : (s.setEmpty).qcnt = s.qcnt := rfl
@[simp] theorem setEmpty_root (s : State) : (s.setEmpty).root = s.root := rfl
@[simp] theorem setEmpty_total (s : State) : (s.setEmpty).total = s.total := rfl
@[simp] theorem setEmpty_nmax (s : State) : (s.setEmpty).nmax = s.nmax := rfl
@[simp] theorem setEmpty_node (s : State) : (s.setEmpty).node = s.node := rfl
@[simp] theorem setEmpty_pq (s : State) : (s.setEmpty).pq = s.pq := rfl
@[simp] theorem setEmpty_ct (s : State) : (s.setEmpty).ct = s.ct := rfl
@[simp] theorem setEmpty_rsp (s : State) : (s.setEmpty).rsp = s.rsp := rfl
@[simp] theorem setEmpty_host (s : State) : (s.setEmpty).host = s.host := rfl
@[simp] theorem setEmpty_nodeAt (s : State) (i : Nat) : (s.setEmpty).nodeAt i = s.nodeAt i := rfl
@[simp] theorem setEmpty_ctAt (s : State) (i : Nat) : (s.setEmpty).ctAt i = s.ctAt i := rfl

/-! ### storeTable -/

@[simp] theorem storeTable_status (s : State) (t : Slots CtEntry) : (s.storeTable t).status = s.status.toDerived := rfl
@[simp] theorem storeTable_nleaf (s : State) (t : Slots CtEntry) : (s.storeTable t).nleaf = s.nleaf := rfl
@[simp] theorem storeTable_nnode (s : State) (t : Slots CtEntry) : (s.storeTable t).nnode = s.nnode := rfl
@[simp] theorem storeTable_qcnt (s : State) (t : Slots CtEntry) : (s.storeTable t).qcnt = s.qcnt := rfl
@[simp] theorem storeTable_root (s : State) (t : Slots CtEntry) : (s.storeTable t).root = s.root := rfl
@[simp] theorem storeTable_total (s : State) (t : Slots CtEntry) : (s.storeTable t).total = s.total := rfl
@[simp] theorem storeTable_nmax (s : State) (t : Slots CtEntry) : (s.storeTable t).nmax = s.nmax := rfl
@[simp] theorem storeTable_node (s : State) (t : Slots CtEntry) : (s.storeTable t).node = s.node := rfl
@[simp] theorem storeTable_pq (s : State) (t : Slots CtEntry) : (s.storeTable t).pq = s.pq := rfl
@[simp] theorem storeTable_ct (s : State) (t : Slots CtEntry) : (s.storeTable t).ct = t := rfl
@[simp] theorem storeTable_rsp (s : State) (t : Slots CtEntry) : (s.storeTable t).rsp = s.rsp := rfl
@[simp] theorem storeTable_host (s : State) (t : Slots CtEntry) : (s.storeTable t).host = s.host := rfl
@[simp] theorem storeTable_nodeAt (s : State) (t : Slots CtEntry) (i : Nat) : (s.storeTable t).nodeAt i = s.nodeAt i := rfl

/-! ### applyReset -/

@[simp] theorem applyReset_status (s : State) : (applyReset s).status = Status.reset := rfl
@[simp] theorem applyReset_nleaf (s : State) : (applyReset s).nleaf = 0 := rfl
@[simp] theorem applyReset_nnode (s : State) : (applyReset s).nnode = 0 := rfl
@[simp] theorem applyReset_qcnt (s : State) : (applyReset s).qcnt = 0 := rfl
@[simp] theorem applyReset_root (s : State) : (applyReset s).root = 0 := rfl
@[simp] theorem applyReset_total (s : State) : (applyReset s).total = 0 := rfl
@[simp] theorem applyReset_nmax (s : State) : (applyReset s).nmax = s.nmax := rfl
@[simp] theorem applyReset_node (s : State) : (applyReset s).node = [] := rfl
@[simp] theorem applyReset_pq (s : State) : (applyReset s).pq = [] := rfl
@[simp] theorem applyReset_ct (s : State) : (applyReset s).ct = [] := rfl
@[simp] theorem applyReset_rsp (s : State) : (applyReset s).rsp = none := rfl
@[simp] theorem applyReset_host (s : State) : (applyReset s).host = s.host := rfl

/-! ### withFetchWord -/

@[simp] theorem withFetchWord_host (s : State) (n w : Nat) :
    (s.withFetchWord n w).host = .send (BitVec.ofNat 64 (w % 2 ^ n)) :: s.host := rfl
@[simp] theorem withFetchWord_rsp (s : State) (n w : Nat) : (s.withFetchWord n w).rsp = none := rfl

/-! ### STATUS -/

@[simp] theorem latch_phase (st : Status) (e : Err) : (st.latch e).phase = st.phase := by
  unfold Status.latch; split <;> rfl
@[simp] theorem latch_rootv (st : Status) (e : Err) : (st.latch e).rootv = st.rootv := by
  unfold Status.latch; split <;> rfl
@[simp] theorem latch_empty (st : Status) (e : Err) : (st.latch e).empty = st.empty := by
  unfold Status.latch; split <;> rfl
@[simp] theorem latch_single (st : Status) (e : Err) : (st.latch e).single = st.single := by
  unfold Status.latch; split <;> rfl
@[simp] theorem latch_err (st : Status) (e : Err) : (st.latch e).err = some (st.err.getD e) := by
  unfold Status.latch; split <;> simp_all
theorem latch_of_locked (st : Status) (e : Err) (h : st.err ≠ none) : st.latch e = st := by
  unfold Status.latch; split <;> simp_all

@[simp] theorem builtEmpty_phase (st : Status) : (st.builtEmpty).phase = .built := rfl
@[simp] theorem builtEmpty_rootv (st : Status) : (st.builtEmpty).rootv = st.rootv := rfl
@[simp] theorem builtEmpty_empty (st : Status) : (st.builtEmpty).empty = true := rfl
@[simp] theorem builtEmpty_single (st : Status) : (st.builtEmpty).single = st.single := rfl
@[simp] theorem builtEmpty_err (st : Status) : (st.builtEmpty).err = st.err := rfl
@[simp] theorem builtTree_phase (st : Status) (one : Bool) : (st.builtTree one).phase = .built := rfl
@[simp] theorem builtTree_rootv (st : Status) (one : Bool) : (st.builtTree one).rootv = true := rfl
@[simp] theorem builtTree_empty (st : Status) (one : Bool) : (st.builtTree one).empty = st.empty := rfl
@[simp] theorem builtTree_single (st : Status) (one : Bool) : (st.builtTree one).single = one := rfl
@[simp] theorem builtTree_err (st : Status) (one : Bool) : (st.builtTree one).err = st.err := rfl
@[simp] theorem toDerived_phase (st : Status) : (st.toDerived).phase = .derived := rfl
@[simp] theorem toDerived_rootv (st : Status) : (st.toDerived).rootv = st.rootv := rfl
@[simp] theorem toDerived_empty (st : Status) : (st.toDerived).empty = st.empty := rfl
@[simp] theorem toDerived_single (st : Status) : (st.toDerived).single = st.single := rfl
@[simp] theorem toDerived_err (st : Status) : (st.toDerived).err = st.err := rfl
@[simp] theorem statusReset_phase  : (Status.reset).phase = .load := rfl
@[simp] theorem statusReset_rootv  : (Status.reset).rootv = false := rfl
@[simp] theorem statusReset_empty  : (Status.reset).empty = false := rfl
@[simp] theorem statusReset_single  : (Status.reset).single = false := rfl
@[simp] theorem statusReset_err  : (Status.reset).err = none := rfl

end Sys2Proof.Machine
end

