-- ==== Sys2Proof/Laws/Build.lean ====
section
/-! SUPPORT. What the operations of BLD can do (spec/41_build.md): the key order, the lowest
member, one extraction, one merge, and the forest that the merge loop keeps. -/

namespace Sys2Proof.Machine

/-! ### The key order (R120) -/

theorem keyLower_iff (s : State) (i j : Index) : s.keyLower i j = true ↔
    (s.nodeAt i.toNat).wt.toNat < (s.nodeAt j.toNat).wt.toNat ∨
      ((s.nodeAt i.toNat).wt.toNat = (s.nodeAt j.toNat).wt.toNat ∧ i.toNat < j.toNat) := by
  simp only [State.keyLower, Bool.or_eq_true, Bool.and_eq_true, decide_eq_true_eq, BitVec.lt_def,
    ← BitVec.toNat_inj]

theorem keyLower_trans (s : State) {i j k : Index} (h1 : s.keyLower i j = true)
    (h2 : s.keyLower j k = true) : s.keyLower i k = true := by
  rw [keyLower_iff] at *
  omega

/-- Of two different nodes exactly one has the lower key (R120). -/
theorem keyLower_total (s : State) {i j : Index} (h : i ≠ j) (h1 : ¬ s.keyLower i j = true) :
    s.keyLower j i = true := by
  rw [keyLower_iff] at *
  have : i.toNat ≠ j.toNat := fun e => h (BitVec.eq_of_toNat_eq e)
  omega

theorem keyLower_asymm (s : State) {i j : Index} (h : s.keyLower i j = true) :
    ¬ s.keyLower j i = true := by
  rw [keyLower_iff] at *
  omega

theorem keyLower_congr (s t : State) (i j : Index) (hi : t.nodeAt i.toNat = s.nodeAt i.toNat)
    (hj : t.nodeAt j.toNat = s.nodeAt j.toNat) : t.keyLower i j = s.keyLower i j := by
  unfold State.keyLower
  rw [hi, hj]

/-! ### The lowest member (R121) -/

/-- The lowest member depends on the weights of the members alone (R121). -/
theorem lowest_congr (s t : State) (pq : List Index)
    (h : ∀ i ∈ pq, t.nodeAt i.toNat = s.nodeAt i.toNat) : t.lowest pq = s.lowest pq := by
  induction pq with
  | nil => rfl
  | cons i rest ih =>
    have ihr := ih fun x hx => h x (List.mem_cons_of_mem _ hx)
    unfold State.lowest
    rw [ihr]
    cases hr : s.lowest rest with
    | none => rfl
    | some j =>
      have hj : j ∈ rest := by
        clear ih ihr h
        induction rest generalizing j with
        | nil => simp [State.lowest] at hr
        | cons k rest' ih =>
          unfold State.lowest at hr
          split at hr
          · simp_all
          · next j' hj' =>
            split at hr
            · simp_all
            · simp_all
      simp only [keyLower_congr s t i j (h i List.mem_cons_self) (h j (List.mem_cons_of_mem _ hj))]

theorem lowest_of_node (s t : State) (pq : List Index) (h : t.node = s.node) :
    t.lowest pq = s.lowest pq := lowest_congr s t pq fun i _ => nodeAt_congr s t h i.toNat

theorem lowest_eq_none (s : State) (pq : List Index) : s.lowest pq = none ↔ pq = [] := by
  cases pq with
  | nil => simp [State.lowest]
  | cons i rest =>
    simp only [State.lowest, reduceCtorEq, iff_false]
    split
    · simp
    · split <;> simp

/-- The lowest member is a member, and every other member has a higher key. -/
theorem lowest_spec (s : State) (pq : List Index) (i : Index) (h : s.lowest pq = some i) :
    i ∈ pq ∧ ∀ j ∈ pq, j ≠ i → s.keyLower i j = true := by
  induction pq generalizing i with
  | nil => simp [State.lowest] at h
  | cons k rest ih =>
    unfold State.lowest at h
    split at h
    · next hn =>
      rw [lowest_eq_none] at hn
      subst hn
      simp_all
    · next j hj =>
      obtain ⟨hmem, hlow⟩ := ih j hj
      split at h
      · next hkj =>
        cases h
        refine ⟨List.mem_cons_self, fun x hx hne => ?_⟩
        rcases List.mem_cons.1 hx with rfl | hx
        · exact absurd rfl hne
        · by_cases hxj : x = j
          · exact hxj ▸ hkj
          · exact keyLower_trans s hkj (hlow x hx hxj)
      · next hkj =>
        cases h
        refine ⟨List.mem_cons_of_mem _ hmem, fun x hx hne => ?_⟩
        rcases List.mem_cons.1 hx with rfl | hx
        · exact keyLower_total s (Ne.symm hne |>.symm) hkj
        · exact hlow x hx hne

theorem lowest_isSome (s : State) (pq : List Index) (h : pq ≠ []) : ∃ i, s.lowest pq = some i := by
  cases hl : s.lowest pq with
  | none => exact absurd ((lowest_eq_none s pq).1 hl) h
  | some i => exact ⟨i, rfl⟩

/-! ### One extraction and one merge -/

/-- What an extraction that succeeds does (R121). -/
theorem extractMin_ok (s : State) (i : Index) (t : State) :
    s.extractMin = .ok (i, t) ↔
      s.lowest s.pq = some i ∧ t = s.dequeue i := by
  unfold State.extractMin
  split
  · next h => simp [h]
  · next j h =>
    rw [h]
    simp only [Except.ok.injEq, Prod.mk.injEq, Option.some.injEq]
    constructor
    · rintro ⟨rfl, rfl⟩; exact ⟨rfl, rfl⟩
    · rintro ⟨rfl, rfl⟩; exact ⟨rfl, rfl⟩

/-- The state a merge of `a` and `b` leaves. -/
def State.merged (s : State) (a b : Index) : State :=
  ((s.dequeue a).dequeue b).pushMerged a b

/-- What a merge that succeeds does (R122): everything it can do. -/
theorem mergeStep_ok (s t : State) :
    s.mergeStep = .ok t ↔
      ∃ a b, s.lowest s.pq = some a ∧ s.lowest (pqRemove a s.pq) = some b ∧
        s.nnode.toNat < nnodeMax s.nmax ∧ t = s.merged a b := by
  unfold State.mergeStep
  constructor
  · intro h
    split at h
    · cases h
    · next a s1 h1 =>
      rw [extractMin_ok] at h1
      obtain ⟨ha, rfl⟩ := h1
      split at h
      · cases h
      · next b s2 h2 =>
        rw [extractMin_ok] at h2
        obtain ⟨hb, rfl⟩ := h2
        rw [lowest_of_node s (s.dequeue a) _ rfl] at hb
        split at h
        · next hn =>
          cases h
          exact ⟨a, b, ha, hb, hn, rfl⟩
        · cases h
  · rintro ⟨a, b, ha, hb, hn, rfl⟩
    have h1 : s.extractMin = .ok (a, s.dequeue a) :=
      (extractMin_ok s a _).2 ⟨ha, rfl⟩
    rw [h1]
    have h2 : (s.dequeue a).extractMin = .ok (b, (s.dequeue a).dequeue b) :=
      (extractMin_ok _ b _).2 ⟨(lowest_of_node s (s.dequeue a) _ rfl).trans hb, rfl⟩
    simp only [h2]
    exact if_pos hn

end Sys2Proof.Machine
end

