-- ==== Sys2Proof/Laws/Forest.lean ====
section
/-! SUPPORT. The forest that BLD keeps while it merges (spec/41_build.md R122, R126;
spec/10_state.md R32, R36 to R39): every node in use is a member of the queue or a child of exactly
one node, and the weights of the members add up to TOTAL. -/

namespace Sys2Proof.Machine

/-! ### Sums over the queue -/

theorem sum_pqRemove (f : Index → Nat) (k : Index) (pq : List Index) (h : pqWf pq = true)
    (hk : k ∈ pq) : (pq.map f).sum = f k + ((pqRemove k pq).map f).sum := by
  have hn := pqWf_nodup pq h
  have e : pqRemove k pq = pq.erase k := by
    rw [hn.erase_eq_filter]
    simp [pqRemove, bne, BEq.beq]
  rw [e, ← ((List.perm_cons_erase hk).map f).sum_eq.symm]
  simp

theorem sum_pqInsert (f : Index → Nat) (k : Index) (pq : List Index) (h : k ∉ pq) :
    ((pqInsert k pq).map f).sum = f k + (pq.map f).sum := by
  induction pq with
  | nil => simp [pqInsert]
  | cons j rest ih =>
    simp only [List.mem_cons, not_or] at h
    simp only [pqInsert]
    split
    · simp
    · split
      · exact absurd ‹k = j› h.1
      · simp only [List.map_cons, List.sum_cons, ih h.2]
        omega

theorem sum_map_congr (f g : Index → Nat) (pq : List Index) (h : ∀ i ∈ pq, f i = g i) :
    (pq.map f).sum = (pq.map g).sum := by
  rw [List.map_congr_left h]

/-! ### The forest -/

/-- The weight of node `i` as a number. -/
abbrev State.wtN (s : State) (i : Nat) : Nat := (s.nodeAt i).wt.toNat

/-- What holds at every turn of the merge loop. -/
structure Forest (s : State) : Prop where
  nmax_ge : 1 ≤ s.nmax.toNat
  nmax_le : s.nmax.toNat ≤ 32768
  node_wf : s.node.wf = true
  pq_wf : pqWf s.pq = true
  qcnt_eq : s.qcnt.toNat = s.pq.length
  nleaf_pos : 1 ≤ s.nleaf.toNat
  nleaf_le : s.nleaf.toNat ≤ s.nmax.toNat
  nleaf_le_nnode : s.nleaf.toNat ≤ s.nnode.toNat
  count : s.nnode.toNat + s.qcnt.toNat = 2 * s.nleaf.toNat
  members : ∀ i ∈ s.pq, i.toNat < s.nnode.toNat
  covered : ∀ j, j < s.nnode.toNat → (∃ i ∈ s.pq, i.toNat = j) ∨
    ∃ k, s.nleaf.toNat ≤ k ∧ k < s.nnode.toNat ∧ s.isChild k j
  no_parent : ∀ i ∈ s.pq, ∀ k, s.nleaf.toNat ≤ k → k < s.nnode.toNat → ¬ s.isChild k i.toNat
  written : ∀ i, i < s.nnode.toNat → (s.node.get? i).isSome
  leaf : ∀ i, i < s.nleaf.toNat →
    (s.nodeAt i).kind = .leaf ∧ (s.nodeAt i).left = 0 ∧ (s.nodeAt i).right = 0
  distinct : ∀ i j, i < j → j < s.nleaf.toNat → (s.nodeAt i).sym ≠ (s.nodeAt j).sym
  internal : ∀ k, s.nleaf.toNat ≤ k → k < s.nnode.toNat → InternalNode s k
  one_parent : ∀ j k k', s.nleaf.toNat ≤ k → k < s.nnode.toNat → s.nleaf.toNat ≤ k' →
    k' < s.nnode.toNat → s.isChild k j → s.isChild k' j → k = k'
  total_eq : s.total.toNat = s.cost (fun _ => 1)
  queue_weight : (s.pq.map (fun i => s.wtN i.toNat)).sum = s.total.toNat
  left_lower : ∀ k, s.nleaf.toNat ≤ k → k < s.nnode.toNat →
    s.keyLower (s.nodeAt k).left (s.nodeAt k).right = true

/-- The bits of a queue entry and its number name each other. -/
theorem toNat_ne {i j : Index} (h : i ≠ j) : i.toNat ≠ j.toNat :=
  fun e => h (BitVec.eq_of_toNat_eq e)

theorem cost_congr (s t : State) (len : Nat → Nat) (hn : t.nleaf = s.nleaf)
    (h : ∀ i, i < s.nleaf.toNat → t.nodeAt i = s.nodeAt i) : t.cost len = s.cost len := by
  unfold State.cost
  rw [hn]
  exact Finset.sum_congr rfl fun i hi => by rw [h i (Finset.mem_range.1 hi)]

theorem isChild_congr (s t : State) (k j : Nat) (h : t.nodeAt k = s.nodeAt k) :
    t.isChild k j ↔ s.isChild k j := by
  unfold State.isChild
  rw [h]

theorem internalNode_congr (s t : State) (k : Nat) (h : ∀ i, i ≤ k → t.nodeAt i = s.nodeAt i)
    (hs : InternalNode s k) : InternalNode t k := by
  have hk := h k (Nat.le_refl k)
  constructor
  · rw [hk]; exact hs.kind
  · rw [hk]; exact hs.sym
  · rw [hk]; exact hs.left_lt
  · rw [hk]; exact hs.right_lt
  · rw [hk]; exact hs.left_ne_right
  · rw [hk, h _ (Nat.le_of_lt hs.left_lt), h _ (Nat.le_of_lt hs.right_lt)]; exact hs.weight

/-- The queue of a forest with two members or more has a lowest member and a next lowest. -/
theorem Forest.two_lowest {s : State} (hf : Forest s) (h : 2 ≤ s.qcnt.toNat) :
    ∃ a b, s.lowest s.pq = some a ∧ s.lowest (pqRemove a s.pq) = some b := by
  have hlen := hf.qcnt_eq
  obtain ⟨a, ha⟩ := lowest_isSome s s.pq (by intro e; rw [e] at hlen; simp at hlen; omega)
  have hmem := (lowest_spec s s.pq a ha).1
  have hl := length_pqRemove a s.pq hf.pq_wf hmem
  obtain ⟨b, hb⟩ := lowest_isSome s (pqRemove a s.pq) (by
    intro e; rw [e] at hl; simp at hl; omega)
  exact ⟨a, b, ha, hb⟩

/-- A free slot is left at every merge (R126). -/
theorem Forest.free_slot {s : State} (hf : Forest s) (h : 2 ≤ s.qcnt.toNat) :
    s.nnode.toNat < nnodeMax s.nmax := by
  have := hf.count
  have := hf.nleaf_le
  unfold nnodeMax
  omega

/-- A merge never fails on a forest with two members or more (R126). -/
theorem Forest.mergeStep_ok {s : State} (hf : Forest s) (h : 2 ≤ s.qcnt.toNat) :
    ∃ a b, s.lowest s.pq = some a ∧ s.lowest (pqRemove a s.pq) = some b ∧
      s.mergeStep = .ok (s.merged a b) := by
  obtain ⟨a, b, ha, hb⟩ := hf.two_lowest h
  exact ⟨a, b, ha, hb, (Machine.mergeStep_ok s _).2 ⟨a, b, ha, hb, hf.free_slot h, rfl⟩⟩

/-! ### One merge -/

section
variable (s : State) (a b : Index)

@[simp] theorem merged_status : (s.merged a b).status = s.status := rfl
@[simp] theorem merged_nleaf : (s.merged a b).nleaf = s.nleaf := rfl
@[simp] theorem merged_nnode : (s.merged a b).nnode = s.nnode + 1 := rfl
@[simp] theorem merged_qcnt : (s.merged a b).qcnt = s.qcnt - 1 - 1 + 1 := rfl
@[simp] theorem merged_root : (s.merged a b).root = s.root := rfl
@[simp] theorem merged_total : (s.merged a b).total = s.total := rfl
@[simp] theorem merged_nmax : (s.merged a b).nmax = s.nmax := rfl
@[simp] theorem merged_node : (s.merged a b).node = s.node.set s.nnode.toNat (mergedNode s a b) := rfl
@[simp] theorem merged_pq :
    (s.merged a b).pq = pqInsert s.nnode (pqRemove b (pqRemove a s.pq)) := rfl
@[simp] theorem merged_ct : (s.merged a b).ct = s.ct := rfl
@[simp] theorem merged_rsp : (s.merged a b).rsp = s.rsp := rfl
@[simp] theorem merged_host : (s.merged a b).host = s.host := rfl

theorem merged_nodeAt (j : Nat) :
    (s.merged a b).nodeAt j = if j = s.nnode.toNat then mergedNode s a b else s.nodeAt j :=
  nodeAt_set s s.nnode.toNat j _ _ rfl

end

theorem toNat_succ {x : Index} (h : x.toNat + 1 < 65536) : (x + 1).toNat = x.toNat + 1 := by
  rw [BitVec.toNat_add]
  simp
  omega

theorem toNat_pred {x : Index} (h : 1 ≤ x.toNat) : (x - 1).toNat = x.toNat - 1 := by
  have := x.isLt
  rw [BitVec.toNat_sub]
  simp
  omega

theorem toNat_pred_pred_succ {x : Index} (h : 2 ≤ x.toNat) :
    (x - 1 - 1 + 1).toNat = x.toNat - 1 := by
  have h1 : (x - 1).toNat = x.toNat - 1 := toNat_pred (by omega)
  have h2 : (x - 1 - 1).toNat = x.toNat - 1 - 1 := by rw [toNat_pred (by omega), h1]
  have := x.isLt
  rw [toNat_succ (by omega), h2]
  omega

/-- One merge keeps the forest (R122): everything a turn of the loop does. -/
theorem Forest.merged {s : State} (hf : Forest s) (h : 2 ≤ s.qcnt.toNat) {a b : Index}
    (ha : s.lowest s.pq = some a) (hb : s.lowest (pqRemove a s.pq) = some b) :
    Forest (s.merged a b) := by
  obtain ⟨ham, halow⟩ := lowest_spec s _ a ha
  obtain ⟨hbm, hblow⟩ := lowest_spec s _ b hb
  rw [mem_pqRemove] at hbm
  obtain ⟨hbm, hba⟩ := hbm
  have hcount := hf.count
  have hle := hf.nleaf_le
  have hmax := hf.nmax_le
  have hmx := hf.nleaf_le_nnode
  have ham' := hf.members a ham
  have hbm' := hf.members b hbm
  have hm : (s.nnode + 1).toNat = s.nnode.toNat + 1 := toNat_succ (by omega)
  have hq : (s.qcnt - 1 - 1 + 1).toNat = s.qcnt.toNat - 1 := toNat_pred_pred_succ h
  have hwf1 := pqWf_pqRemove a s.pq hf.pq_wf
  have hwf2 := pqWf_pqRemove b _ hwf1
  have hold : ∀ j, j < s.nnode.toNat → (s.merged a b).nodeAt j = s.nodeAt j := fun j hj => by
    rw [merged_nodeAt, if_neg (by omega)]
  have hnew : (s.merged a b).nodeAt s.nnode.toNat = mergedNode s a b := by
    rw [merged_nodeAt, if_pos rfl]
  have hnotin : s.nnode ∉ pqRemove b (pqRemove a s.pq) := fun hin => by
    rw [mem_pqRemove, mem_pqRemove] at hin
    exact Nat.lt_irrefl _ (hf.members _ hin.1.1)
  have hab : a.toNat ≠ b.toNat := toNat_ne (Ne.symm hba)
  have hbin : b ∈ pqRemove a s.pq := (mem_pqRemove _ _ _).2 ⟨hbm, hba⟩
  have hs1 := sum_pqRemove (fun i => s.wtN i.toNat) a s.pq hf.pq_wf ham
  have hs2 := sum_pqRemove (fun i => s.wtN i.toNat) b _ hwf1 hbin
  have htot := hf.queue_weight
  have htl := s.total.isLt
  have hsum : ((s.nodeAt a.toNat).wt + (s.nodeAt b.toNat).wt).toNat =
      s.wtN a.toNat + s.wtN b.toNat := by
    rw [BitVec.toNat_add, Nat.mod_eq_of_lt]
    simp only [State.wtN] at hs1 hs2 htot ⊢
    omega
  have hchildOld : ∀ k j, k < s.nnode.toNat → ((s.merged a b).isChild k j ↔ s.isChild k j) :=
    fun k j hk => isChild_congr s _ k j (hold k hk)
  have hchildNew : ∀ j, (s.merged a b).isChild s.nnode.toNat j ↔ a.toNat = j ∨ b.toNat = j :=
    fun j => by unfold State.isChild; rw [hnew]; rfl
  have hlow : s.keyLower a b = true := halow b hbm hba
  constructor
  · exact hf.nmax_ge
  · exact hf.nmax_le
  · exact Slots.wf_set _ _ _ hf.node_wf
  · exact pqWf_pqInsert _ _ hwf2
  · rw [merged_qcnt, hq, merged_pq, length_pqInsert _ _ hnotin, hf.qcnt_eq]
    have := length_pqRemove a s.pq hf.pq_wf ham
    have := length_pqRemove b _ hwf1 hbin
    omega
  · exact hf.nleaf_pos
  · exact hf.nleaf_le
  · rw [merged_nleaf, merged_nnode, hm]; omega
  · rw [merged_qcnt, hq, merged_nnode, hm, merged_nleaf]; omega
  · intro i hi
    rw [merged_pq, mem_pqInsert, mem_pqRemove, mem_pqRemove] at hi
    rw [merged_nnode, hm]
    rcases hi with rfl | hi
    · omega
    · have := hf.members i hi.1.1; omega
  · intro j hj
    rw [merged_nnode, hm] at *
    rw [merged_nleaf, merged_pq]
    simp only [mem_pqInsert, mem_pqRemove]
    by_cases hjm : j = s.nnode.toNat
    · exact .inl ⟨s.nnode, .inl rfl, hjm.symm⟩
    · rcases hf.covered j (by omega) with ⟨i, hi, rfl⟩ | ⟨k, h1, h2, h3⟩
      · by_cases hia : i = a
        · exact .inr ⟨s.nnode.toNat, hmx, by omega, (hchildNew _).2 (.inl (by rw [hia]))⟩
        · by_cases hib : i = b
          · exact .inr ⟨s.nnode.toNat, hmx, by omega, (hchildNew _).2 (.inr (by rw [hib]))⟩
          · exact .inl ⟨i, .inr ⟨⟨hi, hia⟩, hib⟩, rfl⟩
      · exact .inr ⟨k, h1, by omega, (hchildOld k j h2).2 h3⟩
  · intro i hi k h1 h2 hc
    rw [merged_pq, mem_pqInsert, mem_pqRemove, mem_pqRemove] at hi
    rw [merged_nnode, hm] at h2
    rw [merged_nleaf] at h1
    by_cases hk : k = s.nnode.toNat
    · subst hk
      rw [hchildNew] at hc
      rcases hi with rfl | ⟨⟨hi, hia⟩, hib⟩
      · omega
      · rcases hc with hc | hc
        · exact toNat_ne hia hc.symm
        · exact toNat_ne hib hc.symm
    · rw [hchildOld k _ (by omega)] at hc
      rcases hi with rfl | ⟨⟨hi, -⟩, -⟩
      · have hI := hf.internal k h1 (by omega)
        rcases hc with hc | hc
        · have := hI.left_lt; omega
        · have := hI.right_lt; omega
      · exact hf.no_parent i hi k h1 (by omega) hc
  · intro i hi
    rw [merged_nnode, hm] at hi
    rw [merged_node, Slots.get?_set]
    split
    · rfl
    · exact hf.written i (by omega)
  · intro i hi
    rw [merged_nleaf] at hi
    rw [hold i (by omega)]
    exact hf.leaf i hi
  · intro i j hij hj
    rw [merged_nleaf] at hj
    rw [hold i (by omega), hold j (by omega)]
    exact hf.distinct i j hij hj
  · intro k h1 h2
    rw [merged_nleaf] at h1
    rw [merged_nnode, hm] at h2
    by_cases hk : k = s.nnode.toNat
    · subst hk
      constructor
      · rw [hnew]; rfl
      · rw [hnew]; rfl
      · rw [hnew]; exact ham'
      · rw [hnew]; exact hbm'
      · rw [hnew]; exact Ne.symm hba
      · rw [hnew]
        show ((s.nodeAt a.toNat).wt + (s.nodeAt b.toNat).wt).toNat =
          ((s.merged a b).nodeAt a.toNat).wt.toNat + ((s.merged a b).nodeAt b.toNat).wt.toNat
        rw [hold _ ham', hold _ hbm', hsum]
    · exact internalNode_congr s _ k (fun i hi => hold i (by omega)) (hf.internal k h1 (by omega))
  · intro j k k' h1 h2 h1' h2' hc hc'
    rw [merged_nleaf] at h1 h1'
    rw [merged_nnode, hm] at h2 h2'
    have key : ∀ k, s.nleaf.toNat ≤ k → k < s.nnode.toNat → s.isChild k j →
        ¬ (a.toNat = j ∨ b.toNat = j) := by
      intro k g1 g2 g3 g4
      rcases g4 with rfl | rfl
      · exact hf.no_parent a ham k g1 g2 g3
      · exact hf.no_parent b hbm k g1 g2 g3
    by_cases hk : k = s.nnode.toNat
    · by_cases hk' : k' = s.nnode.toNat
      · omega
      · subst hk
        rw [hchildNew] at hc
        rw [hchildOld k' _ (by omega)] at hc'
        exact absurd hc (key k' h1' (by omega) hc')
    · rw [hchildOld k _ (by omega)] at hc
      by_cases hk' : k' = s.nnode.toNat
      · subst hk'
        rw [hchildNew] at hc'
        exact absurd hc' (key k h1 (by omega) hc)
      · rw [hchildOld k' _ (by omega)] at hc'
        exact hf.one_parent j k k' h1 (by omega) h1' (by omega) hc hc'
  · rw [merged_total, hf.total_eq]
    exact (cost_congr s (s.merged a b) _ rfl fun i hi => hold i (by omega)).symm
  · rw [merged_total, merged_pq, sum_pqInsert _ _ _ hnotin]
    have e : ((pqRemove b (pqRemove a s.pq)).map fun i => (s.merged a b).wtN i.toNat).sum =
        ((pqRemove b (pqRemove a s.pq)).map fun i => s.wtN i.toNat).sum :=
      sum_map_congr _ _ _ fun i hi => by
        rw [mem_pqRemove, mem_pqRemove] at hi
        simp only [State.wtN, hold _ (hf.members i hi.1.1)]
    rw [e]
    have : (s.merged a b).wtN s.nnode.toNat = s.wtN a.toNat + s.wtN b.toNat := by
      rw [State.wtN, hnew]; exact hsum
    omega
  · intro k h1 h2
    rw [merged_nleaf] at h1
    rw [merged_nnode, hm] at h2
    by_cases hk : k = s.nnode.toNat
    · subst hk
      rw [hnew]
      exact (keyLower_congr s _ a b (hold _ ham') (hold _ hbm')).trans hlow
    · have hI := hf.internal k h1 (by omega)
      have := hI.left_lt
      have := hI.right_lt
      rw [hold k (by omega), keyLower_congr s _ _ _ (hold _ (by omega)) (hold _ (by omega))]
      exact hf.left_lower k h1 (by omega)

/-! ### The merge loop and the root (R125, R126) -/

/-- The loop ends with one member left, and whatever each merge keeps it keeps (R126). -/
theorem Forest.mergeLoop (P : State → Prop)
    (hP : ∀ s a b, Forest s → 2 ≤ s.qcnt.toNat → s.lowest s.pq = some a →
      s.lowest (pqRemove a s.pq) = some b → P s → P (s.merged a b))
    (fuel : Nat) (s : State) (hf : Forest s) (h1 : 1 ≤ s.qcnt.toNat) (h2 : s.qcnt.toNat ≤ fuel)
    (hs : P s) :
    ∃ t, s.mergeLoop fuel = .ok t ∧ Forest t ∧ t.qcnt.toNat = 1 ∧ P t := by
  induction fuel generalizing s with
  | zero => omega
  | succ k ih =>
    unfold State.mergeLoop
    by_cases hq : 1 < s.qcnt.toNat
    · obtain ⟨a, b, ha, hb, hok⟩ := hf.mergeStep_ok hq
      rw [if_pos hq, hok]
      have hq' : (s.merged a b).qcnt.toNat = s.qcnt.toNat - 1 := toNat_pred_pred_succ hq
      exact ih _ (hf.merged hq ha hb) (by omega) (by omega) (hP s a b hf hq ha hb hs)
    · rw [if_neg hq]
      exact ⟨s, rfl, hf, by omega, hs⟩

/-- The one member left is the node made last (R125). -/
theorem Forest.last_member {s : State} (hf : Forest s) (h : s.qcnt.toNat = 1) :
    ∃ r, s.pq = [r] ∧ r.toNat = 2 * s.nleaf.toNat - 2 ∧ s.nnode.toNat = 2 * s.nleaf.toNat - 1 := by
  have hlen := hf.qcnt_eq
  rw [h] at hlen
  obtain ⟨r, hr⟩ := List.length_eq_one_iff.1 hlen.symm
  have hc := hf.count
  have hn := hf.nleaf_pos
  refine ⟨r, hr, ?_, by omega⟩
  rcases hf.covered (s.nnode.toNat - 1) (by omega) with ⟨i, hi, he⟩ | ⟨k, hk1, hk2, hk3⟩
  · rw [hr] at hi
    rw [List.mem_singleton] at hi
    subst hi
    omega
  · have hI := hf.internal k hk1 hk2
    rcases hk3 with hk3 | hk3
    · have := hI.left_lt; omega
    · have := hI.right_lt; omega

/-- What BLD builds from a forest (R125): the loop ends, the last member is the root, and whatever
each merge keeps holds of the state before the last extraction. -/
theorem Forest.buildTree (P : State → Prop)
    (hP : ∀ s a b, Forest s → 2 ≤ s.qcnt.toNat → s.lowest s.pq = some a →
      s.lowest (pqRemove a s.pq) = some b → P s → P (s.merged a b))
    (s : State) (hf : Forest s) (hs : P s) :
    ∃ t r, s.buildTree = .ok ((t.dequeue r).setRoot r) ∧ Forest t ∧ P t ∧ t.qcnt.toNat = 1 ∧
      t.pq = [r] ∧ r.toNat = 2 * t.nleaf.toNat - 2 ∧ t.nnode.toNat = 2 * t.nleaf.toNat - 1 := by
  have hq : 1 ≤ s.qcnt.toNat := by
    have hc := hf.count
    have hn := hf.nleaf_pos
    by_contra hcon
    have hlen := hf.qcnt_eq
    have he : s.pq = [] := List.length_eq_zero_iff.1 (by omega)
    rcases hf.covered (s.nnode.toNat - 1) (by omega) with ⟨i, hi, -⟩ | ⟨k, hk1, hk2, hk3⟩
    · rw [he] at hi; cases hi
    · have hI := hf.internal k hk1 hk2
      rcases hk3 with hk3 | hk3
      · have := hI.left_lt; omega
      · have := hI.right_lt; omega
  obtain ⟨t, ht, hft, hqt, hPt⟩ := Forest.mergeLoop P hP s.qcnt.toNat s hf hq (Nat.le_refl _) hs
  obtain ⟨r, hr, hr1, hr2⟩ := hft.last_member hqt
  refine ⟨t, r, ?_, hft, hPt, hqt, hr, hr1, hr2⟩
  unfold State.buildTree
  rw [ht]
  have hl : t.lowest t.pq = some r := by rw [hr]; rfl
  have he := (extractMin_ok t r _).2 ⟨hl, rfl⟩
  simp only [he]

end Sys2Proof.Machine
end

