-- ==== Sys2Proof/Laws/Tree.lean ====
section
/-! SUPPORT. Paths in the tree (spec/42_derive.md R140): the node a path leads to, the one path to
a node, and its length (spec/10_state.md R38, R40, R41). -/

namespace Sys2Proof.Machine

theorem follow_congr (s t : State) (h : ∀ i, t.nodeAt i = s.nodeAt i) (i : Index) (p : List Bool) :
    t.follow i p = s.follow i p := by
  induction p generalizing i with
  | nil => rfl
  | cons b rest ih =>
    unfold State.follow
    rw [h i.toNat]
    split <;> simp_all

theorem follow_append (s : State) (i : Index) (p q : List Bool) :
    s.follow i (p ++ q) = (s.follow i p).bind (fun j => s.follow j q) := by
  induction p generalizing i with
  | nil => rfl
  | cons b rest ih =>
    simp only [List.cons_append, State.follow]
    split
    · rfl
    · exact ih _

/-- The part of the invariants a path depends on. -/
structure TreeOk (s : State) : Prop where
  leaf : ∀ i, i < s.nleaf.toNat → (s.nodeAt i).kind = .leaf
  internal : ∀ k, s.nleaf.toNat ≤ k → k < s.nnode.toNat → InternalNode s k
  one_parent : ∀ j k k', s.nleaf.toNat ≤ k → k < s.nnode.toNat → s.nleaf.toNat ≤ k' →
    k' < s.nnode.toNat → s.isChild k j → s.isChild k' j → k = k'

theorem Invariants.treeOk {s : State} (h : Invariants s) : TreeOk s :=
  ⟨fun i hi => (h.leaf i hi).1, h.internal, h.one_parent⟩

theorem Forest.treeOk {s : State} (h : Forest s) : TreeOk s :=
  ⟨fun i hi => (h.leaf i hi).1, h.internal, h.one_parent⟩

/-- The child of node `k` on the edge `b`. -/
def State.child (s : State) (k : Index) (b : Bool) : Index :=
  if b then (s.nodeAt k.toNat).right else (s.nodeAt k.toNat).left

theorem follow_cons (s : State) (i : Index) (b : Bool) (p : List Bool) :
    s.follow i (b :: p) =
      match (s.nodeAt i.toNat).kind with
      | .leaf => none
      | .internal => s.follow (s.child i b) p := rfl

theorem child_isChild (s : State) (k : Index) (b : Bool) : s.isChild k.toNat (s.child k b).toNat := by
  cases b
  · exact .inl rfl
  · exact .inr rfl

namespace TreeOk

variable {s : State} (h : TreeOk s)
include h

theorem kind_leaf_iff {i : Nat} (hi : i < s.nnode.toNat) :
    (s.nodeAt i).kind = .leaf ↔ i < s.nleaf.toNat := by
  constructor
  · intro hk
    by_contra hn
    rw [(h.internal i (by omega) hi).kind] at hk
    cases hk
  · exact h.leaf i

theorem child_lt {k : Index} (hk1 : s.nleaf.toNat ≤ k.toNat) (hk2 : k.toNat < s.nnode.toNat)
    (b : Bool) : (s.child k b).toNat < k.toNat := by
  have hI := h.internal _ hk1 hk2
  cases b
  · exact hI.left_lt
  · exact hI.right_lt

theorem child_inj {k : Index} (hk1 : s.nleaf.toNat ≤ k.toNat) (hk2 : k.toNat < s.nnode.toNat)
    {b b' : Bool} (e : s.child k b = s.child k b') : b = b' := by
  have hI := (h.internal _ hk1 hk2).left_ne_right
  cases b <;> cases b' <;> simp_all [State.child]

/-- A path that goes on from a node starts at an internal node. -/
theorem follow_cons_some {i j : Index} {b : Bool} {p : List Bool}
    (hf : s.follow i (b :: p) = some j) :
    s.nleaf.toNat ≤ i.toNat ∧ s.follow (s.child i b) p = some j := by
  rw [follow_cons] at hf
  cases hk : (s.nodeAt i.toNat).kind with
  | leaf => rw [hk] at hf; cases hf
  | internal =>
    rw [hk] at hf
    refine ⟨?_, hf⟩
    by_contra hn
    rw [h.leaf _ (by omega)] at hk
    cases hk

/-- A path leads downwards, and its length is bounded (R41). -/
theorem follow_bound {i j : Index} {p : List Bool} (hi : i.toNat < s.nnode.toNat)
    (hf : s.follow i p = some j) :
    j.toNat ≤ i.toNat ∧ (p ≠ [] → p.length + s.nleaf.toNat ≤ i.toNat + 1 ∧ j.toNat < i.toNat) := by
  induction p generalizing i with
  | nil =>
    simp only [State.follow, Option.some.injEq] at hf
    subst hf
    simp
  | cons b rest ih =>
    obtain ⟨h1, h2⟩ := h.follow_cons_some hf
    have hlt := h.child_lt h1 hi b
    obtain ⟨h3, h4⟩ := ih (by omega) h2
    refine ⟨by omega, fun _ => ⟨?_, by omega⟩⟩
    by_cases hr : rest = []
    · subst hr; simp; omega
    · have := (h4 hr).1
      simp only [List.length_cons]
      omega

/-- A path that is not empty enters its end by an edge from a node in use. -/
theorem follow_last {i j : Index} {p : List Bool} {b : Bool} (hi : i.toNat < s.nnode.toNat)
    (hf : s.follow i (p ++ [b]) = some j) :
    ∃ k : Index, s.follow i p = some k ∧ s.nleaf.toNat ≤ k.toNat ∧ k.toNat < s.nnode.toNat ∧
      s.child k b = j := by
  rw [follow_append] at hf
  cases hk : s.follow i p with
  | none => rw [hk] at hf; cases hf
  | some k =>
    rw [hk] at hf
    have hki := (h.follow_bound hi hk).1
    obtain ⟨h1, h2⟩ := h.follow_cons_some (show s.follow k (b :: []) = some j from hf)
    exact ⟨k, rfl, h1, by omega, by simpa [State.follow] using h2⟩

/-- Two paths from one node to one node are the same path (R40). -/
theorem follow_inj {i j : Index} (hi : i.toNat < s.nnode.toNat) {p q : List Bool}
    (hp : s.follow i p = some j) (hq : s.follow i q = some j) : p = q := by
  induction p using List.reverseRecOn generalizing q j with
  | nil =>
    cases q with
    | nil => rfl
    | cons b rest =>
      simp only [State.follow, Option.some.injEq] at hp
      subst hp
      have := ((h.follow_bound hi hq).2 (by simp)).2
      omega
  | append_singleton p b ih =>
    rcases List.eq_nil_or_concat q with rfl | ⟨q', b', rfl⟩
    · simp only [State.follow, Option.some.injEq] at hq
      subst hq
      have := ((h.follow_bound hi hp).2 (by simp)).2
      omega
    · rw [List.concat_eq_append] at hq ⊢
      obtain ⟨k, hk, k1, k2, k3⟩ := h.follow_last hi hp
      obtain ⟨k', hk', k1', k2', k3'⟩ := h.follow_last hi hq
      have c1 := child_isChild s k b
      have c2 := child_isChild s k' b'
      rw [k3] at c1
      rw [k3'] at c2
      have hkk : k = k' := BitVec.eq_of_toNat_eq (h.one_parent _ _ _ k1 k2 k1' k2' c1 c2)
      subst hkk
      rw [ih hk hk', h.child_inj k1 k2 (k3.trans k3'.symm)]

end TreeOk

/-- Every node in use is reached from the root (R40). -/
theorem Invariants.reach {s : State} (h : Invariants s) (hp : s.status.phase ≠ .load) (j : Index)
    (hj : j.toNat < s.nnode.toNat) : ∃ p, s.follow s.root p = some j := by
  have hm := h.built_nnode hp
  have hn : 1 ≤ s.nleaf.toNat := by omega
  have hr := h.root_last hp hn
  generalize hd : s.root.toNat - j.toNat = d
  induction d using Nat.strongRecOn generalizing j with
  | ind d ih =>
    by_cases hjr : j.toNat = s.root.toNat
    · exact ⟨[], by rw [BitVec.eq_of_toNat_eq hjr]; rfl⟩
    · obtain ⟨k, hk1, hk2, hk3⟩ := h.has_parent hp j.toNat hj hjr
      have hkl : k < 65536 := by have := s.nnode.isLt; omega
      have hI := h.internal k hk1 hk2
      have hkt : (BitVec.ofNat 16 k).toNat = k := by simp; omega
      have hjk : j.toNat < k := by
        rcases hk3 with e | e
        · have := hI.left_lt; omega
        · have := hI.right_lt; omega
      obtain ⟨p, hpk⟩ := ih (s.root.toNat - k) (by omega) (BitVec.ofNat 16 k) (by omega)
        (by rw [hkt])
      rcases hk3 with e | e
      · refine ⟨p ++ [false], ?_⟩
        rw [follow_append, hpk]
        simp only [Option.bind_some, follow_cons, hkt, hI.kind]
        simp only [State.follow, State.child, hkt]
        exact congrArg some (BitVec.eq_of_toNat_eq e)
      · refine ⟨p ++ [true], ?_⟩
        rw [follow_append, hpk]
        simp only [Option.bind_some, follow_cons, hkt, hI.kind]
        simp only [State.follow, State.child, hkt]
        exact congrArg some (BitVec.eq_of_toNat_eq e)

end Sys2Proof.Machine
end

