-- ==== Sys2Proof/Laws/Derive.lean ====
section
/-! SUPPORT. What DRV can do (spec/42_derive.md): the packing of a path, and the entries that
`visit` writes. -/

namespace Sys2Proof.Machine

/-! ### Packing (R34, R144) -/

theorem packBits_lt (p : List Bool) : packBits p < 2 ^ p.length := by
  induction p with
  | nil => simp [packBits]
  | cons b rest ih =>
    simp only [packBits, List.length_cons, Nat.pow_succ]
    cases b <;> simp <;> omega

/-- Bit j of a packed path is the j-th bit of the path (R34). -/
theorem packBits_testBit (p : List Bool) (j : Nat) : (packBits p).testBit j = p.getD j false := by
  induction p generalizing j with
  | nil => simp [packBits]
  | cons b rest ih =>
    cases j with
    | zero =>
      simp only [packBits, Nat.testBit_zero, List.getD_cons_zero]
      cases b <;> simp <;> omega
    | succ j =>
      rw [Nat.testBit_succ]
      have : packBits (b :: rest) / 2 = packBits rest := by
        simp only [packBits]
        cases b <;> simp <;> omega
      rw [this, ih]
      simp

theorem ofNat16_toNat {n : Nat} (h : n < 65536) : (BitVec.ofNat 16 n).toNat = n := by
  simp; omega

/-- The entry that records a path no longer than CODE_W holds exactly that path (R144). -/
theorem codeEntry_bits (nmax : Index) (p : List Bool) (h : p.length ≤ codeW nmax)
    (h' : p.length < 65536) : CtEntry.bits (codeEntry nmax p) = p := by
  unfold CtEntry.bits codeEntry
  rw [List.take_of_length_le h]
  simp only [ofNat16_toNat h']
  apply List.ext_getElem
  · simp
  · intro i h1 h2
    simp only [List.getElem_map, List.getElem_range, packBits_testBit]
    rw [List.getD_eq_getElem _ _ h2]

theorem codeEntry_clen (nmax : Index) (p : List Bool) (h : p.length < 65536) :
    (codeEntry nmax p).clen.toNat = p.length := ofNat16_toNat h

theorem codeEntry_cbits_lt (nmax : Index) (p : List Bool) (h : p.length < 65536) :
    (codeEntry nmax p).cbits < 2 ^ (codeEntry nmax p).clen.toNat := by
  rw [codeEntry_clen nmax p h]
  refine Nat.lt_of_lt_of_le (packBits_lt _) (Nat.pow_le_pow_right (by omega) ?_)
  simp

/-! ### The traversal (R141) -/

/-- What the traversal from a node in use does: it ends, keeps the canonical form, writes the entry
of each leaf the node leads to, with the path there, and no other entry (R141, R144, R145). -/
theorem TreeOk.visit {s : State} (h : TreeOk s) (fuel : Nat) (i : Index) (p : List Bool)
    (ct : Slots CtEntry) (hi : i.toNat < s.nnode.toNat) (hfuel : i.toNat < fuel) :
    ∃ ct', s.visit fuel i p ct = some ct' ∧ (ct.wf = true → ct'.wf = true) ∧
      (∀ (j : Index) (q : List Bool), s.follow i q = some j → j.toNat < s.nleaf.toNat →
        ct'.get? j.toNat = some (codeEntry s.nmax (p ++ q))) ∧
      (∀ j : Nat, (∀ (l : Index) (q : List Bool), s.follow i q = some l →
        l.toNat < s.nleaf.toNat → l.toNat ≠ j) → ct'.get? j = ct.get? j) := by
  induction fuel generalizing i p ct with
  | zero => omega
  | succ k ih =>
    unfold State.visit
    cases hk : (s.nodeAt i.toNat).kind with
    | leaf =>
      have hin := (h.kind_leaf_iff hi).1 hk
      refine ⟨_, rfl, Slots.wf_set _ _ _, ?_, ?_⟩
      · intro j q hq hj
        cases q with
        | nil =>
          simp only [State.follow, Option.some.injEq] at hq
          subst hq
          simp
        | cons b rest => rw [follow_cons, hk] at hq; cases hq
      · intro j hj
        exact Slots.get?_set_other _ _ _ _ (Ne.symm (hj i [] rfl hin))
    | internal =>
      have hin : s.nleaf.toNat ≤ i.toNat := by
        by_contra hn
        rw [h.leaf _ (by omega)] at hk
        cases hk
      have hl := h.child_lt hin hi false
      have hr := h.child_lt hin hi true
      simp only [State.child, Bool.false_eq_true, if_false, if_true] at hl hr
      obtain ⟨c1, e1, w1, a1, b1⟩ := ih (s.nodeAt i.toNat).left (p ++ [false]) ct (by omega) (by omega)
      obtain ⟨c2, e2, w2, a2, b2⟩ := ih (s.nodeAt i.toNat).right (p ++ [true]) c1 (by omega) (by omega)
      simp only [e1, e2]
      refine ⟨c2, rfl, fun w => w2 (w1 w), ?_, ?_⟩
      · intro j q hq hj
        cases q with
        | nil =>
          simp only [State.follow, Option.some.injEq] at hq
          subst hq
          omega
        | cons b rest =>
          have hq0 := hq
          rw [follow_cons, hk] at hq
          cases b with
          | false =>
            simp only [State.child, Bool.false_eq_true, if_false] at hq
            rw [b2 j.toNat, a1 j rest hq hj]
            · simp
            · intro l q' hl' _ e
              have e' : l = j := BitVec.eq_of_toNat_eq e
              subst e'
              have hq1 : s.follow i (true :: q') = some l := by
                rw [follow_cons, hk]; exact hl'
              have := h.follow_inj hi hq0 hq1
              cases this
          | true =>
            simp only [State.child, if_true] at hq
            rw [a2 j rest hq hj]
            simp
      · intro j hj
        rw [b2 j fun l q hq hl' => hj l (true :: q) (by rw [follow_cons, hk]; exact hq) hl']
        exact b1 j fun l q hq hl' => hj l (false :: q) (by rw [follow_cons, hk]; exact hq) hl'

/-! ### The code table as a whole (R33, R35) -/

theorem codeTable_isSome_iff (s : State) :
    s.codeTable.isSome = true ↔ s.status.phase = .derived := by
  unfold State.codeTable; split <;> simp [*]

theorem codeTable_eq_some {s : State} {l : List (Symbol × List Bool)} (h : s.codeTable = some l) :
    l.length = s.nleaf.toNat ∧
      ∀ i, i < s.nleaf.toNat → l[i]? = some ((s.nodeAt i).sym, s.code i) := by
  unfold State.codeTable at h
  split at h
  · cases h; simp +contextual
  · cases h

end Sys2Proof.Machine
end

