-- ==== Sys2Proof/Laws/Invariant.lean ====
section
/-! SUPPORT. Which operations keep the invariants of spec/10_state.md section 6: one lemma for each
shared operation that writes the state. -/

namespace Sys2Proof.Machine

/-- States that differ at the ports and in ERR alone meet the invariants together. -/
theorem Invariants.of_same {s t : State} (h : Invariants s) (e1 : t.status.phase = s.status.phase)
    (e2 : t.status.rootv = s.status.rootv) (e3 : t.status.empty = s.status.empty)
    (e4 : t.status.single = s.status.single) (e5 : t.nleaf = s.nleaf) (e6 : t.nnode = s.nnode)
    (e7 : t.qcnt = s.qcnt) (e8 : t.root = s.root) (e9 : t.total = s.total) (e10 : t.nmax = s.nmax)
    (e11 : t.node = s.node) (e12 : t.pq = s.pq) (e13 : t.ct = s.ct) : Invariants t := by
  have en : ∀ i, t.nodeAt i = s.nodeAt i := nodeAt_congr s t e11
  have ec : ∀ i, t.ctAt i = s.ctAt i := ctAt_congr s t e13
  have ecode : ∀ i, t.code i = s.code i := fun i => by unfold State.code; rw [ec]
  have echild : ∀ k j, t.isChild k j ↔ s.isChild k j := fun k j => isChild_congr s t k j (en k)
  constructor
  · rw [e10]; exact h.nmax_ge
  · rw [e10]; exact h.nmax_le
  · rw [e11]; exact h.node_wf
  · rw [e13]; exact h.ct_wf
  · rw [e12]; exact h.pq_wf
  · rw [e7, e12]; exact h.qcnt_eq
  · rw [e5, e10]; exact h.nleaf_le
  · rw [e1, e5, e6]; exact h.load_nnode
  · rw [e1, e5, e12]; exact h.load_queue
  · rw [e1, e12]; exact h.built_queue
  · rw [e1, e5, e6]; exact h.built_nnode
  · rw [e1, e5]; exact h.derived_nleaf
  · rw [e6, e11]; exact h.written
  · intro i hi; rw [e5] at hi; rw [en]; exact h.leaf i hi
  · intro i j hij hj; rw [e5] at hj; rw [en, en]; exact h.distinct i j hij hj
  · intro k h1 h2
    rw [e5] at h1; rw [e6] at h2
    exact internalNode_congr s t k (fun i _ => en i) (h.internal k h1 h2)
  · intro j k k' h1 h2 h3 h4 h5 h6
    rw [e5] at h1 h3; rw [e6] at h2 h4
    exact h.one_parent j k k' h1 h2 h3 h4 ((echild _ _).1 h5) ((echild _ _).1 h6)
  · rw [e9, h.total_eq]; exact (cost_congr s t _ e5 fun i _ => en i).symm
  · rw [e1, e2, e3, e4, e8]; exact h.load_flags
  · rw [e1, e2, e3, e4, e5, e8]; exact h.absent_flags
  · rw [e1, e2, e3, e4, e5]; exact h.tree_flags
  · rw [e1, e5, e8]; exact h.root_last
  · rw [e1, e6, e8]
    intro hp j hj hjr
    obtain ⟨k, h1, h2, h3⟩ := h.has_parent hp j hj hjr
    exact ⟨k, by rw [e5]; exact h1, h2, (echild _ _).2 h3⟩
  · rw [e1, e5, e8, e9, en]; exact h.root_weight
  · rw [e1, e5]
    intro hp i hi
    have hc := h.codes hp i hi
    constructor
    · rw [e13]; exact hc.written
    · rw [ec]; exact hc.length_pos
    · rw [ec, e5]; exact hc.length_le
    · rw [ec]; exact hc.high_zero
    · rw [e5, ecode]; exact hc.single
    · rw [e5, e8, ecode, follow_congr s t en]; exact hc.path

theorem Invariants.complete {s : State} (h : Invariants s) (d : BitVec 32) : Invariants (complete d s) :=
  h.of_same rfl rfl rfl rfl rfl rfl rfl rfl rfl rfl rfl rfl rfl

theorem Invariants.raiseFault {s : State} (h : Invariants s) (e : Err) : Invariants (raiseFault e s) :=
  h.of_same (by simp) (by simp) (by simp) (by simp) rfl rfl rfl rfl rfl rfl rfl rfl rfl

/-- A state with no leaf, no slot in use and nothing queued, in phase LOAD with every flag 0. -/
theorem Invariants.fresh {t : State} (h1 : 1 ≤ t.nmax.toNat) (h2 : t.nmax.toNat ≤ 32768)
    (h3 : t.node.wf = true) (h4 : t.ct.wf = true) (hst : t.status = Status.reset)
    (hnl : t.nleaf = 0) (hnn : t.nnode = 0) (hq : t.qcnt = 0) (hr : t.root = 0)
    (ht : t.total = 0) (hpq : t.pq = []) : Invariants t := by
  constructor <;>
    simp_all [pqWf, Config.nmaxMin, Config.nmaxMax, State.cost, Status.reset]

theorem Invariants.newInvocation {s : State} (h : Invariants s) : Invariants (newInvocation s) :=
  Invariants.fresh h.nmax_ge h.nmax_le h.node_wf h.ct_wf rfl rfl rfl rfl rfl rfl rfl

theorem Invariants.applyReset {s : State} (h : Invariants s) : Invariants (applyReset s) :=
  Invariants.fresh h.nmax_ge h.nmax_le rfl rfl rfl rfl rfl rfl rfl rfl rfl

/-- LDF's writes keep the invariants when its checks pass (R103). -/
theorem Invariants.loadLeaf {s : State} (h : Invariants s) (hp : s.status.phase = .load)
    (hfull : s.nleaf ≠ s.nmax) (sym : Symbol) (cnt : Weight)
    (hdup : ∀ i, i < s.nleaf.toNat → (s.nodeAt i).sym ≠ sym)
    (hov : s.total.toNat + cnt.toNat ≤ 4294967295) : Invariants (s.loadLeaf sym cnt) := by
  have hne := toNat_ne hfull
  have hle := h.nleaf_le
  have hmax : s.nmax.toNat ≤ 32768 := h.nmax_le
  have hnl : (s.nleaf + 1).toNat = s.nleaf.toNat + 1 := toNat_succ (by omega)
  have hnode := h.load_nnode hp
  have hold : ∀ j, j < s.nleaf.toNat → (s.loadLeaf sym cnt).nodeAt j = s.nodeAt j := fun j hj => by
    rw [nodeAt_set s _ j (leafNode sym cnt) _ rfl, if_neg (by omega)]
  have hnew : (s.loadLeaf sym cnt).nodeAt s.nleaf.toNat = leafNode sym cnt := by
    rw [nodeAt_set s _ _ (leafNode sym cnt) _ rfl, if_pos rfl]
  have hnotin : s.nleaf ∉ s.pq := fun hin => Nat.lt_irrefl _ ((h.load_queue hp _).1 hin)
  have hlen : s.pq.length ≤ s.nleaf.toNat := by
    have hn := pqWf_nodup _ h.pq_wf
    have : (s.pq.map BitVec.toNat).length ≤ (List.range s.nleaf.toNat).length :=
      (List.subperm_of_subset (hn.map fun _ _ e => BitVec.eq_of_toNat_eq e) fun x hx => by
        obtain ⟨i, hi, rfl⟩ := List.mem_map.1 hx
        exact List.mem_range.2 ((h.load_queue hp i).1 hi)).length_le
    simpa using this
  have hq : (s.qcnt + 1).toNat = s.qcnt.toNat + 1 := toNat_succ (by have := h.qcnt_eq; omega)
  have hnodes : ∀ {p : Prop}, s.status.phase ≠ .load → p := fun hc => absurd hp hc
  constructor
  · exact h.nmax_ge
  · exact h.nmax_le
  · exact Slots.wf_set _ _ _ h.node_wf
  · exact h.ct_wf
  · exact pqWf_pqInsert _ _ h.pq_wf
  · rw [loadLeaf_qcnt, hq, loadLeaf_pq, length_pqInsert _ _ hnotin, h.qcnt_eq]
  · rw [loadLeaf_nleaf, hnl, loadLeaf_nmax]; omega
  · intro _; rfl
  · intro _ i
    rw [loadLeaf_pq, mem_pqInsert, loadLeaf_nleaf, hnl, h.load_queue hp]
    constructor
    · rintro (rfl | hi) <;> omega
    · intro hi
      by_cases hc : i.toNat = s.nleaf.toNat
      · exact .inl (BitVec.eq_of_toNat_eq hc)
      · exact .inr (by omega)
  · exact hnodes
  · exact hnodes
  · intro hd; rw [loadLeaf_status, hp] at hd; cases hd
  · intro i hi
    rw [loadLeaf_nnode, hnl] at hi
    rw [loadLeaf_node, Slots.get?_set]
    split
    · rfl
    · exact h.written i (by rw [hnode]; omega)
  · intro i hi
    rw [loadLeaf_nleaf, hnl] at hi
    by_cases hc : i = s.nleaf.toNat
    · subst hc; rw [hnew]; exact ⟨rfl, rfl, rfl⟩
    · rw [hold i (by omega)]; exact h.leaf i (by omega)
  · intro i j hij hj
    rw [loadLeaf_nleaf, hnl] at hj
    rw [hold i (by omega)]
    by_cases hc : j = s.nleaf.toNat
    · subst hc; rw [hnew]; exact hdup i hij
    · rw [hold j (by omega)]; exact h.distinct i j hij (by omega)
  · intro k h1 h2; rw [loadLeaf_nleaf] at h1; rw [loadLeaf_nnode] at h2; omega
  · intro j k k' h1 h2; rw [loadLeaf_nleaf] at h1; rw [loadLeaf_nnode] at h2; omega
  · have e : (s.total + cnt).toNat = s.total.toNat + cnt.toNat := by
      rw [BitVec.toNat_add, Nat.mod_eq_of_lt (by omega)]
    rw [loadLeaf_total, e, h.total_eq]
    unfold State.cost
    rw [loadLeaf_nleaf, hnl, Finset.sum_range_succ, hnew]
    simp only [leafNode, Nat.mul_one]
    congr 1
    exact Finset.sum_congr rfl fun i hi => by rw [hold i (Finset.mem_range.1 hi)]
  · intro _; exact h.load_flags hp
  · exact hnodes
  · exact hnodes
  · exact hnodes
  · exact hnodes
  · exact hnodes
  · intro hd; rw [loadLeaf_status, hp] at hd; cases hd

/-- BLD on the empty map keeps the invariants (R127). -/
theorem Invariants.setEmpty {s : State} (h : Invariants s) (hp : s.status.phase = .load) (hn : s.nleaf = 0) :
    Invariants s.setEmpty := by
  have hnn := h.load_nnode hp
  have hpq : s.pq = [] := by
    rw [List.eq_nil_iff_forall_not_mem]
    intro i hi
    have := (h.load_queue hp i).1 hi
    rw [hn] at this
    exact absurd this (by simp)
  have hf := h.load_flags hp
  have hn0 : s.nleaf.toNat = 0 := by rw [hn]; rfl
  have hm0 : s.nnode.toNat = 0 := by rw [hnn, hn0]
  constructor
  · exact h.nmax_ge
  · exact h.nmax_le
  · exact h.node_wf
  · exact h.ct_wf
  · exact h.pq_wf
  · exact h.qcnt_eq
  · exact h.nleaf_le
  · intro hc; cases hc
  · intro hc; cases hc
  · intro _; exact hpq
  · intro _; show s.nnode.toNat = 2 * s.nleaf.toNat - 1; omega
  · intro hc; cases hc
  · exact h.written
  · exact h.leaf
  · exact h.distinct
  · exact fun k h1 h2 => internalNode_congr s _ k (fun _ _ => rfl) (h.internal k h1 h2)
  · exact h.one_parent
  · exact h.total_eq
  · intro hc; cases hc
  · intro _ _; exact ⟨hf.1, rfl, hf.2.2.1, hf.2.2.2⟩
  · intro _ hc; have : 1 ≤ s.nleaf.toNat := hc; omega
  · intro _ hc; have : 1 ≤ s.nleaf.toNat := hc; omega
  · intro _ j hj; have : j < s.nnode.toNat := hj; omega
  · intro _ hc; have : 1 ≤ s.nleaf.toNat := hc; omega
  · intro hc; cases hc

/-- A loaded map with one entry or more is a forest of leaves (R126). -/
theorem Invariants.forest {s : State} (h : Invariants s) (hp : s.status.phase = .load)
    (hn : 1 ≤ s.nleaf.toNat) : Forest s := by
  have hnn := h.load_nnode hp
  have hnodup := pqWf_nodup _ h.pq_wf
  have hperm : (s.pq.map BitVec.toNat).Perm (List.range s.nleaf.toNat) := by
    refine (List.perm_ext_iff_of_nodup (hnodup.map fun _ _ e => BitVec.eq_of_toNat_eq e)
      List.nodup_range).2 fun x => ?_
    rw [List.mem_range]
    constructor
    · intro hx
      obtain ⟨i, hi, rfl⟩ := List.mem_map.1 hx
      exact (h.load_queue hp i).1 hi
    · intro hx
      have hx16 : x < 65536 := by have := s.nleaf.isLt; omega
      refine List.mem_map.2 ⟨BitVec.ofNat 16 x, (h.load_queue hp _).2 ?_, ?_⟩ <;>
        rw [ofNat16_toNat hx16]
      exact hx
  have hlen : s.pq.length = s.nleaf.toNat := by simpa using hperm.length_eq
  have hqe := h.qcnt_eq
  constructor
  · exact h.nmax_ge
  · exact h.nmax_le
  · exact h.node_wf
  · exact h.pq_wf
  · exact h.qcnt_eq
  · exact hn
  · exact h.nleaf_le
  · rw [hnn]
  · rw [hnn]; omega
  · intro i hi; rw [hnn]; exact (h.load_queue hp i).1 hi
  · intro j hj
    have hj16 : j < 65536 := by have := s.nnode.isLt; omega
    refine .inl ⟨BitVec.ofNat 16 j, (h.load_queue hp _).2 ?_, ofNat16_toNat hj16⟩
    rw [ofNat16_toNat hj16, ← hnn]; exact hj
  · intro i _ k h1 h2; rw [hnn] at h2; omega
  · exact h.written
  · exact h.leaf
  · exact h.distinct
  · exact h.internal
  · exact h.one_parent
  · exact h.total_eq
  · rw [h.total_eq]
    have := (hperm.map fun i => s.wtN i).sum_eq
    rw [List.map_map] at this
    simp only [State.cost, Nat.mul_one]
    exact this.trans rfl
  · intro k h1 h2; rw [hnn] at h2; omega

theorem pqRemove_singleton (r : Index) : pqRemove r [r] = [] := by simp [pqRemove]

/-- The forest with one member left, that member taken as the root, meets the invariants (R125). -/
theorem Forest.setRoot {t : State} (hf : Forest t) {r : Index} (hq : t.qcnt.toNat = 1)
    (hpq : t.pq = [r]) (hr : r.toNat = 2 * t.nleaf.toNat - 2)
    (hm : t.nnode.toNat = 2 * t.nleaf.toNat - 1) (hct : t.ct.wf = true)
    (he : t.status.empty = false) : Invariants ((t.dequeue r).setRoot r) := by
  have hn := hf.nleaf_pos
  have hrm := hf.members r (by rw [hpq]; exact List.mem_cons_self)
  constructor
  · exact hf.nmax_ge
  · exact hf.nmax_le
  · exact hf.node_wf
  · exact hct
  · exact pqWf_pqRemove _ _ hf.pq_wf
  · show (t.qcnt - 1).toNat = (pqRemove r t.pq).length
    rw [hpq, pqRemove_singleton, toNat_pred (by omega), hq]
    rfl
  · exact hf.nleaf_le
  · intro hc; cases hc
  · intro hc; cases hc
  · intro _; show pqRemove r t.pq = []; rw [hpq, pqRemove_singleton]
  · intro _; exact hm
  · intro hc; cases hc
  · exact hf.written
  · exact hf.leaf
  · exact hf.distinct
  · exact fun k h1 h2 => internalNode_congr t _ k (fun _ _ => rfl) (hf.internal k h1 h2)
  · exact hf.one_parent
  · exact hf.total_eq
  · intro hc; cases hc
  · intro _ hc; have : t.nleaf.toNat = 0 := hc; omega
  · intro _ _
    refine ⟨rfl, he, ?_⟩
    show decide (t.nleaf = 1) = true ↔ t.nleaf.toNat = 1
    rw [decide_eq_true_eq, ← BitVec.toNat_inj]
    rfl
  · intro _ _; exact hr
  · intro _ j hj hjr
    rcases hf.covered j hj with ⟨i, hi, hij⟩ | hk
    · rw [hpq, List.mem_singleton] at hi
      subst hi
      exact absurd hij.symm hjr
    · exact hk
  · intro _ _
    have hw := hf.queue_weight
    rw [hpq] at hw
    simp only [List.map_cons, List.map_nil, List.sum_cons, List.sum_nil, Nat.add_zero] at hw
    exact BitVec.eq_of_toNat_eq hw
  · intro hc; cases hc

/-- What a table must hold for each leaf is what DRV's table holds (R141, R143, R144). -/
theorem Invariants.derivedTable {s : State} (h : Invariants s) (hp : s.status.phase = .built)
    (hv : s.status.rootv = true) :
    ∃ ct, s.derivedTable = some ct ∧ ct.wf = true ∧
      (∀ i, i < s.nleaf.toNat → LeafCode (s.storeTable ct) i) ∧
      ∀ i, s.nleaf.toNat ≤ i → ct.get? i = s.ct.get? i := by
  have hnl : s.status.phase ≠ .load := by rw [hp]; decide
  have hpos : 1 ≤ s.nleaf.toNat := by
    by_contra hc
    have := (h.absent_flags hnl (by omega)).1
    rw [hv] at this
    cases this
  have hroot := h.root_last hnl hpos
  have hm := h.built_nnode hnl
  have hle := h.nleaf_le
  have hmax : s.nmax.toNat ≤ 32768 := h.nmax_le
  have hT := h.treeOk
  unfold State.derivedTable
  cases hk : (s.nodeAt s.root.toNat).kind with
  | leaf =>
    have hr := (hT.kind_leaf_iff (by omega)).1 hk
    have hn1 : s.nleaf.toNat = 1 := by omega
    have hr0 : s.root.toNat = 0 := by omega
    refine ⟨_, rfl, Slots.wf_set _ _ _ h.ct_wf, ?_, ?_⟩
    · intro i hi
      have hi0 : i = 0 := by omega
      subst hi0
      have e : (s.storeTable (s.ct.set s.root.toNat { clen := 1, cbits := 0 })).ctAt 0 =
          { clen := 1, cbits := 0 } := by
        unfold State.ctAt
        rw [storeTable_ct, hr0, Slots.get?_set_same]
      constructor
      · rw [storeTable_ct, hr0, Slots.get?_set_same]; rfl
      · rw [e]; decide
      · rw [e, storeTable_nleaf, hn1]; decide
      · rw [e]; decide
      · intro _; unfold State.code; rw [e]; decide
      · intro h2; rw [storeTable_nleaf] at h2; omega
    · intro i hi
      exact Slots.get?_set_other _ _ _ _ (by omega)
  | internal =>
    have hr : s.nleaf.toNat ≤ s.root.toNat := by
      by_contra hn
      rw [hT.leaf _ (by omega)] at hk
      cases hk
    obtain ⟨ct, e, w, ha, hb⟩ := hT.visit (s.root.toNat + 1) s.root [] s.ct (by omega) (by omega)
    refine ⟨ct, e, w h.ct_wf, ?_, ?_⟩
    · intro i hi
      have hi16 : i < 65536 := by omega
      obtain ⟨p, hpath⟩ := h.reach hnl (BitVec.ofNat 16 i) (by rw [ofNat16_toNat hi16]; omega)
      have hg := ha _ p hpath (by rw [ofNat16_toNat hi16]; exact hi)
      rw [ofNat16_toNat hi16, List.nil_append] at hg
      have hpne : p ≠ [] := by
        intro hpe
        subst hpe
        simp only [State.follow, Option.some.injEq] at hpath
        rw [hpath, ofNat16_toNat hi16] at hr
        omega
      have hlen := ((hT.follow_bound (by omega) hpath).2 hpne).1
      have hlp : 1 ≤ p.length := by
        have := List.length_pos_iff.2 hpne
        omega
      have hcw : p.length ≤ codeW s.nmax := by unfold codeW; omega
      have he : (s.storeTable ct).ctAt i = codeEntry s.nmax p := by
        unfold State.ctAt
        rw [storeTable_ct, hg]
      have hcode : (s.storeTable ct).code i = p := by
        unfold State.code
        rw [he, codeEntry_bits _ _ hcw (by omega)]
      constructor
      · rw [storeTable_ct, hg]; rfl
      · rw [he, codeEntry_clen _ _ (by omega)]; exact hlp
      · rw [he, codeEntry_clen _ _ (by omega), storeTable_nleaf]; omega
      · rw [he]; exact codeEntry_cbits_lt _ _ (by omega)
      · intro h1; rw [storeTable_nleaf] at h1; omega
      · intro _
        rw [hcode, storeTable_root, follow_congr s (s.storeTable ct) (fun _ => rfl), hpath]
        simp only [Option.map_some, ofNat16_toNat hi16]
    · intro i hi
      exact hb i fun l q _ hl => by omega

/-- DRV keeps the invariants (R141). -/
theorem Invariants.storeTable {s : State} (h : Invariants s) (hp : s.status.phase = .built)
    (hv : s.status.rootv = true) {ct : Slots CtEntry} (hw : ct.wf = true)
    (hc : ∀ i, i < s.nleaf.toNat → LeafCode (s.storeTable ct) i) : Invariants (s.storeTable ct) := by
  have hnl : s.status.phase ≠ .load := by rw [hp]; decide
  have hpos : 1 ≤ s.nleaf.toNat := by
    by_contra hcon
    have := (h.absent_flags hnl (by omega)).1
    rw [hv] at this
    cases this
  constructor
  · exact h.nmax_ge
  · exact h.nmax_le
  · exact h.node_wf
  · exact hw
  · exact h.pq_wf
  · exact h.qcnt_eq
  · exact h.nleaf_le
  · intro hx; cases hx
  · intro hx; cases hx
  · intro _; exact h.built_queue hnl
  · intro _; exact h.built_nnode hnl
  · intro _; exact hpos
  · exact h.written
  · exact h.leaf
  · exact h.distinct
  · exact fun k h1 h2 => internalNode_congr s _ k (fun _ _ => rfl) (h.internal k h1 h2)
  · exact h.one_parent
  · exact h.total_eq
  · intro hx; cases hx
  · intro _ hx; have : s.nleaf.toNat = 0 := hx; omega
  · intro _ _; exact h.tree_flags hnl hpos
  · intro _ _; exact h.root_last hnl hpos
  · intro _; exact h.has_parent hnl
  · intro _ _; exact h.root_weight hnl hpos
  · intro _; exact hc

end Sys2Proof.Machine
end

