-- ==== Sys2Proof/Laws/Optimal.lean ====
section
/-! SUPPORT. The combinatorics behind the optimal code (spec/10_state.md R41, R42), on numbers and
bit strings alone: the Kraft inequality of a prefix-free code, the exchange that merges the two
lightest, and the sum over the edges of a tree. -/

namespace Sys2Proof.Laws

/-- The Kraft sum of lengths over a finite set. -/
def kraft {α : Type} (S : Finset α) (len : α → Nat) : ℚ := S.sum fun i => (1 / 2 : ℚ) ^ len i

/-! ### A prefix-free set of bit strings -/

theorem kraft_split (S : Finset (List Bool)) (h : [] ∉ S) (b : Bool) (T : Bool → Finset (List Bool))
    (hT : ∀ b p, p ∈ T b ↔ b :: p ∈ S) :
    kraft S List.length = (1 / 2) * kraft (T b) List.length + (1 / 2) * kraft (T !b) List.length := by
  classical
  have hS : S = (T b).image (List.cons b) ∪ (T !b).image (List.cons !b) := by
    ext q
    simp only [Finset.mem_union, Finset.mem_image, hT]
    constructor
    · intro hq
      cases q with
      | nil => exact absurd hq h
      | cons c p =>
        by_cases hc : c = b
        · subst hc; exact .inl ⟨p, hq, rfl⟩
        · have : c = !b := by cases b <;> cases c <;> simp_all
          subst this; exact .inr ⟨p, hq, rfl⟩
    · rintro (⟨p, hp, rfl⟩ | ⟨p, hp, rfl⟩) <;> exact hp
  have hd : Disjoint ((T b).image (List.cons b)) ((T !b).image (List.cons !b)) := by
    rw [Finset.disjoint_left]
    intro q h1 h2
    obtain ⟨p, -, rfl⟩ := Finset.mem_image.1 h1
    obtain ⟨p', -, e⟩ := Finset.mem_image.1 h2
    cases b <;> simp at e
  have hi : ∀ c : Bool, ((T c).image (List.cons c)).sum (fun q => (1 / 2 : ℚ) ^ q.length) =
      (1 / 2) * kraft (T c) List.length := by
    intro c
    rw [Finset.sum_image (fun _ _ _ _ e => (List.cons.inj e).2), kraft, Finset.mul_sum]
    exact Finset.sum_congr rfl fun p _ => by rw [List.length_cons, pow_succ, mul_comm]
  rw [kraft, hS, Finset.sum_union hd, hi, hi]

/-- The Kraft inequality of a prefix-free set of bit strings. -/
theorem kraft_prefix_free (N : Nat) (S : Finset (List Bool)) (hN : ∀ p ∈ S, p.length ≤ N)
    (h : ∀ p ∈ S, ∀ q ∈ S, p <+: q → p = q) : kraft S List.length ≤ 1 := by
  classical
  induction N generalizing S with
  | zero =>
    have hS : S ⊆ {[]} := fun p hp =>
      Finset.mem_singleton.2 (List.length_eq_zero_iff.1 (Nat.le_zero.1 (hN p hp)))
    calc kraft S List.length ≤ kraft {[]} List.length :=
          Finset.sum_le_sum_of_subset_of_nonneg hS fun _ _ _ => by positivity
      _ = 1 := by simp [kraft]
  | succ N ih =>
    by_cases hn : [] ∈ S
    · have hS : S = {[]} := by
        ext p
        rw [Finset.mem_singleton]
        exact ⟨fun hp => (h [] hn p hp (List.nil_prefix)).symm, fun e => e ▸ hn⟩
      rw [hS]
      simp [kraft]
    · let T : Bool → Finset (List Bool) := fun b =>
        S.preimage (List.cons b) (fun _ _ _ _ e => (List.cons.inj e).2)
      have hT : ∀ b p, p ∈ T b ↔ b :: p ∈ S := fun b p => Finset.mem_preimage
      have hle : ∀ b, kraft (T b) List.length ≤ 1 := fun b => ih (T b)
        (fun p hp => by have := hN _ ((hT b p).1 hp); simpa using this)
        (fun p hp q hq hpq => by
          have := h _ ((hT b p).1 hp) _ ((hT b q).1 hq) (List.cons_prefix_cons.2 ⟨rfl, hpq⟩)
          exact (List.cons.inj this).2)
      rw [kraft_split S hn true T hT]
      have := hle true
      have := hle !true
      linarith

/-- The Kraft inequality of codes named by numbers, no one a prefix of another (R42). -/
theorem kraft_codes (n : Nat) (c : Nat → List Bool)
    (h : ∀ i j, i < n → j < n → i ≠ j → ¬ c i <+: c j) :
    kraft (Finset.range n) (fun i => (c i).length) ≤ 1 := by
  classical
  have hinj : ∀ i ∈ Finset.range n, ∀ j ∈ Finset.range n, c i = c j → i = j := by
    intro i hi j hj e
    by_contra hne
    exact h i j (Finset.mem_range.1 hi) (Finset.mem_range.1 hj) hne (e ▸ List.prefix_rfl)
  have hk : kraft (Finset.range n) (fun i => (c i).length) =
      kraft ((Finset.range n).image c) List.length := by
    unfold kraft
    rw [Finset.sum_image hinj]
  rw [hk]
  refine kraft_prefix_free ((Finset.range n).sup fun i => (c i).length) _ ?_ ?_
  · intro p hp
    obtain ⟨i, hi, rfl⟩ := Finset.mem_image.1 hp
    exact Finset.le_sup (f := fun i => (c i).length) hi
  · intro p hp q hq hpq
    obtain ⟨i, hi, rfl⟩ := Finset.mem_image.1 hp
    obtain ⟨j, hj, rfl⟩ := Finset.mem_image.1 hq
    by_cases e : i = j
    · rw [e]
    · exact absurd hpq (h i j (Finset.mem_range.1 hi) (Finset.mem_range.1 hj) e)

/-! ### The exchange -/

/-- Swapping the lengths of two members leaves the Kraft sum, and costs no more when the lighter
one had the shorter length. -/
theorem swap_lengths {α : Type} [DecidableEq α] (S : Finset α) (w len : α → Nat) (a x : α)
    (ha : a ∈ S) (hx : x ∈ S) (hw : w a ≤ w x) (hl : len a ≤ len x) :
    kraft S (fun i => len (Equiv.swap a x i)) = kraft S len ∧
      S.sum (fun i => w i * len (Equiv.swap a x i)) ≤ S.sum (fun i => w i * len i) := by
  have hmem : ∀ i, i ∈ S ↔ Equiv.swap a x i ∈ S := by
    intro i
    by_cases h1 : i = a
    · subst h1; simp [ha, hx]
    · by_cases h2 : i = x
      · subst h2; simp [ha, hx]
      · rw [Equiv.swap_apply_of_ne_of_ne h1 h2]
  refine ⟨Finset.sum_equiv (Equiv.swap a x) hmem fun _ _ => rfl, ?_⟩
  by_cases hax : a = x
  · subst hax; simp
  · have hx' : x ∈ S.erase a := Finset.mem_erase.2 ⟨Ne.symm hax, hx⟩
    rw [← Finset.add_sum_erase S _ ha, ← Finset.add_sum_erase _ _ hx',
      ← Finset.add_sum_erase S _ ha, ← Finset.add_sum_erase _ (fun i => w i * len i) hx']
    have hrest : ((S.erase a).erase x).sum (fun i => w i * len (Equiv.swap a x i)) =
        ((S.erase a).erase x).sum (fun i => w i * len i) :=
      Finset.sum_congr rfl fun i hi => by
        rw [Finset.mem_erase, Finset.mem_erase] at hi
        rw [Equiv.swap_apply_of_ne_of_ne hi.2.1 hi.1]
    simp only [Equiv.swap_apply_left, Equiv.swap_apply_right, hrest]
    obtain ⟨d, hd⟩ := Nat.exists_eq_add_of_le hw
    obtain ⟨e, he⟩ := Nat.exists_eq_add_of_le hl
    rw [hd, he]
    nlinarith [Nat.zero_le (d * e)]

/-- The longest of a set may be cut down to a length no other member passes. -/
theorem shorten_longest {α : Type} (R : Finset α) (len : α → Nat) (l e : Nat) (hle : e ≤ l)
    (hR : ∀ i ∈ R, len i ≤ e) (hk : kraft R len + (1 / 2 : ℚ) ^ l ≤ 1) :
    kraft R len + (1 / 2 : ℚ) ^ e ≤ 1 := by
  have hpow : ∀ k, k ≤ e → (1 / 2 : ℚ) ^ k = ((2 ^ (e - k) : Nat) : ℚ) * (1 / 2 : ℚ) ^ e := by
    intro k hk
    obtain ⟨d, rfl⟩ := Nat.exists_eq_add_of_le hk
    rw [Nat.add_sub_cancel_left, pow_add]
    push_cast
    rw [mul_comm ((1 / 2 : ℚ) ^ k), ← mul_assoc, ← mul_pow]
    norm_num
  have hsum : kraft R len = ((R.sum fun i => 2 ^ (e - len i) : Nat) : ℚ) * (1 / 2 : ℚ) ^ e := by
    rw [Nat.cast_sum, Finset.sum_mul, kraft]
    exact Finset.sum_congr rfl fun i hi => hpow _ (hR i hi)
  have h2 : ((2 ^ e : Nat) : ℚ) * (1 / 2 : ℚ) ^ e = 1 := by
    push_cast
    rw [← mul_pow]
    norm_num
  have hpos : (0 : ℚ) < (1 / 2 : ℚ) ^ l := by positivity
  have hpos' : (0 : ℚ) < (1 / 2 : ℚ) ^ e := by positivity
  have hlt : ((R.sum fun i => 2 ^ (e - len i) : Nat) : ℚ) < ((2 ^ e : Nat) : ℚ) := by
    rw [← mul_lt_mul_iff_left₀ hpos', ← hsum, h2]
    linarith
  have hlt' : (R.sum fun i => 2 ^ (e - len i)) + 1 ≤ 2 ^ e := Nat.cast_lt.1 hlt
  have hle' : (((R.sum fun i => 2 ^ (e - len i)) + 1 : Nat) : ℚ) ≤ ((2 ^ e : Nat) : ℚ) :=
    Nat.cast_le.2 hlt'
  have h3 := mul_le_mul_of_nonneg_right hle' hpos'.le
  rw [h2, Nat.cast_add, Nat.cast_one, add_mul, one_mul] at h3
  rw [hsum]
  exact h3

/-- The two lightest merged: lengths for the set with them replaced by one of their joint weight,
that fit as well and, with that weight, cost no more (R42). -/
theorem merge_lengths {α : Type} [DecidableEq α] (S : Finset α) (w len : α → Nat) (a b : α)
    (ha : a ∈ S) (hb : b ∈ S) (hab : a ≠ b) (hwa : ∀ j ∈ S, j ≠ a → w a ≤ w j)
    (hwb : ∀ j ∈ S, j ≠ a → j ≠ b → w b ≤ w j) (hk : kraft S len ≤ 1) :
    ∃ (len' : α → Nat) (l : Nat),
      kraft ((S.erase a).erase b) len' + (1 / 2 : ℚ) ^ l ≤ 1 ∧
      ((S.erase a).erase b).sum (fun i => w i * len' i) + (w a + w b) * l + (w a + w b) ≤
        S.sum (fun i => w i * len i) := by
  -- give `a` the longest length
  obtain ⟨x, hx, hxmax⟩ := Finset.exists_max_image S len ⟨a, ha⟩
  have hwx : w a ≤ w x := by
    by_cases e : x = a
    · rw [e]
    · exact hwa x hx e
  obtain ⟨k1, c1⟩ := swap_lengths S w len a x ha hx hwx (hxmax a ha)
  generalize hl1 : (fun i => len (Equiv.swap a x i)) = len1 at k1
  have hl1a : ∀ i, len (Equiv.swap a x i) = len1 i := fun i => congrFun hl1 i
  simp only [hl1a] at c1
  have hmax1 : ∀ i ∈ S, len1 i ≤ len1 a := by
    intro i hi
    rw [← hl1a, ← hl1a, Equiv.swap_apply_left]
    apply hxmax
    by_cases h1 : i = a
    · subst h1; simpa using hx
    · by_cases h2 : i = x
      · subst h2; simpa using ha
      · rwa [Equiv.swap_apply_of_ne_of_ne h1 h2]
  -- give `b` the longest length but that
  have hb' : b ∈ S.erase a := Finset.mem_erase.2 ⟨Ne.symm hab, hb⟩
  obtain ⟨y, hy, hymax⟩ := Finset.exists_max_image (S.erase a) len1 ⟨b, hb'⟩
  have hwy : w b ≤ w y := by
    by_cases e : y = b
    · rw [e]
    · exact hwb y (Finset.mem_of_mem_erase hy) (Finset.ne_of_mem_erase hy) e
  have ek : ∀ f : α → Nat, kraft S f = (1 / 2 : ℚ) ^ f a + kraft (S.erase a) f := fun f =>
    (Finset.add_sum_erase S _ ha).symm
  have ek' : ∀ f : α → Nat, kraft (S.erase a) f = (1 / 2 : ℚ) ^ f b + kraft ((S.erase a).erase b) f :=
    fun f => (Finset.add_sum_erase _ _ hb').symm
  have ec : ∀ f : α → Nat, S.sum (fun i => w i * f i) =
      w a * f a + (w b * f b + ((S.erase a).erase b).sum (fun i => w i * f i)) := fun f => by
    rw [← Finset.add_sum_erase S _ ha, ← Finset.add_sum_erase _ (fun i => w i * f i) hb']
  obtain ⟨k2, c2⟩ := swap_lengths (S.erase a) w len1 b y hb' hy hwy (hymax b hb')
  generalize hl2 : (fun i => len1 (Equiv.swap b y i)) = len2 at k2
  have hl2a : ∀ i, len1 (Equiv.swap b y i) = len2 i := fun i => congrFun hl2 i
  simp only [hl2a] at c2
  have hmax2 : ∀ i ∈ (S.erase a).erase b, len2 i ≤ len2 b := by
    intro i hi
    rw [Finset.mem_erase] at hi
    rw [← hl2a, ← hl2a, Equiv.swap_apply_left]
    apply hymax
    by_cases h2 : i = y
    · subst h2; simpa using hb'
    · rw [Equiv.swap_apply_of_ne_of_ne hi.1 h2]; exact hi.2
  have hle : len2 b ≤ len1 a := by
    rw [← hl2a, Equiv.swap_apply_left]
    exact hmax1 y (Finset.mem_of_mem_erase hy)
  -- cut the longest down to that, and join
  have hk2 : kraft (S.erase a) len2 + (1 / 2 : ℚ) ^ len1 a ≤ 1 := by
    rw [k2]
    have := ek len1
    linarith
  have hmax2' : ∀ i ∈ S.erase a, len2 i ≤ len2 b := by
    intro i hi
    by_cases h : i = b
    · rw [h]
    · exact hmax2 i (Finset.mem_erase.2 ⟨h, hi⟩)
  have hk3 := shorten_longest (S.erase a) len2 (len1 a) (len2 b) hle hmax2' hk2
  have hpos : 1 ≤ len2 b := by
    by_contra h0
    have h0 : len2 b = 0 := by omega
    rw [ek' len2, h0] at hk3
    have : 0 ≤ kraft ((S.erase a).erase b) len2 :=
      Finset.sum_nonneg fun _ _ => by positivity
    norm_num at hk3
    linarith
  refine ⟨len2, len2 b - 1, ?_, ?_⟩
  · rw [ek' len2] at hk3
    have : (1 / 2 : ℚ) ^ (len2 b - 1) = (1 / 2 : ℚ) ^ len2 b + (1 / 2 : ℚ) ^ len2 b := by
      obtain ⟨d, hd⟩ := Nat.exists_eq_add_of_le hpos
      rw [hd, Nat.add_sub_cancel_left, pow_add]
      ring
    linarith
  · have e1 := ec len
    have e2 := ec len1
    have e3 : (S.erase a).sum (fun i => w i * len1 i) =
        w b * len1 b + ((S.erase a).erase b).sum (fun i => w i * len1 i) :=
      (Finset.add_sum_erase _ _ hb').symm
    have e4 : (S.erase a).sum (fun i => w i * len2 i) =
        w b * len2 b + ((S.erase a).erase b).sum (fun i => w i * len2 i) :=
      (Finset.add_sum_erase _ _ hb').symm
    have e5 : w a * len2 b ≤ w a * len1 a := Nat.mul_le_mul_left _ hle
    obtain ⟨d, hd⟩ := Nat.exists_eq_add_of_le hpos
    rw [hd, Nat.add_sub_cancel_left]
    rw [hd] at e4 e5
    nlinarith

/-! ### The edges of a tree -/

/-- Every node but the root is one child of one inner node: a sum over the nodes is the root's part
and a sum over the edges (R40). -/
theorem edge_sum {M : Type} [AddCommMonoid M] (n m root : Nat) (l r : Nat → Nat) (f : Nat → M)
    (hroot : root < m) (hl : ∀ k, n ≤ k → k < m → l k < m ∧ l k ≠ root)
    (hr : ∀ k, n ≤ k → k < m → r k < m ∧ r k ≠ root) (hne : ∀ k, n ≤ k → k < m → l k ≠ r k)
    (hone : ∀ j k k', n ≤ k → k < m → n ≤ k' → k' < m → (l k = j ∨ r k = j) →
      (l k' = j ∨ r k' = j) → k = k')
    (hpar : ∀ j, j < m → j ≠ root → ∃ k, n ≤ k ∧ k < m ∧ (l k = j ∨ r k = j)) :
    (Finset.range m).sum f = f root + (Finset.Ico n m).sum (fun k => f (l k) + f (r k)) := by
  classical
  have hU : (Finset.range m).erase root = (Finset.Ico n m).biUnion fun k => {l k, r k} := by
    ext j
    simp only [Finset.mem_erase, Finset.mem_range, Finset.mem_biUnion, Finset.mem_Ico,
      Finset.mem_insert, Finset.mem_singleton]
    constructor
    · rintro ⟨h1, h2⟩
      obtain ⟨k, k1, k2, k3⟩ := hpar j h2 h1
      exact ⟨k, ⟨k1, k2⟩, k3.imp Eq.symm Eq.symm⟩
    · rintro ⟨k, ⟨k1, k2⟩, rfl | rfl⟩
      · exact ⟨(hl k k1 k2).2, (hl k k1 k2).1⟩
      · exact ⟨(hr k k1 k2).2, (hr k k1 k2).1⟩
  have hd : ∀ k ∈ Finset.Ico n m, ∀ k' ∈ Finset.Ico n m, k ≠ k' →
      Disjoint ({l k, r k} : Finset Nat) {l k', r k'} := by
    intro k hk k' hk' hkk
    rw [Finset.mem_Ico] at hk hk'
    rw [Finset.disjoint_left]
    intro j h1 h2
    simp only [Finset.mem_insert, Finset.mem_singleton] at h1 h2
    exact hkk (hone j k k' hk.1 hk.2 hk'.1 hk'.2 (h1.imp Eq.symm Eq.symm)
      (h2.imp Eq.symm Eq.symm))
  rw [← Finset.add_sum_erase _ _ (Finset.mem_range.2 hroot), hU, Finset.sum_biUnion hd]
  congr 1
  refine Finset.sum_congr rfl fun k hk => ?_
  rw [Finset.mem_Ico] at hk
  exact Finset.sum_pair (hne k hk.1 hk.2)

end Sys2Proof.Laws
end

