-- ==== Sys2Proof/Laws/Depth.lean ====
section
/-! SUPPORT. Depths in a built tree (spec/10_state.md R40 to R42): the depth of each node, the sum
over the edges, and what a merge does to any other choice of code lengths. -/

namespace Sys2Proof.Machine

/-- Each node of a built tree has a depth: 0 at the root, one more at a child, and the length of
the path to the node (R40). -/
theorem Invariants.depths {s : State} (h : Invariants s) (hp : s.status.phase ≠ .load)
    (hn : 1 ≤ s.nleaf.toNat) :
    ∃ d : Nat → Nat, d s.root.toNat = 0 ∧
      (∀ k, s.nleaf.toNat ≤ k → k < s.nnode.toNat →
        d (s.nodeAt k).left.toNat = d k + 1 ∧ d (s.nodeAt k).right.toNat = d k + 1) ∧
      ∀ (j : Index) (p : List Bool), s.follow s.root p = some j → d j.toNat = p.length := by
  classical
  have hm := h.built_nnode hp
  have hr := h.root_last hp hn
  have hT := h.treeOk
  have hroot : s.root.toNat < s.nnode.toNat := by omega
  have hm16 := s.nnode.isLt
  let d : Nat → Nat := fun j =>
    if hj : ∃ p, s.follow s.root p = some (BitVec.ofNat 16 j) then hj.choose.length else 0
  have hd : ∀ (j : Index) (p : List Bool), s.follow s.root p = some j → d j.toNat = p.length := by
    intro j p hf
    have e : BitVec.ofNat 16 j.toNat = j := BitVec.ofNat_toNat 16 j |>.trans (by simp)
    have hj : ∃ p, s.follow s.root p = some (BitVec.ofNat 16 j.toNat) := ⟨p, by rw [e]; exact hf⟩
    have hc : s.follow s.root hj.choose = some j := hj.choose_spec.trans (congrArg some e)
    show (if hj : ∃ p, s.follow s.root p = some (BitVec.ofNat 16 j.toNat) then hj.choose.length
      else 0) = p.length
    rw [dif_pos hj]
    exact congrArg List.length (hT.follow_inj hroot hc hf)
  refine ⟨d, hd s.root [] rfl, fun k h1 h2 => ?_, hd⟩
  have hkt : (BitVec.ofNat 16 k).toNat = k := ofNat16_toNat (by omega)
  obtain ⟨p, hpk⟩ := h.reach hp (BitVec.ofNat 16 k) (by rw [hkt]; exact h2)
  have hk : d k = p.length := by
    have := hd _ p hpk
    rwa [hkt] at this
  have hkind := (h.internal k h1 h2).kind
  have step : ∀ b, s.follow s.root (p ++ [b]) = some (s.child (BitVec.ofNat 16 k) b) := by
    intro b
    rw [follow_append, hpk]
    simp only [Option.bind_some, follow_cons, hkt, hkind]
    rfl
  have hl := hd _ _ (step false)
  have hr' := hd _ _ (step true)
  simp only [State.child, hkt, List.length_append, List.length_singleton, Bool.false_eq_true,
    if_false, if_true] at hl hr'
  exact ⟨by omega, by omega⟩

/-- The sum over the nodes of a built tree is the root's part and the sum over the edges (R40). -/
theorem Invariants.edge_sum {M : Type} [AddCommMonoid M] {s : State} (h : Invariants s)
    (hp : s.status.phase ≠ .load) (hn : 1 ≤ s.nleaf.toNat) (f : Nat → M) :
    (Finset.range s.nnode.toNat).sum f = f s.root.toNat +
      (Finset.Ico s.nleaf.toNat s.nnode.toNat).sum
        (fun k => f (s.nodeAt k).left.toNat + f (s.nodeAt k).right.toNat) := by
  have hm := h.built_nnode hp
  have hr := h.root_last hp hn
  refine Laws.edge_sum s.nleaf.toNat s.nnode.toNat s.root.toNat (fun k => (s.nodeAt k).left.toNat)
    (fun k => (s.nodeAt k).right.toNat) f (by omega) ?_ ?_ ?_ h.one_parent (h.has_parent hp)
  · intro k h1 h2
    have := (h.internal k h1 h2).left_lt
    exact ⟨by omega, by omega⟩
  · intro k h1 h2
    have := (h.internal k h1 h2).right_lt
    exact ⟨by omega, by omega⟩
  · intro k h1 h2
    exact toNat_ne (h.internal k h1 h2).left_ne_right

/-- The cost of a tree's own depths is the sum of the weights of its internal nodes (R42). -/
theorem Invariants.cost_depths {s : State} (h : Invariants s) (hp : s.status.phase ≠ .load)
    (hn : 1 ≤ s.nleaf.toNat) (d : Nat → Nat) (h0 : d s.root.toNat = 0)
    (hd : ∀ k, s.nleaf.toNat ≤ k → k < s.nnode.toNat →
      d (s.nodeAt k).left.toNat = d k + 1 ∧ d (s.nodeAt k).right.toNat = d k + 1) :
    s.cost d = (Finset.Ico s.nleaf.toNat s.nnode.toNat).sum s.wtN := by
  have hm := h.built_nnode hp
  have he := h.edge_sum hp hn (fun j => s.wtN j * d j)
  have hsplit := Finset.sum_range_add_sum_Ico (fun j => s.wtN j * d j)
    (show s.nleaf.toNat ≤ s.nnode.toNat by omega)
  have hk : (Finset.Ico s.nleaf.toNat s.nnode.toNat).sum
      (fun k => s.wtN (s.nodeAt k).left.toNat * d (s.nodeAt k).left.toNat +
        s.wtN (s.nodeAt k).right.toNat * d (s.nodeAt k).right.toNat) =
      (Finset.Ico s.nleaf.toNat s.nnode.toNat).sum (fun k => s.wtN k * d k) +
        (Finset.Ico s.nleaf.toNat s.nnode.toNat).sum s.wtN := by
    rw [← Finset.sum_add_distrib]
    refine Finset.sum_congr rfl fun k hk => ?_
    rw [Finset.mem_Ico] at hk
    obtain ⟨e1, e2⟩ := hd k hk.1 hk.2
    have hw : s.wtN k = s.wtN (s.nodeAt k).left.toNat + s.wtN (s.nodeAt k).right.toNat :=
      (h.internal k hk.1 hk.2).weight
    rw [e1, e2, hw]
    ring
  rw [hk, h0, Nat.mul_zero, Nat.zero_add] at he
  have hc : s.cost d = (Finset.range s.nleaf.toNat).sum (fun j => s.wtN j * d j) := rfl
  omega

/-- One merge, and any lengths for the members of the queue: there are lengths for the queue after
it that fit as well, and with the new node's weight cost no more (R42). -/
theorem Forest.merge_lengths {s : State} (hf : Forest s) (hq : 2 ≤ s.qcnt.toNat) {a b : Index}
    (ha : s.lowest s.pq = some a) (hb : s.lowest (pqRemove a s.pq) = some b) (len : Index → Nat)
    (hk : Laws.kraft s.pq.toFinset len ≤ 1) :
    ∃ len' : Index → Nat, Laws.kraft (s.merged a b).pq.toFinset len' ≤ 1 ∧
      (s.merged a b).pq.toFinset.sum (fun i => (s.merged a b).wtN i.toNat * len' i) +
        (s.merged a b).wtN s.nnode.toNat ≤ s.pq.toFinset.sum (fun i => s.wtN i.toNat * len i) := by
  classical
  obtain ⟨ham, halow⟩ := lowest_spec s _ a ha
  obtain ⟨hbm, hblow⟩ := lowest_spec s _ b hb
  have hba := ((mem_pqRemove _ _ _).1 hbm).2
  have hbs := ((mem_pqRemove _ _ _).1 hbm).1
  have hwle : ∀ {i j : Index}, s.keyLower i j = true → s.wtN i.toNat ≤ s.wtN j.toNat := by
    intro i j hij
    rw [keyLower_iff] at hij
    rcases hij with hij | hij <;> (unfold State.wtN; omega)
  obtain ⟨len', l, k1, c1⟩ := Laws.merge_lengths s.pq.toFinset (fun i => s.wtN i.toNat) len a b
    (List.mem_toFinset.2 ham) (List.mem_toFinset.2 hbs) (Ne.symm hba)
    (fun j hj hja => hwle (halow j (List.mem_toFinset.1 hj) hja))
    (fun j hj hja hjb =>
      hwle (hblow j ((mem_pqRemove _ _ _).2 ⟨List.mem_toFinset.1 hj, hja⟩) hjb)) hk
  have hS : (s.merged a b).pq.toFinset = insert s.nnode ((s.pq.toFinset.erase a).erase b) := by
    ext i
    simp only [merged_pq, List.mem_toFinset, mem_pqInsert, mem_pqRemove, Finset.mem_insert,
      Finset.mem_erase]
    tauto
  have hnot : s.nnode ∉ (s.pq.toFinset.erase a).erase b := by
    intro hin
    simp only [Finset.mem_erase, List.mem_toFinset] at hin
    exact Nat.lt_irrefl _ (hf.members _ hin.2.2)
  have hnew : (s.merged a b).wtN s.nnode.toNat = s.wtN a.toNat + s.wtN b.toNat := by
    have hI := (hf.merged hq ha hb).internal s.nnode.toNat hf.nleaf_le_nnode (by
      rw [merged_nnode, toNat_succ]
      · omega
      · have := hf.count; have := hf.nleaf_le; have := hf.nmax_le; omega)
    have hw := hI.weight
    have hN : (s.merged a b).nodeAt s.nnode.toNat = mergedNode s a b := by
      rw [merged_nodeAt, if_pos rfl]
    rw [hN] at hw
    have hma := hf.members a ham
    have hmb := hf.members b hbs
    simp only [mergedNode] at hw
    rw [merged_nodeAt s a b a.toNat, merged_nodeAt s a b b.toNat, if_neg (by omega),
      if_neg (by omega)] at hw
    unfold State.wtN
    rw [hN]
    exact hw
  refine ⟨fun i => if i = s.nnode then l else len' i, ?_, ?_⟩
  · rw [hS, Laws.kraft, Finset.sum_insert hnot, if_pos rfl, add_comm]
    refine le_trans (le_of_eq ?_) k1
    congr 1
    refine Finset.sum_congr rfl fun i hi => ?_
    rw [if_neg (fun e : i = s.nnode => hnot (e ▸ hi))]
  · rw [hS, Finset.sum_insert hnot, hnew]
    simp only [if_true]
    have hrest : ((s.pq.toFinset.erase a).erase b).sum
        (fun i => (s.merged a b).wtN i.toNat * if i = s.nnode then l else len' i) =
        ((s.pq.toFinset.erase a).erase b).sum (fun i => s.wtN i.toNat * len' i) := by
      refine Finset.sum_congr rfl fun i hi => ?_
      have hi' : i ∈ s.pq := by
        simp only [Finset.mem_erase, List.mem_toFinset] at hi
        exact hi.2.2
      have := hf.members i hi'
      rw [if_neg (fun e : i = s.nnode => hnot (e ▸ hi))]
      unfold State.wtN
      rw [merged_nodeAt, if_neg (by omega)]
    rw [hrest]
    linarith

end Sys2Proof.Machine
end

