-- ==== Sys2Proof/Laws/Encoding.lean ====
section
/-! SUPPORT. The fields of a command word (spec/30_encoding.md R80, R81): a word is its three
fields, and each field of a word made of three is the one put in. -/

namespace Sys2Proof.Machine

@[simp] theorem opField_commandWord (o : BitVec 8) (a : BitVec 24) (b : BitVec 32) :
    opField (commandWord o a b) = o := by
  apply BitVec.eq_of_getLsbD_eq
  intro i hi
  simp only [opField, commandWord, BitVec.getLsbD_extractLsb', BitVec.getLsbD_append]
  simp [show ¬ 56 + i < 32 by omega, show ¬ 56 + i - 32 < 24 by omega, hi,
    show 56 + i - 32 - 24 = i by omega]

@[simp] theorem aField_commandWord (o : BitVec 8) (a : BitVec 24) (b : BitVec 32) :
    aField (commandWord o a b) = a := by
  apply BitVec.eq_of_getLsbD_eq
  intro i hi
  simp only [aField, commandWord, BitVec.getLsbD_extractLsb', BitVec.getLsbD_append]
  simp [show ¬ 32 + i < 32 by omega, hi, show 32 + i - 32 = i by omega]

@[simp] theorem bField_commandWord (o : BitVec 8) (a : BitVec 24) (b : BitVec 32) :
    bField (commandWord o a b) = b := by
  apply BitVec.eq_of_getLsbD_eq
  intro i hi
  simp only [bField, commandWord, BitVec.getLsbD_extractLsb', BitVec.getLsbD_append]
  simp [hi]

/-- A word is its three fields. -/
theorem commandWord_fields (cw : CmdWord) : commandWord (opField cw) (aField cw) (bField cw) = cw := by
  apply BitVec.eq_of_getLsbD_eq
  intro i hi
  simp only [commandWord, opField, aField, bField, BitVec.getLsbD_append,
    BitVec.getLsbD_extractLsb']
  by_cases h1 : i < 32
  · simp [h1]
  · by_cases h2 : i - 32 < 24
    · simp [h1, h2, show 32 + (i - 32) = i by omega]
    · simp [h1, h2, show i - 32 - 24 < 8 by omega, show 56 + (i - 32 - 24) = i by omega]

/-- A word of three fields as a number. -/
theorem commandWord_toNat (o : BitVec 8) (a : BitVec 24) (b : BitVec 32) :
    (commandWord o a b).toNat = o.toNat * 2 ^ 56 + a.toNat * 2 ^ 32 + b.toNat := by
  have h1 : (o ++ a ++ b : BitVec 64).toNat = (o ++ a).toNat * 2 ^ 32 + b.toNat := by
    rw [BitVec.toNat_append, Nat.shiftLeft_eq, Nat.mul_comm, ← Nat.two_pow_add_eq_or_of_lt b.isLt]
  have h2 : (o ++ a : BitVec 32).toNat = o.toNat * 2 ^ 24 + a.toNat := by
    rw [BitVec.toNat_append, Nat.shiftLeft_eq, Nat.mul_comm, ← Nat.two_pow_add_eq_or_of_lt a.isLt]
  unfold commandWord
  rw [h1, h2]
  omega

theorem opField_toNat (cw : CmdWord) : (opField cw).toNat = cw.toNat / 2 ^ 56 := by
  have := commandWord_toNat (opField cw) (aField cw) (bField cw)
  rw [commandWord_fields] at this
  have := (aField cw).isLt
  have := (bField cw).isLt
  omega

theorem aField_toNat (cw : CmdWord) : (aField cw).toNat = cw.toNat / 2 ^ 32 % 2 ^ 24 := by
  have := commandWord_toNat (opField cw) (aField cw) (bField cw)
  rw [commandWord_fields] at this
  have := (aField cw).isLt
  have := (bField cw).isLt
  omega

theorem bField_toNat (cw : CmdWord) : (bField cw).toNat = cw.toNat % 2 ^ 32 := by
  have := commandWord_toNat (opField cw) (aField cw) (bField cw)
  rw [commandWord_fields] at this
  have := (aField cw).isLt
  have := (bField cw).isLt
  omega

/-- Two words of fields are equal when their fields are. -/
theorem commandWord_inj {o o' : BitVec 8} {a a' : BitVec 24} {b b' : BitVec 32} :
    commandWord o a b = commandWord o' a' b' ↔ o = o' ∧ a = a' ∧ b = b' := by
  constructor
  · intro h
    have h1 := congrArg opField h
    have h2 := congrArg aField h
    have h3 := congrArg bField h
    simp only [opField_commandWord, aField_commandWord, bField_commandWord] at h1 h2 h3
    exact ⟨h1, h2, h3⟩
  · rintro ⟨rfl, rfl, rfl⟩; rfl

/-- The bitwise and of two words is that of their fields. -/
theorem commandWord_and (o o' : BitVec 8) (a a' : BitVec 24) (b b' : BitVec 32) :
    commandWord o a b &&& commandWord o' a' b' =
      commandWord (o &&& o') (a &&& a') (b &&& b') := by
  unfold commandWord
  rw [BitVec.and_append, BitVec.and_append]

/-- A word matches a row when each field does (R84). -/
theorem fits_iff (r : OpcodeRow) (cw : CmdWord) : r.fits cw ↔
    opField cw &&& opField r.mask = opField r.pattern ∧
      aField cw &&& aField r.mask = aField r.pattern ∧
      bField cw &&& bField r.mask = bField r.pattern := by
  unfold OpcodeRow.fits
  conv_lhs =>
    rw [← commandWord_fields cw, ← commandWord_fields r.mask, ← commandWord_fields r.pattern]
  rw [commandWord_and, commandWord_inj]

theorem and_mask_high {m n : Nat} (x : BitVec (m + n)) (h : BitVec (m + n))
    (hh : ∀ i, h.getLsbD i = (decide (n ≤ i) && decide (i < m + n))) :
    x &&& h = 0 ↔ x.extractLsb' n m = 0 := by
  constructor
  · intro e
    apply BitVec.eq_of_getLsbD_eq
    intro i hi
    have := congrArg (fun v => v.getLsbD (n + i)) e
    simp only [BitVec.getLsbD_and, hh, BitVec.ofNat_eq_ofNat, BitVec.getLsbD_zero] at this
    simp only [BitVec.getLsbD_extractLsb', BitVec.ofNat_eq_ofNat, BitVec.getLsbD_zero]
    simpa [hi, show n + i < m + n by omega] using this
  · intro e
    apply BitVec.eq_of_getLsbD_eq
    intro i hi
    simp only [BitVec.getLsbD_and, hh, BitVec.ofNat_eq_ofNat, BitVec.getLsbD_zero]
    by_cases hn : n ≤ i
    · have := congrArg (fun v => v.getLsbD (i - n)) e
      simp only [BitVec.getLsbD_extractLsb', BitVec.ofNat_eq_ofNat, BitVec.getLsbD_zero] at this
      have h2 : i - n < m := by omega
      simp only [h2, decide_true, Bool.true_and, show n + (i - n) = i by omega] at this
      simp [this]
    · simp [hn]

/-- The must-be-zero part of a, as a mask (R85). -/
theorem aHigh_zero_iff (cw : CmdWord) : aField cw &&& 0xFF0000#24 = 0 ↔ aHigh cw = 0 :=
  and_mask_high (m := 8) (n := 16) (aField cw) 0xFF0000#24 (by
    intro i
    by_cases h : i < 24
    · interval_cases i <;> rfl
    · rw [BitVec.getLsbD_of_ge _ _ (by omega)]; simp; omega)

/-- The must-be-zero part of b, as a mask (R85). -/
theorem bHigh_zero_iff (cw : CmdWord) : bField cw &&& 0xFFFF0000#32 = 0 ↔ bHigh cw = 0 :=
  and_mask_high (m := 16) (n := 16) (bField cw) 0xFFFF0000#32 (by
    intro i
    by_cases h : i < 32
    · interval_cases i <;> rfl
    · rw [BitVec.getLsbD_of_ge _ _ (by omega)]; simp; omega)

@[simp] theorem high_append (m n : Nat) (x : BitVec n) : (0#m ++ x).extractLsb' n m = 0 := by
  apply BitVec.eq_of_getLsbD_eq
  intro i hi
  simp [BitVec.getLsbD_extractLsb', BitVec.getLsbD_append]

@[simp] theorem low_append (m n : Nat) (x : BitVec n) : (0#m ++ x).extractLsb' 0 n = x := by
  apply BitVec.eq_of_getLsbD_eq
  intro i hi
  simp [BitVec.getLsbD_append, hi]

/-- A field whose high part is 0 is its low part. -/
theorem append_low {m n : Nat} (x : BitVec (m + n)) (h : x.extractLsb' n m = 0) :
    0#m ++ x.extractLsb' 0 n = x := by
  apply BitVec.eq_of_getLsbD_eq
  intro i hi
  simp only [BitVec.getLsbD_append, BitVec.getLsbD_extractLsb']
  by_cases h1 : i < n
  · simp [h1]
  · have := congrArg (fun v => v.getLsbD (i - n)) h
    simp only [BitVec.getLsbD_extractLsb', BitVec.ofNat_eq_ofNat, BitVec.getLsbD_zero] at this
    have h2 : i - n < m := by omega
    simp only [h2, decide_true, Bool.true_and, show n + (i - n) = i by omega] at this
    simp [h1, this]

/-- The high part of an operand word with zeros above it, and its number (R85). -/
@[simp] theorem zero16_append_toNat (x : BitVec 16) : (0#16 ++ x : BitVec 32).toNat = x.toNat := by
  rw [BitVec.toNat_append]
  simp

@[simp] theorem zero8_append_toNat (x : BitVec 16) : (0#8 ++ x : BitVec 24).toNat = x.toNat := by
  rw [BitVec.toNat_append]
  simp

@[simp] theorem zero24_append_toNat (x : BitVec 32) : (0#24 ++ x : BitVec 56).toNat = x.toNat := by
  rw [BitVec.toNat_append]
  simp

/-! ### What each format's decoder answers (R85) -/

theorem decodeZ_ok {i j : Instr} {cw : CmdWord} :
    decodeZ i cw = .ok j ↔ i = j ∧ aField cw = 0 ∧ bField cw = 0 := by
  unfold decodeZ
  split
  · next h => simp [h]
  · next h => exact ⟨fun e => (nomatch e), fun e => absurd e.2 h⟩

theorem decodeS_ok {f : BitVec 16 → Instr} {j : Instr} {cw : CmdWord} :
    decodeS f cw = .ok j ↔ f (selOperand cw) = j ∧ aField cw = 0 ∧ bHigh cw = 0 := by
  unfold decodeS
  split
  · next h => simp [h]
  · next h => exact ⟨fun e => (nomatch e), fun e => absurd e.2 h⟩

theorem decodeX_ok {f : Index → BitVec 16 → Instr} {j : Instr} {cw : CmdWord} :
    decodeX f cw = .ok j ↔
      f (idxOperand cw) (selOperand cw) = j ∧ aHigh cw = 0 ∧ bHigh cw = 0 := by
  unfold decodeX
  split
  · next h => simp [h]
  · next h => exact ⟨fun e => (nomatch e), fun e => absurd e.2 h⟩

/-- A word matches a row by its three fields (R84). -/
theorem fits_of {r : OpcodeRow} {o : BitVec 8} {ma pa : BitVec 24} {mb pb : BitVec 32}
    (hm : r.mask = commandWord 0xFF#8 ma mb) (hp : r.pattern = commandWord o pa pb) (cw : CmdWord) :
    r.fits cw ↔ opField cw = o ∧ aField cw &&& ma = pa ∧ bField cw &&& mb = pb := by
  have e : opField cw &&& 0xFF#8 = opField cw := BitVec.and_allOnes
  rw [fits_iff, hm, hp]
  simp only [opField_commandWord, aField_commandWord, bField_commandWord, e]

end Sys2Proof.Machine
end

