-- ==== Sys2Proof/Laws/Exec.lean ====
section
/-! SUPPORT. What each command can do: if its meaning answers a next state, one of these cases
holds. And each meaning keeps the invariants. -/

namespace Sys2Proof.Machine

theorem hasSymbol_iff (s : State) (sym : Symbol) :
    s.hasSymbol sym = true ↔ ∃ i, i < s.nleaf.toNat ∧ (s.nodeAt i).sym = sym := by
  simp [State.hasSymbol]

theorem locked_iff (st : Status) : st.locked = true ↔ st.err ≠ none := by
  cases h : st.err <;> simp [Status.locked, h]

theorem not_locked_iff (st : Status) : ¬ st.locked = true ↔ st.err = none := by
  cases h : st.err <;> simp [Status.locked, h]

/-- The fault action answers a next state. -/
theorem faults_eq (e : Err) (s t : State) : faults e s = .next t ↔ t = raiseFault e s := by
  unfold faults
  constructor
  · intro h; cases h; rfl
  · rintro rfl; rfl

theorem execLdf_cases (sym : Symbol) (cnt : Weight) (s t : State)
    (h : execLdf sym cnt s = .next t) :
    (∃ e, t = raiseFault e s) ∨
      (s.status.err = none ∧ s.status.phase = .load ∧ s.nleaf ≠ s.nmax ∧
        (∀ i, i < s.nleaf.toNat → (s.nodeAt i).sym ≠ sym) ∧
        s.total.toNat + cnt.toNat ≤ 4294967295 ∧
        t = complete (s.nleaf.setWidth 32) (s.loadLeaf sym cnt)) := by
  unfold execLdf at h
  split at h
  · exact .inl ⟨_, (faults_eq _ _ _).1 h⟩
  · next h1 =>
    split at h
    · exact .inl ⟨_, (faults_eq _ _ _).1 h⟩
    · next h2 =>
      split at h
      · exact .inl ⟨_, (faults_eq _ _ _).1 h⟩
      · next h3 =>
        split at h
        · exact .inl ⟨_, (faults_eq _ _ _).1 h⟩
        · next h4 =>
          split at h
          · exact .inl ⟨_, (faults_eq _ _ _).1 h⟩
          · next h5 =>
            cases h
            rw [hasSymbol_iff] at h4
            exact .inr ⟨(not_locked_iff _).1 h1, not_not.1 h2, h3,
              fun i hi he => h4 ⟨i, hi, he⟩, Nat.not_lt.1 h5, rfl⟩

/-- An LDF whose checks pass completes (R103). -/
theorem execLdf_next (sym : Symbol) (cnt : Weight) (s : State) (h1 : s.status.err = none)
    (h2 : s.status.phase = .load) (h3 : s.nleaf ≠ s.nmax)
    (h4 : ∀ i, i < s.nleaf.toNat → (s.nodeAt i).sym ≠ sym)
    (h5 : s.total.toNat + cnt.toNat ≤ 4294967295) :
    execLdf sym cnt s = .next (complete (s.nleaf.setWidth 32) (s.loadLeaf sym cnt)) := by
  unfold execLdf
  rw [if_neg ((not_locked_iff _).2 h1), if_neg (not_not.2 h2), if_neg h3, if_neg, if_neg]
  · exact Nat.not_lt.2 h5
  · rw [hasSymbol_iff]; rintro ⟨i, hi, he⟩; exact h4 i hi he

theorem execBld_cases (s t : State) (h : execBld s = .next t) :
    (∃ e, t = raiseFault e s) ∨
      (s.status.err = none ∧ s.status.phase = .load ∧
        ((s.nleaf = 0 ∧ t = complete s.setEmpty.status.word s.setEmpty) ∨
          (s.nleaf ≠ 0 ∧ ∃ u, s.buildTree = .ok u ∧ t = complete u.status.word u))) := by
  unfold execBld at h
  split at h
  · exact .inl ⟨_, (faults_eq _ _ _).1 h⟩
  · next h1 =>
    split at h
    · exact .inl ⟨_, (faults_eq _ _ _).1 h⟩
    · next h2 =>
      refine .inr ⟨(not_locked_iff _).1 h1, not_not.1 h2, ?_⟩
      split at h
      · next h3 => cases h; exact .inl ⟨h3, rfl⟩
      · next h3 =>
        split at h
        · next u hu => cases h; exact .inr ⟨h3, u, hu, rfl⟩
        · cases h

/-- A BLD whose checks pass, on one entry or more, completes when the merge does (R125). -/
theorem execBld_next (s u : State) (h1 : s.status.err = none) (h2 : s.status.phase = .load)
    (h3 : s.nleaf ≠ 0) (hu : s.buildTree = .ok u) :
    execBld s = .next (complete u.status.word u) := by
  unfold execBld
  rw [if_neg ((not_locked_iff _).2 h1), if_neg (not_not.2 h2), if_neg h3, hu]

theorem execDrv_cases (s t : State) (h : execDrv s = .next t) :
    (∃ e, t = raiseFault e s) ∨
      (s.status.err = none ∧ s.status.phase = .built ∧ s.status.rootv = true ∧
        ∃ ct, s.derivedTable = some ct ∧ t = complete s.status.toDerived.word (s.storeTable ct)) := by
  unfold execDrv at h
  split at h
  · exact .inl ⟨_, (faults_eq _ _ _).1 h⟩
  · next h1 =>
    split at h
    · exact .inl ⟨_, (faults_eq _ _ _).1 h⟩
    · next h2 =>
      split at h
      · exact .inl ⟨_, (faults_eq _ _ _).1 h⟩
      · next h3 =>
        refine .inr ⟨(not_locked_iff _).1 h1, not_not.1 h2, by simpa using h3, ?_⟩
        split at h
        · next ct hct => cases h; exact ⟨ct, hct, rfl⟩
        · cases h

/-- A DRV whose checks pass completes when the traversal does (R141). -/
theorem execDrv_next (s : State) (ct : Slots CtEntry) (h1 : s.status.err = none)
    (h2 : s.status.phase = .built) (h3 : s.status.rootv = true) (hct : s.derivedTable = some ct) :
    execDrv s = .next (complete s.status.toDerived.word (s.storeTable ct)) := by
  unfold execDrv
  rw [if_neg ((not_locked_iff _).2 h1), if_neg (not_not.2 h2), if_neg (by rw [h3]; decide), hct]

/-- A read command faults or changes the response port alone (R67, R164). -/
theorem execRds_cases (sel : BitVec 16) (s t : State) (h : execRds sel s = .next t) :
    (∃ e, t = raiseFault e s) ∨ ∃ d, t = complete d s := by
  unfold execRds at h
  split at h
  · next d _ => cases h; exact .inr ⟨d, rfl⟩
  · exact .inl ⟨_, (faults_eq _ _ _).1 h⟩

theorem execRdn_cases (idx : Index) (sel : BitVec 16) (s t : State)
    (h : execRdn idx sel s = .next t) : (∃ e, t = raiseFault e s) ∨ ∃ d, t = complete d s := by
  unfold execRdn at h
  split at h
  · exact .inl ⟨_, (faults_eq _ _ _).1 h⟩
  · split at h
    · exact .inl ⟨_, (faults_eq _ _ _).1 h⟩
    · cases h; exact .inr ⟨_, rfl⟩

theorem execRdc_cases (idx : Index) (sel : BitVec 16) (s t : State)
    (h : execRdc idx sel s = .next t) : (∃ e, t = raiseFault e s) ∨ ∃ d, t = complete d s := by
  unfold execRdc at h
  split at h
  · exact .inl ⟨_, (faults_eq _ _ _).1 h⟩
  · split at h
    · exact .inl ⟨_, (faults_eq _ _ _).1 h⟩
    · split at h
      · exact .inl ⟨_, (faults_eq _ _ _).1 h⟩
      · cases h; exact .inr ⟨_, rfl⟩

theorem execRdb_cases (idx : Index) (sel : BitVec 16) (s t : State)
    (h : execRdb idx sel s = .next t) : (∃ e, t = raiseFault e s) ∨ ∃ d, t = complete d s := by
  unfold execRdb at h
  split at h
  · exact .inl ⟨_, (faults_eq _ _ _).1 h⟩
  · split at h
    · exact .inl ⟨_, (faults_eq _ _ _).1 h⟩
    · split at h
      · exact .inl ⟨_, (faults_eq _ _ _).1 h⟩
      · cases h; exact .inr ⟨_, rfl⟩

/-! ### Each meaning keeps the invariants -/

theorem Invariants.execLdf {s t : State} (h : Invariants s) {sym : Symbol} {cnt : Weight}
    (he : execLdf sym cnt s = .next t) : Invariants t := by
  rcases execLdf_cases sym cnt s t he with ⟨e, rfl⟩ | ⟨-, h2, h3, h4, h5, rfl⟩
  · exact h.raiseFault e
  · exact (h.loadLeaf h2 h3 sym cnt h4 h5).complete _

/-- What BLD builds from a loaded map (R125): the tree, and whatever each merge keeps. -/
theorem Invariants.buildTree {s : State} (h : Invariants s) (hp : s.status.phase = .load)
    (hn : 1 ≤ s.nleaf.toNat) (P : State → Prop)
    (hP : ∀ s a b, Forest s → 2 ≤ s.qcnt.toNat → s.lowest s.pq = some a →
      s.lowest (pqRemove a s.pq) = some b → P s → P (s.merged a b)) (hs : P s) :
    ∃ t r, s.buildTree = .ok ((t.dequeue r).setRoot r) ∧ Forest t ∧ P t ∧ t.qcnt.toNat = 1 ∧
      t.pq = [r] ∧ r.toNat = 2 * t.nleaf.toNat - 2 ∧ t.nnode.toNat = 2 * t.nleaf.toNat - 1 :=
  (h.forest hp hn).buildTree P hP s hs

theorem Invariants.execBld {s t : State} (h : Invariants s) (he : execBld s = .next t) : Invariants t := by
  rcases execBld_cases s t he with ⟨e, rfl⟩ | ⟨-, h2, ⟨h3, rfl⟩ | ⟨h3, u, hu, rfl⟩⟩
  · exact h.raiseFault e
  · exact (h.setEmpty h2 h3).complete _
  · have hn : 1 ≤ s.nleaf.toNat := by
      have := toNat_ne h3
      have e0 : (0 : Index).toNat = 0 := rfl
      omega
    obtain ⟨v, r, hb, hf, ⟨p1, p2⟩, q1, q2, q3, q4⟩ := h.buildTree h2 hn
      (fun v => v.ct.wf = true ∧ v.status.empty = false) (fun _ _ _ _ _ _ _ hv => hv)
      ⟨h.ct_wf, (h.load_flags h2).2.1⟩
    rw [hu] at hb
    cases hb
    exact (hf.setRoot q1 q2 q3 q4 p1 p2).complete _

theorem Invariants.execDrv {s t : State} (h : Invariants s) (he : execDrv s = .next t) : Invariants t := by
  rcases execDrv_cases s t he with ⟨e, rfl⟩ | ⟨-, h2, h3, ct, hct, rfl⟩
  · exact h.raiseFault e
  · obtain ⟨ct', e', w, hc, -⟩ := h.derivedTable h2 h3
    rw [hct] at e'
    cases e'
    exact (h.storeTable h2 h3 w hc).complete _

end Sys2Proof.Machine
end

