-- ==== Sys2Proof/Laws/PerInstr.lean ====
section
/-! SUPPORT. One lemma for each command as syntax: it is well formed, and its word matches its row
of the opcode map (spec/30_encoding.md R81, R84, R85). -/

namespace Sys2Proof.Laws.EncodeFitsRow

/-- The command is well formed and its word matches the row of its mnemonic. -/
def Statement (i : Instr) : Prop := i.wellFormed = true ∧ (rowOf i).fits (encode i)

open Sys2Proof.Machine

theorem clr : Statement .clr := ⟨rfl, by unfold OpcodeRow.fits; decide⟩

theorem ldf (sym : Symbol) (cnt : Weight) : Statement (.ldf sym cnt) := by
  refine ⟨?_, (fits_of (r := rowLDF) (o := 0x02#8) (ma := 0) (pa := 0) (mb := 0) (pb := 0) (by decide) (by decide)
    _).2 ?_⟩
  · have := sym.isLt
    have := cnt.isLt
    simp only [Instr.wellFormed, Bool.and_eq_true, decide_eq_true_eq]
    exact ⟨by omega, by omega⟩
  · simp [encode, opcode]

theorem bld : Statement .bld := ⟨rfl, by unfold OpcodeRow.fits; decide⟩

theorem drv : Statement .drv := ⟨rfl, by unfold OpcodeRow.fits; decide⟩

theorem rds (sel : BitVec 16) : Statement (.rds sel) := by
  refine ⟨?_, (fits_of (r := rowRDS) (o := 0x10#8) (ma := 0xFFFFFF#24) (pa := 0)
    (mb := 0xFFFF0000#32) (pb := 0) (by decide) (by decide) _).2 ?_⟩
  · have := sel.isLt
    simp only [Instr.wellFormed, decide_eq_true_eq]
    omega
  · rw [bHigh_zero_iff]
    have := high_append 16 16 sel
    simpa [encode, opcode, aOperand, bOperand, bHigh] using this

/-- The three commands of format X alike. -/
theorem formatX (r : OpcodeRow) (o : BitVec 8) (idx : Index) (sel : BitVec 16)
    (hr : r.mask = commandWord 0xFF#8 0xFF0000#24 0xFFFF0000#32)
    (hp : r.pattern = commandWord o 0 0) :
    r.fits (commandWord o (0#8 ++ idx) (0#16 ++ sel)) := by
  refine (fits_of hr hp _).2 ?_
  have h1 := high_append 8 16 idx
  have h2 := high_append 16 16 sel
  rw [aHigh_zero_iff, bHigh_zero_iff]
  simp only [aHigh, bHigh, opField_commandWord, aField_commandWord, bField_commandWord]
  exact ⟨trivial, h1, h2⟩

theorem wellFormedX (idx : Index) (sel : BitVec 16) :
    (decide (idx.toNat < 2 ^ 16) && decide (sel.toNat < 2 ^ 16)) = true := by
  have := idx.isLt
  have := sel.isLt
  simp only [Bool.and_eq_true, decide_eq_true_eq]
  exact ⟨by omega, by omega⟩

theorem rdn (idx : Index) (sel : BitVec 16) : Statement (.rdn idx sel) :=
  ⟨wellFormedX idx sel, formatX rowRDN 0x11#8 idx sel (by decide) (by decide)⟩

theorem rdc (idx : Index) (sel : BitVec 16) : Statement (.rdc idx sel) :=
  ⟨wellFormedX idx sel, formatX rowRDC 0x12#8 idx sel (by decide) (by decide)⟩

theorem rdb (idx : Index) (sel : BitVec 16) : Statement (.rdb idx sel) :=
  ⟨wellFormedX idx sel, formatX rowRDB 0x13#8 idx sel (by decide) (by decide)⟩

end Sys2Proof.Laws.EncodeFitsRow
end

