-- ==== Sys2Proof/Laws/Response.lean ====
section
/-! SUPPORT. A response word and the words the read commands answer with, as numbers
(spec/30_encoding.md R82; spec/43_readout.md). -/

namespace Sys2Proof.Machine

/-- A response word as a number (R82). -/
theorem responseWord_toNat (e : BitVec 8) (d : BitVec 32) :
    (responseWord e d).toNat = e.toNat * 2 ^ 56 + d.toNat := by
  have h : responseWord e d = commandWord e 0 d := rfl
  rw [h, commandWord_toNat]
  simp

theorem responseWord_inj {e e' : BitVec 8} {d d' : BitVec 32} :
    responseWord e d = responseWord e' d' ↔ e = e' ∧ d = d' := by
  have h : ∀ (e : BitVec 8) (d : BitVec 32), responseWord e d = commandWord e 0 d := fun _ _ => rfl
  rw [h, h, commandWord_inj]
  simp

/-- The response of a command that completes is its data, with zeros above (R82). -/
theorem responseWord_zero (d : BitVec 32) : responseWord 0#8 d = BitVec.ofNat 64 d.toNat := by
  apply BitVec.eq_of_toNat_eq
  have := d.isLt
  rw [responseWord_toNat]
  simp
  omega

theorem responseWord_setWidth (d : BitVec 32) : responseWord 0#8 d = d.setWidth 64 := by
  apply BitVec.eq_of_toNat_eq
  have := d.isLt
  rw [responseWord_toNat]
  simp
  omega

@[simp] theorem index_setWidth_toNat (x : Index) : (x.setWidth 32).toNat = x.toNat := by
  have := x.isLt
  simp
  omega

@[simp] theorem symbol_setWidth_toNat (x : Symbol) : (x.setWidth 32).toNat = x.toNat := by
  have := x.isLt
  simp
  omega

/-- A fault code is never 0, so a fault's response is told from a completion's (R82, R183). -/
theorem code_ne_zero (e : Err) : e.code ≠ 0#8 := by cases e <;> decide

theorem code_inj {e e' : Err} : e.code = e'.code ↔ e = e' := by
  cases e <;> cases e' <;> decide

/-- INFO as a number (R161). -/
theorem infoWord_toNat (n : Node) (b : Bool) : (infoWord n b).toNat =
    (if n.kind = .internal then 2 ^ 31 else 0) + (if b then 2 ^ 30 else 0) + n.sym.toNat := by
  have h1 : (Kind.bit n.kind ++ BitVec.ofBool b ++ 0#6 ++ n.sym : BitVec 32).toNat =
      (Kind.bit n.kind ++ BitVec.ofBool b ++ 0#6 : BitVec 8).toNat * 2 ^ 24 + n.sym.toNat := by
    rw [BitVec.toNat_append, Nat.shiftLeft_eq, Nat.mul_comm,
      ← Nat.two_pow_add_eq_or_of_lt n.sym.isLt]
  have h2 : (Kind.bit n.kind ++ BitVec.ofBool b ++ 0#6 : BitVec 8).toNat * 2 ^ 24 =
      (if n.kind = .internal then 2 ^ 31 else 0) + (if b then 2 ^ 30 else 0) := by
    cases n.kind <;> cases b <;> decide
  unfold infoWord
  rw [h1, h2]

/-- KIDS as a number (R161). -/
theorem kidsWord_toNat (n : Node) : (kidsWord n).toNat = n.left.toNat * 2 ^ 16 + n.right.toNat := by
  unfold kidsWord
  rw [BitVec.toNat_append, Nat.shiftLeft_eq, Nat.mul_comm,
    ← Nat.two_pow_add_eq_or_of_lt n.right.isLt]

/-- Bit t of chunk k (R64). -/
theorem chunk_getLsbD (nmax : Index) (cbits k t : Nat) (h : t < 32) :
    (chunk nmax cbits k).getLsbD t =
      (decide (32 * k + t < codeW nmax) && cbits.testBit (32 * k + t)) := by
  unfold chunk
  rw [BitVec.getLsbD_ofNat, Nat.testBit_shiftRight, Nat.testBit_mod_two_pow]
  simp [h]

end Sys2Proof.Machine
end

