-- ==== Sys2Proof/Laws/Step.lean ====
section
/-! SUPPORT. Said once: everything a command can do (spec/40_clear_load.md to
spec/43_readout.md), and everything a step can do (spec/70_reset_and_hazards.md). -/

namespace Sys2Proof.Machine

/-! ### What BLD writes, from any state (R125) -/

/-- The merge loop writes NODE, PQ, QCNT and NNODE alone. -/
theorem mergeLoop_writes (fuel : Nat) (s t : State) (h : s.mergeLoop fuel = .ok t) :
    t = { s with node := t.node, pq := t.pq, qcnt := t.qcnt, nnode := t.nnode } := by
  induction fuel generalizing s with
  | zero => cases h; rfl
  | succ k ih =>
    unfold State.mergeLoop at h
    split at h
    · split at h
      · cases h
      · next u hu =>
        obtain ⟨a, b, -, -, -, rfl⟩ := (mergeStep_ok s u).1 hu
        rw [ih _ h]
        rfl
    · cases h; rfl

/-- BLD on one entry or more writes NODE, PQ, QCNT, NNODE, ROOT and STATUS alone (R125). -/
theorem buildTree_writes (s u : State) (h : s.buildTree = .ok u) :
    u = { s with
      node := u.node, pq := u.pq, qcnt := u.qcnt, nnode := u.nnode, root := u.root
      status := s.status.builtTree (decide (s.nleaf = 1)) } := by
  unfold State.buildTree at h
  split at h
  · cases h
  · next s1 h1 =>
    split at h
    · cases h
    · next r s2 h2 =>
      cases h
      obtain ⟨-, rfl⟩ := (extractMin_ok s1 r s2).1 h2
      rw [mergeLoop_writes _ _ _ h1]
      rfl

/-! ### What a command can do -/

/-- Everything a command can do: it faults, or it completes with the writes of its rule. -/
theorem exec_cases (i : Instr) (s t : State) (h : exec i s = .next t) :
    (∃ e, t = raiseFault e s) ∨
    (i = .clr ∧ t = complete 0#32 (newInvocation s)) ∨
    (∃ sym cnt, i = .ldf sym cnt ∧ s.status.err = none ∧ s.status.phase = .load ∧
      s.nleaf ≠ s.nmax ∧ (∀ j, j < s.nleaf.toNat → (s.nodeAt j).sym ≠ sym) ∧
      s.total.toNat + cnt.toNat ≤ 4294967295 ∧
      t = complete (s.nleaf.setWidth 32) (s.loadLeaf sym cnt)) ∨
    (i = .bld ∧ s.status.err = none ∧ s.status.phase = .load ∧ s.nleaf = 0 ∧
      t = complete s.setEmpty.status.word s.setEmpty) ∨
    (i = .bld ∧ s.status.err = none ∧ s.status.phase = .load ∧ s.nleaf ≠ 0 ∧
      ∃ u, s.buildTree = .ok u ∧ t = complete u.status.word u) ∨
    (i = .drv ∧ s.status.err = none ∧ s.status.phase = .built ∧ s.status.rootv = true ∧
      ∃ ct, s.derivedTable = some ct ∧
        t = complete s.status.toDerived.word (s.storeTable ct)) ∨
    (isRead i = true ∧ ∃ d, t = complete d s) := by
  cases i with
  | clr => cases h; exact .inr (.inl ⟨rfl, rfl⟩)
  | ldf sym cnt =>
    rcases execLdf_cases _ _ _ _ h with h | h
    · exact .inl h
    · exact .inr (.inr (.inl ⟨sym, cnt, rfl, h⟩))
  | bld =>
    rcases execBld_cases _ _ h with h | ⟨h1, h2, h | h⟩
    · exact .inl h
    · exact .inr (.inr (.inr (.inl ⟨rfl, h1, h2, h⟩)))
    · exact .inr (.inr (.inr (.inr (.inl ⟨rfl, h1, h2, h⟩))))
  | drv =>
    rcases execDrv_cases _ _ h with h | h
    · exact .inl h
    · exact .inr (.inr (.inr (.inr (.inr (.inl ⟨rfl, h⟩)))))
  | rds sel =>
    rcases execRds_cases _ _ _ h with h | h
    · exact .inl h
    · exact .inr (.inr (.inr (.inr (.inr (.inr ⟨rfl, h⟩)))))
  | rdn idx sel =>
    rcases execRdn_cases _ _ _ _ h with h | h
    · exact .inl h
    · exact .inr (.inr (.inr (.inr (.inr (.inr ⟨rfl, h⟩)))))
  | rdc idx sel =>
    rcases execRdc_cases _ _ _ _ h with h | h
    · exact .inl h
    · exact .inr (.inr (.inr (.inr (.inr (.inr ⟨rfl, h⟩)))))
  | rdb idx sel =>
    rcases execRdb_cases _ _ _ _ h with h | h
    · exact .inl h
    · exact .inr (.inr (.inr (.inr (.inr (.inr ⟨rfl, h⟩)))))

/-! ### What a step can do -/

theorem acceptWord_some (s s' : State) (cw : CmdWord) :
    s.acceptWord = some (cw, s') ↔
      ∃ rest, s.host = .send cw :: rest ∧ s.rsp = none ∧ s' = { s with host := rest } := by
  unfold State.acceptWord State.cmdReady
  constructor
  · intro h
    split at h
    · next hh =>
      split at h
      · next hr => cases h; exact ⟨_, hh, by simpa using hr, rfl⟩
      · cases h
    · cases h
  · rintro ⟨rest, h1, h2, rfl⟩
    rw [h1, h2]
    rfl

/-- Everything a step can do: a command, an illegal word, reset, the taking of a response, or
nothing. -/
theorem step_cases (s t : State) (h : step s = .next t) :
    (∃ cw rest i, s.host = .send cw :: rest ∧ s.rsp = none ∧ decode cw = .ok i ∧
      exec i { s with host := rest } = .next t) ∨
    (∃ cw rest e, s.host = .send cw :: rest ∧ s.rsp = none ∧ decode cw = .error e ∧
      t = raiseFault .illop { s with host := rest }) ∨
    (∃ rest, s.host = .reset :: rest ∧ t = applyReset { s with host := rest }) ∨
    (∃ rest r, s.host = .take :: rest ∧ s.rsp = some r ∧ t = { s with rsp := none, host := rest }) ∨
    (s.acceptWord = none ∧ s.portTurn = s ∧ t = s) := by
  unfold step at h
  split at h
  · next cw s' hs =>
    obtain ⟨rest, h1, h2, rfl⟩ := (acceptWord_some _ _ _).1 hs
    unfold runWord at h
    split at h
    · next i hi => exact .inl ⟨cw, rest, i, h1, h2, hi, h⟩
    · next e he => exact .inr (.inl ⟨cw, rest, e, h1, h2, he, (faults_eq _ _ _).1 h⟩)
  · next hs =>
    cases h
    by_cases hp : s.portTurn = s
    · exact .inr (.inr (.inr (.inr ⟨hs, hp, hp⟩)))
    · unfold State.portTurn at hp ⊢
      split at hp
      · next hh => exact .inr (.inr (.inl ⟨_, hh, rfl⟩))
      · next hh =>
        split at hp
        · next hr =>
          obtain ⟨r, hr'⟩ := Option.isSome_iff_exists.1 hr
          exact .inr (.inr (.inr (.inl ⟨_, r, hh, hr', if_pos hr⟩)))
        · exact absurd rfl hp
      · exact absurd rfl hp

/-- A step at which a word passes runs it (R214). -/
theorem step_send (s : State) (cw : CmdWord) (rest : List HostEvent) (h1 : s.host = .send cw :: rest)
    (h2 : s.rsp = none) : step s = runWord cw { s with host := rest } := by
  unfold step
  rw [(acceptWord_some s _ cw).2 ⟨rest, h1, h2, rfl⟩]

theorem runWord_ok (cw : CmdWord) (i : Instr) (s : State) (h : decode cw = .ok i) :
    runWord cw s = exec i s := by
  unfold runWord
  rw [h]

theorem runWord_error (cw : CmdWord) (e : IllegalWord) (s : State) (h : decode cw = .error e) :
    runWord cw s = .next (raiseFault .illop s) := by
  unfold runWord
  rw [h]
  rfl

/-- A step at which no word passes is a turn of the ports (R210, R214). -/
theorem step_port (s : State) (h : s.acceptWord = none) : step s = .next s.portTurn := by
  unfold step
  rw [h]

/-- A run goes on from the next state. -/
theorem run_of_next (M : Host.Core) (k : Nat) (s t : M.State) (h : M.step s = .next t) :
    M.run (k + 1) s = M.run k t := by
  simp only [Host.Core.run, h]

theorem run_of_step (k : Nat) (s t : State) (h : step s = .next t) :
    Host.Core.run Sys2Proof.core (k + 1) s = Host.Core.run Sys2Proof.core k t :=
  run_of_next Sys2Proof.core k s t h

end Sys2Proof.Machine
end

