-- ==== Sys2Proof/Tests/Slice0.lean ====
section
/-! SUPPORT. Tests on fixed values, each with the rule or vector of spec/ its expected value is
taken from, and one witness for the hypotheses of each obligation that has any. -/

namespace Sys2Proof.Tests

open Sys2Proof.Machine

/-! ### WellFormed refuses an operand that does not fit (R81) -/

theorem test_wf_ldf_sym : (AsmCmd.ldf 0x1000000 0).wellFormed = false := by decide
theorem test_wf_ldf_cnt : (AsmCmd.ldf 0 0x100000000).wellFormed = false := by decide
theorem test_wf_rds_sel : (AsmCmd.rds 0x10000).wellFormed = false := by decide
theorem test_wf_rdn_idx : (AsmCmd.rdn 0x10000 0).wellFormed = false := by decide
theorem test_wf_rdn_sel : (AsmCmd.rdn 0 0x10000).wellFormed = false := by decide
theorem test_wf_rdc_idx : (AsmCmd.rdc 0x10000 0).wellFormed = false := by decide
theorem test_wf_rdc_sel : (AsmCmd.rdc 0 0x10000).wellFormed = false := by decide
theorem test_wf_rdb_idx : (AsmCmd.rdb 0x10000 0).wellFormed = false := by decide
theorem test_wf_rdb_sel : (AsmCmd.rdb 0 0x10000).wellFormed = false := by decide
/-- The largest operands of LDF are a command (R91). -/
theorem test_wf_ldf_max :
    (AsmCmd.ldf 0xFFFFFF 0xFFFFFFFF).toInstr.map encode = some 0x02FFFFFFFFFFFFFF#64 := by decide

/-! ### Decoding: a word of every command, written out from R85, and the illegal words of R91 -/

theorem test_decode_clr : decode 0x0100000000000000#64 = .ok .clr := by decide
theorem test_decode_ldf : decode 0x0200004800000001#64 = .ok (.ldf 0x48#24 1#32) := by decide
theorem test_decode_ldf_max :
    decode 0x02FFFFFFFFFFFFFF#64 = .ok (.ldf 0xFFFFFF#24 0xFFFFFFFF#32) := by decide
theorem test_decode_bld : decode 0x0300000000000000#64 = .ok .bld := by decide
theorem test_decode_drv : decode 0x0400000000000000#64 = .ok .drv := by decide
theorem test_decode_rds : decode 0x1000000000000004#64 = .ok (.rds 4#16) := by decide
theorem test_decode_rdn : decode 0x1100000600000002#64 = .ok (.rdn 6#16 2#16) := by decide
theorem test_decode_rdc : decode 0x1200000200000001#64 = .ok (.rdc 2#16 1#16) := by decide
theorem test_decode_rdb : decode 0x1300000200000000#64 = .ok (.rdb 2#16 0#16) := by decide
theorem test_decode_all_zero : decode 0x0000000000000000#64 = .error .unknownOpcode := by decide
theorem test_decode_all_one : decode 0xFFFFFFFFFFFFFFFF#64 = .error .unknownOpcode := by decide
theorem test_decode_bld_b : decode 0x0300000000000001#64 = .error .mustBeZero := by decide
theorem test_decode_rdn_a : decode 0x1101000000000000#64 = .error .mustBeZero := by decide
theorem test_decode_rds_a : decode 0x1000000100000000#64 = .error .mustBeZero := by decide
theorem test_decode_rdb_b : decode 0x1300000000010000#64 = .error .mustBeZero := by decide
/-- The table's word of RDN with its operand bits 0 is an instruction of the decoder. -/
theorem test_table_word : decodeTableWord 64 0x1100000000000000 = some (.rdn 0 0) := by decide

/-! ### Small states -/

/-- The next state of an outcome, as data that can be compared. -/
def nextOf (o : Host.Outcome State Fault Refusal) : Option State :=
  match o with
  | .next t => some t
  | .fault _ => none
  | .refused _ => none

theorem next_of {o : Host.Outcome State Fault Refusal} {t : State} (h : nextOf o = some t) :
    o = .next t := by
  cases o with
  | next u => exact congrArg _ (Option.some.inj h)
  | fault f => cases h
  | refused r => cases h

/-- The state after a command. -/
def after (i : Instr) (s : State) : State :=
  match exec i s with
  | .next t => t
  | .fault _ => s
  | .refused _ => s

def afterAll (is : List Instr) (s : State) : State := is.foldl (fun s i => after i s) s

/-- Reset, NMAX = 4. -/
def base : State := State.resetWith 4
/-- "Hello" loaded, merged, derived (R129, R148). -/
def hello : State := afterAll [.ldf 0x48 1, .ldf 0x65 1, .ldf 0x6C 2, .ldf 0x6F 1] base
def helloBuilt : State := after .bld hello
def helloDerived : State := after .drv helloBuilt
/-- "AAAA": the single leaf (R128, R143). -/
def single : State := after (.ldf 0x41 4) base
def singleBuilt : State := after .bld single
def singleDerived : State := after .drv singleBuilt
/-- The empty map after BLD (R127). -/
def emptyBuilt : State := after .bld base
/-- A locked block: E_SEL is latched. -/
def locked : State := after (.rds 7) base
/-- One leaf of weight 2^31 - 1 in a block of two. -/
def heavy : State := after (.ldf 1 0x7FFFFFFF) (State.resetWith 2)

/-- The data of a command's response, when its err field is 0. -/
def answer (i : Instr) (s : State) : Option (BitVec 64) := (after i s).rsp

/-! ### One step of each command -/

/-- CLR in a locked, derived block (R101). -/
theorem test_clr : (after .clr (after (.rds 7) helloDerived)).status = Status.reset := by decide
theorem test_clr_answer : answer .clr helloDerived = some 0#64 := by decide

/-- LDF answers the leaf index (R103). -/
theorem test_ldf : answer (.ldf 0x21 0) (after (.ldf 0x48 1) base) = some 1#64 := by decide
/-- A sum of 2^32 faults E_WOVF; a sum of 2^32 - 1 does not (R103, vector V15). -/
theorem test_ldf_wovf :
    answer (.ldf 2 0x80000001) heavy = some 0x0900000000000000#64 ∧
      (after (.ldf 2 0x80000000) heavy).total = 0xFFFFFFFF#32 := by decide

/-- The nodes of R129: merge 2 takes node 3 before node 2, and node 2 before node 4. -/
theorem test_bld : helloBuilt.node.drop 4 =
    [(4, ⟨.internal, 0, 2, 0, 1⟩), (5, ⟨.internal, 0, 3, 3, 2⟩), (6, ⟨.internal, 0, 5, 4, 5⟩)] ∧
      helloBuilt.root = 6 := by decide
/-- The answer of BLD on the empty map (R127). -/
theorem test_bld_empty : answer .bld base = some 0x9#64 := by decide

/-- The table of R148. -/
theorem test_drv : helloDerived.ct = [(0, ⟨2, 0⟩), (1, ⟨2, 2⟩), (2, ⟨2, 3⟩), (3, ⟨2, 1⟩)] := by
  decide
/-- The single leaf's code "0" (R143). -/
theorem test_drv_single : singleDerived.ct = [(0, ⟨1, 0⟩)] ∧
    singleDerived.rsp = some 0x16#64 := by decide

/-- R160's example. -/
theorem test_rds : answer (.rds 2) helloBuilt = some 7#64 := by decide
theorem test_rds_sel : answer (.rds 7) helloBuilt = some 0x0400000000000000#64 := by decide

/-- R161's examples: KIDS of the root; INFO of leaf 0 before BLD. -/
theorem test_rdn_kids : answer (.rdn 6 2) helloBuilt = some 0x40005#64 := by decide
theorem test_rdn_info : answer (.rdn 0 0) hello = some 0x40000048#64 := by decide

/-- The CodeTable of the worked trace (R148): H "00", e "01", l "11", o "10"; none before DRV. -/
theorem test_code_table : helloBuilt.codeTable = none ∧ helloDerived.codeTable =
    some [(0x48#24, [false, false]), (0x65#24, [false, true]), (0x6C#24, [true, true]),
      (0x6F#24, [true, false])] := by decide

/-- R162's examples. -/
theorem test_rdc_len : answer (.rdc 2 1) helloDerived = some 2#64 := by decide
theorem test_rdc_range : answer (.rdc 4 1) helloDerived = some 0x0500000000000000#64 := by decide

/-- R163's examples: the codes "01" and "10". -/
theorem test_rdb : answer (.rdb 1 0) helloDerived = some 2#64 ∧
    answer (.rdb 3 0) helloDerived = some 1#64 := by decide
/-- With NMAX = 256 chunk 8 faults E_SEL: chunks are 0 to 7. -/
theorem test_rdb_sel : answer (.rdb 1 8) { helloDerived with nmax := 256 } =
    some 0x0400000000000000#64 := by decide

/-! ### The step -/

/-- The step after `withFetchWord` runs the word: LDF 0x48, 1 (R91, R103). -/
theorem test_step_fetch : step (State.reset.withFetchWord 64 0x0200004800000001) =
    .next (after (.ldf 0x48 1) State.reset) := next_of (by decide)
/-- An illegal word answers E_ILLOP (R184). -/
theorem test_step_illegal : (match step (base.withFetchWord 64 0) with
    | .next t => t.rsp | _ => none) = some 0x0100000000000000#64 := by decide

/-! ### The small states meet the invariants -/

theorem inv_after (i : Instr) (s : State) (h : Invariants s) : Invariants (after i s) := by
  unfold after
  cases he : exec i s with
  | fault f => exact h
  | refused r => exact h
  | next t =>
    rcases exec_cases i s t he with
      ⟨e, rfl⟩ | ⟨rfl, rfl⟩ | ⟨_, _, rfl, -⟩ | ⟨rfl, -⟩ | ⟨rfl, -⟩ | ⟨rfl, -⟩ | ⟨-, d, rfl⟩
    · exact h.raiseFault e
    · exact h.newInvocation.complete _
    · exact h.execLdf he
    · exact h.execBld he
    · exact h.execBld he
    · exact h.execDrv he
    · exact h.complete d

theorem inv_afterAll (is : List Instr) (s : State) (h : Invariants s) :
    Invariants (afterAll is s) := by
  induction is generalizing s with
  | nil => exact h
  | cons i rest ih => exact ih _ (inv_after i s h)

theorem inv_base : Invariants base :=
  Invariants.fresh (by decide) (by decide) rfl rfl rfl rfl rfl rfl rfl rfl rfl
theorem inv_hello : Invariants hello := inv_afterAll _ _ inv_base
theorem inv_helloBuilt : Invariants helloBuilt := inv_after _ _ inv_hello
theorem inv_helloDerived : Invariants helloDerived := inv_after _ _ inv_helloBuilt
theorem inv_single : Invariants single := inv_after _ _ inv_base
theorem inv_singleBuilt : Invariants singleBuilt := inv_after _ _ inv_single
theorem inv_singleDerived : Invariants singleDerived := inv_after _ _ inv_singleBuilt
theorem inv_emptyBuilt : Invariants emptyBuilt := inv_after _ _ inv_base
theorem inv_locked : Invariants locked := inv_after _ _ inv_base
theorem inv_heavy : Invariants heavy := inv_after _ _
  (Invariants.fresh (by decide) (by decide) rfl rfl rfl rfl rfl rfl rfl rfl rfl)

/-! ### Witnesses: for each obligation with hypotheses, a state and operands that meet them -/

theorem witness_EncodeOfDecode :
    decode 0x1300FFFF0000FFFF#64 = .ok (.rdb 0xFFFF 0xFFFF) := by decide

theorem witness_OperandsAreTheirBits :
    decode 0x02FFFFFFFFFFFFFF#64 = .ok (.ldf 0xFFFFFF 0xFFFFFFFF) ∧
    decode 0x100000000000FFFF#64 = .ok (.rds 0xFFFF) ∧
    decode 0x1100FFFF0000FFFF#64 = .ok (.rdn 0xFFFF 0xFFFF) ∧
    decode 0x1200FFFF0000FFFF#64 = .ok (.rdc 0xFFFF 0xFFFF) ∧
    decode 0x1300FFFF0000FFFF#64 = .ok (.rdb 0xFFFF 0xFFFF) ∧
    decode 0x0100000000000000#64 = .ok .clr ∧ decode 0x0300000000000000#64 = .ok .bld ∧
    decode 0x0400000000000000#64 = .ok .drv := by decide

theorem witness_ResponsesHaveTheirLayout :
    exec .bld hello = .next helloBuilt ∧ exec (.rds 7) base = .next locked :=
  ⟨next_of (by decide), next_of (by decide)⟩

theorem witness_PseudoInstructionsExpand : 7 < nchunk 256 ∧ 0 < nchunk 1 := by decide

theorem witness_SizesOfAnInstance : 1 ≤ (1 : Index).toNat ∧ (1 : Index).toNat ≤ 32768 ∧
    1 ≤ (0x8000 : Index).toNat ∧ (0x8000 : Index).toNat ≤ 32768 := by decide

/-- A ready block whose host sends BLD. -/
def sending (cw : CmdWord) (s : State) : State := { s with host := [.send cw], rsp := none }

theorem witness_StepRunsDecodedCommand :
    (sending 0x0300000000000000#64 hello).host = .send 0x0300000000000000#64 :: [] ∧
    (sending 0x0300000000000000#64 hello).rsp = none ∧
    decode 0x0300000000000000#64 = .ok .bld := by decide

theorem witness_IllegalWordFaultsIllop :
    (sending 0#64 locked).host = .send 0#64 :: [] ∧ (sending 0#64 locked).rsp = none ∧
    ∀ r ∈ opcodeMap, ¬ r.fits 0#64 := by
  refine ⟨rfl, rfl, ?_⟩
  unfold OpcodeRow.fits
  decide

theorem witness_OneCommandAtATime :
    ((sending 0x0100000000000000#64 base).host = .send 0x0100000000000000#64 :: [] ∧
      (sending 0x0100000000000000#64 base).rsp = none ∧
      step (sending 0x0100000000000000#64 base) =
        .next (after .clr { base with host := [] })) ∧
    (({ hello with host := [.send 0#64] } : State).host = .send 0#64 :: [] ∧
      ({ hello with host := [.send 0#64] } : State).rsp = some 3#64) ∧
    (({ hello with host := [.take] } : State).host = .take :: [] ∧
      ({ hello with host := [.take] } : State).rsp = some 3#64) :=
  ⟨⟨rfl, rfl, next_of (by decide)⟩, by decide⟩

theorem witness_IdleStepsChangeNothing :
    (({ base with host := [.take] } : State).host = .take :: [] ∧
      ({ base with host := [.take] } : State).rsp = none) ∧ base.host = [] := by decide

theorem witness_ResetLeavesResetState :
    ({ helloDerived with host := [.reset] } : State).host = .reset :: [] := by decide

/-- A flag that stays (a DRV), and a code that stays (a refused BLD). -/
theorem witness_ClrStartsNewInvocation :
    (Invariants singleBuilt ∧ Instr.drv ≠ .clr ∧
      exec .drv singleBuilt = .next (after .drv singleBuilt) ∧
      singleBuilt.status.rootv = true ∧ singleBuilt.status.single = true) ∧
    (Invariants emptyBuilt ∧ Instr.ldf 0 0 ≠ .clr ∧
      exec (.ldf 0 0) emptyBuilt = .next (after (.ldf 0 0) emptyBuilt) ∧
      emptyBuilt.status.empty = true) ∧
    (Invariants locked ∧ Instr.bld ≠ .clr ∧ exec .bld locked = .next (after .bld locked) ∧
      locked.status.err ≠ none) :=
  ⟨⟨inv_singleBuilt, by decide, next_of (by decide), by decide⟩,
    ⟨inv_emptyBuilt, by decide, next_of (by decide), by decide⟩,
    inv_locked, by decide, next_of (by decide), by decide⟩

/-- Each clause at the boundary of its check: the last free slot with the largest sum; locked;
built; full; a duplicate, which is found before the sum is formed; one more than the largest sum. -/
theorem witness_LdfLoadsOneLeaf :
    (heavy.status.err = none ∧ heavy.status.phase = .load ∧ heavy.nleaf ≠ heavy.nmax ∧
      (∀ i, i < heavy.nleaf.toNat → (heavy.nodeAt i).sym ≠ 2#24) ∧
      heavy.total.toNat + (0x80000000#32 : Weight).toNat ≤ 2 ^ 32 - 1 ∧
      heavy.nleaf + 1 = heavy.nmax) ∧
    locked.status.err ≠ none ∧
    (helloBuilt.status.err = none ∧ helloBuilt.status.phase ≠ .load) ∧
    (hello.status.err = none ∧ hello.status.phase = .load ∧ hello.nleaf = hello.nmax) ∧
    (∃ i, i < heavy.nleaf.toNat ∧ (heavy.nodeAt i).sym = 1#24) ∧
    2 ^ 32 - 1 < heavy.total.toNat + (0x80000001#32 : Weight).toNat := by
  refine ⟨by decide, by decide, by decide, by decide, ⟨0, by decide, by decide⟩, by decide⟩

theorem witness_KeyOrderHasOneLowest : (0 : Index) ≠ 1 ∧ hello.pq ≠ [] := by decide

theorem witness_ExtractMinReturnsLowestKey : hello.pq ≠ [] ∧ single.pq ≠ [] := by decide

theorem witness_MergeStepJoinsTwoLowest : pqWf hello.pq = true ∧ 2 ≤ hello.pq.length ∧
    hello.nnode.toNat < nnodeMax hello.nmax ∧ hello.nnode ∉ hello.pq := by decide

/-- Two leaves or more, one leaf, none; locked; in another phase. -/
theorem witness_BldBuildsTree :
    (Invariants hello ∧ hello.status.err = none ∧ hello.status.phase = .load ∧
      2 ≤ hello.nleaf.toNat) ∧
    (Invariants single ∧ single.status.err = none ∧ single.status.phase = .load ∧
      single.nleaf.toNat = 1) ∧
    (Invariants base ∧ base.status.err = none ∧ base.status.phase = .load ∧ base.nleaf = 0) ∧
    (Invariants locked ∧ locked.status.err ≠ none) ∧
    (Invariants helloBuilt ∧ helloBuilt.status.err = none ∧ helloBuilt.status.phase ≠ .load) :=
  ⟨⟨inv_hello, by decide⟩, ⟨inv_single, by decide⟩, ⟨inv_base, by decide⟩,
    ⟨inv_locked, by decide⟩, inv_helloBuilt, by decide⟩

theorem witness_BldRunsNleafMinusOneMerges :
    (Invariants hello ∧ hello.status.err = none ∧ hello.status.phase = .load ∧
      1 ≤ hello.nleaf.toNat ∧ 3 < hello.nleaf.toNat) ∧
    (Invariants single ∧ single.status.err = none ∧ single.status.phase = .load ∧
      1 ≤ single.nleaf.toNat ∧ 0 < single.nleaf.toNat) :=
  ⟨⟨inv_hello, by decide⟩, inv_single, by decide⟩

theorem witness_BldOnEmptyMap : base.status.err = none ∧ base.status.phase = .load ∧
    base.status.rootv = false ∧ base.status.single = false ∧ base.nleaf = 0 := by decide

/-- Two leaves or more, the single leaf; locked; in another phase; the absent tree. -/
theorem witness_DrvFillsCodeTable :
    (Invariants helloBuilt ∧ helloBuilt.status.err = none ∧ helloBuilt.status.phase = .built ∧
      helloBuilt.status.rootv = true ∧ 2 ≤ helloBuilt.nleaf.toNat ∧
      3 < helloBuilt.nleaf.toNat) ∧
    (Invariants singleBuilt ∧ singleBuilt.status.err = none ∧
      singleBuilt.status.phase = .built ∧ singleBuilt.status.rootv = true ∧
      singleBuilt.nleaf.toNat = 1) ∧
    (Invariants locked ∧ locked.status.err ≠ none) ∧
    (Invariants hello ∧ hello.status.err = none ∧ hello.status.phase ≠ .built) ∧
    (Invariants emptyBuilt ∧ emptyBuilt.status.err = none ∧ emptyBuilt.status.phase = .built ∧
      emptyBuilt.status.rootv = false) :=
  ⟨⟨inv_helloBuilt, by decide⟩, ⟨inv_singleBuilt, by decide⟩, ⟨inv_locked, by decide⟩,
    ⟨inv_hello, by decide⟩, inv_emptyBuilt, by decide⟩

theorem witness_DrvOnAbsentTreeFaults : emptyBuilt.status.err = none ∧
    emptyBuilt.status.phase = .built ∧ emptyBuilt.status.rootv = false := by decide

/-- The last selector that names a register, and the first that does not. -/
theorem witness_RdsReadsStatusRegisters :
    ((6 : BitVec 16) = 6 ∧ 4 = helloBuilt.nmax.toNat) ∧ 6 < (7 : BitVec 16).toNat := by decide

/-- The last node in use; the first selector and the first index that name nothing. -/
theorem witness_RdnReadsNodes : (6 : Index).toNat < helloBuilt.nnode.toNat ∧
    2 < (3 : BitVec 16).toNat ∧
    ((2 : BitVec 16).toNat ≤ 2 ∧ helloBuilt.nnode.toNat ≤ (7 : Index).toNat) := by decide

theorem witness_RdcReadsSymbolsAndLengths :
    (helloDerived.status.phase = .derived ∧ (3 : Index).toNat < helloDerived.nleaf.toNat) ∧
    helloBuilt.status.phase ≠ .derived ∧
    (helloDerived.status.phase = .derived ∧ 1 < (2 : BitVec 16).toNat) ∧
    (helloDerived.status.phase = .derived ∧ (1 : BitVec 16).toNat ≤ 1 ∧
      helloDerived.nleaf.toNat ≤ (4 : Index).toNat) := by decide

theorem witness_RdbReadsChunks :
    (helloDerived.status.phase = .derived ∧
      (0 : BitVec 16).toNat < nchunk helloDerived.nmax ∧
      (3 : Index).toNat < helloDerived.nleaf.toNat) ∧
    helloBuilt.status.phase ≠ .derived ∧
    (helloDerived.status.phase = .derived ∧ nchunk helloDerived.nmax ≤ (1 : BitVec 16).toNat) ∧
    (helloDerived.status.phase = .derived ∧
      (0 : BitVec 16).toNat < nchunk helloDerived.nmax ∧
      helloDerived.nleaf.toNat ≤ (4 : Index).toNat) := by decide

theorem witness_ChunksGiveTheCode : Invariants helloDerived ∧
    helloDerived.status.phase = .derived ∧ (3 : Index).toNat < helloDerived.nleaf.toNat ∧
    1 < (helloDerived.code (3 : Index).toNat).length ∧ 0 < nchunk helloDerived.nmax :=
  ⟨inv_helloDerived, by decide⟩

theorem witness_ReadsHaveNoSideEffects : isRead (.rds 6) = true ∧ isRead (.rds 7) = true ∧
    isRead (.rdn 0 0) = true ∧ isRead (.rdc 0 0) = true ∧ isRead (.rdb 0 0) = true := by decide

theorem witness_CompletedResponsesCarryTheirData :
    exec .bld hello = .next helloBuilt ∧ helloBuilt.rsp = some (responseWord 0 5) ∧
    exec .drv helloBuilt = .next helloDerived ∧
    helloDerived.rsp = some (responseWord 0 6) :=
  ⟨next_of (by decide), by decide, next_of (by decide), by decide⟩

theorem witness_FaultActionLatchesFirstCode :
    base.status.err = none ∧ locked.status.err ≠ none := by decide

theorem witness_FaultsArePrecise :
    exec (.rds 7) base = .next locked ∧ locked.rsp = some 0x0400000000000000#64 ∧
    (0x0400000000000000#64 : RspWord).toNat / 2 ^ 56 ≠ 0 :=
  ⟨next_of (by decide), by decide⟩

theorem witness_LockRefusesLoadBuildDerive :
    (lockable .bld = true ∧ locked.status.err ≠ none) ∧
    (lockable (.rds 0) = false ∧ exec (.rds 0) locked = .next (after (.rds 0) locked)) ∧
    (step (sending 0x0100000000000000#64 locked) = .next (after .clr { locked with host := [] }) ∧
      (sending 0x0100000000000000#64 locked).status.err ≠ none ∧
      (after .clr { locked with host := [] }).status.err = none) :=
  ⟨by decide, ⟨by decide, next_of (by decide)⟩, next_of (by decide), by decide⟩

theorem witness_PhaseTableIsKept :
    (hello.status.err = none ∧ phaseOk .drv hello.status.phase = false) ∧
    (hello.status.err = none ∧ phaseOk .bld hello.status.phase = true ∧
      exec .bld hello = .next helloBuilt) :=
  ⟨by decide, by decide, by decide, next_of (by decide)⟩

/-- A selector and an index that both name nothing: E_SEL is the smaller code; and a command to
which no fault applies. -/
theorem witness_SmallestApplicableFaultIsReported :
    (Applies .sel (.rdn 9 3) hello ∧ Applies .range (.rdn 9 3) hello ∧
      ∀ e', Applies e' (.rdn 9 3) hello → Err.sel.code.toNat ≤ e'.code.toNat) ∧
    (Invariants hello ∧ ∀ e, ¬ Applies e .bld hello) := by
  refine ⟨⟨show 2 < (3 : BitVec 16).toNat by decide, show hello.nnode.toNat ≤ 9 by decide, ?_⟩,
    inv_hello, ?_⟩
  · intro e' h
    cases e' <;> first | decide | (simp [Applies, lockable, phaseOk] at h)
  · have h1 : hello.status.err = none := by decide
    have h2 : hello.status.phase = .load := by decide
    intro e h
    cases e <;> simp [Applies, lockable, phaseOk, selBad, rangeBad, h1, h2] at h

/-- A first fault; a second one; CLR and reset of a locked block; a refused BLD. -/
theorem witness_ErrKeepsFirstFault :
    (step (sending 0x1000000000000007#64 base) = .next { locked with host := [] } ∧
      (sending 0x1000000000000007#64 base).status.err = none ∧
      (sending 0x1000000000000007#64 base).rsp = none ∧
      locked.rsp = some (responseWord Err.sel.code 0)) ∧
    (step (sending 0#64 locked) = .next (raiseFault .illop { locked with host := [] }) ∧
      (sending 0#64 locked).status.err = some .sel) ∧
    (step (sending 0x0100000000000000#64 locked) = .next (after .clr { locked with host := [] }) ∧
      (sending 0x0100000000000000#64 locked).rsp = none ∧
      sends (sending 0x0100000000000000#64 locked) .clr) ∧
    (step { locked with host := [.reset] } = .next (applyReset { locked with host := [] }) ∧
      ({ locked with host := [.reset] } : State).host.head? = some .reset) ∧
    (step (sending 0x0300000000000000#64 locked) = .next (after .bld { locked with host := [] }) ∧
      (sending 0x0300000000000000#64 locked).status.err ≠ none ∧ lockable .bld = true ∧
      sends (sending 0x0300000000000000#64 locked) .bld) :=
  ⟨⟨next_of (by decide), by decide⟩, ⟨next_of (by decide), by decide⟩,
    ⟨next_of (by decide), rfl, _, rfl, by decide⟩, ⟨next_of (by decide), rfl⟩,
    next_of (by decide), by decide, by decide, _, rfl, by decide⟩

theorem witness_InvariantHoldsAtReset : 1 ≤ (1 : Index).toNat ∧ (1 : Index).toNat ≤ 32768 ∧
    1 ≤ (0x8000 : Index).toNat ∧ (0x8000 : Index).toNat ≤ 32768 := by decide

/-- The step of BLD from the empty map. -/
theorem step_bld : step (sending 0x0300000000000000#64 base) = .next emptyBuilt :=
  next_of (by decide)

/-- The step of an LDF with one leaf loaded. -/
theorem step_ldf : step (sending 0x0200004200000001#64 single) =
    .next (after (.ldf 0x42 1) single) := next_of (by decide)

theorem inv_ports (s : State) (h : Invariants s) (hs : List HostEvent) (r : Option RspWord) :
    Invariants { s with host := hs, rsp := r } :=
  h.of_same rfl rfl rfl rfl rfl rfl rfl rfl rfl rfl rfl rfl rfl

theorem witness_EveryStepKeepsInvariant :
    Invariants (sending 0x0200004200000001#64 single) ∧
    step (sending 0x0200004200000001#64 single) = .next (after (.ldf 0x42 1) single) :=
  ⟨inv_ports _ inv_single _ _, step_ldf⟩

theorem witness_NoStepStops : Invariants (sending 0x0200004200000001#64 single) :=
  inv_ports _ inv_single _ _

theorem witness_PhaseMovesAsTheRuleSays :
    step (sending 0x0300000000000000#64 base) = .next emptyBuilt ∧
    emptyBuilt.status.phase ≠ base.status.phase := ⟨step_bld, by decide⟩

theorem witness_FlagsAreWrittenOnlyByBld :
    (Invariants (sending 0x0300000000000000#64 base) ∧
      step (sending 0x0300000000000000#64 base) = .next emptyBuilt) ∧
    (Invariants (sending 0x0200004200000001#64 single) ∧
      step (sending 0x0200004200000001#64 single) = .next (after (.ldf 0x42 1) single) ∧
      (after (.ldf 0x42 1) single).status.phase = .load) :=
  ⟨⟨inv_ports _ inv_base _ _, step_bld⟩, inv_ports _ inv_single _ _, step_ldf, by decide⟩

theorem witness_NmaxIsConstant :
    step (sending 0x0300000000000000#64 base) = .next emptyBuilt := step_bld

theorem witness_SlotsAreOnlyAppended :
    Invariants (sending 0x0200004200000001#64 single) ∧
    step (sending 0x0200004200000001#64 single) = .next (after (.ldf 0x42 1) single) ∧
    ¬ startsInvocation (sending 0x0200004200000001#64 single) ∧
    0 < (sending 0x0200004200000001#64 single).nnode.toNat := by
  refine ⟨inv_ports _ inv_single _ _, step_ldf, ?_, by decide⟩
  rintro (h | ⟨cw, h, hd⟩)
  · cases h
  · cases h
    exact absurd hd (by decide)

theorem witness_DerivedResultStays :
    step { singleDerived with host := [.take] } =
      .next { singleDerived with host := [], rsp := none } ∧
    singleDerived.status.phase = .derived ∧
    ¬ startsInvocation { singleDerived with host := [.take] } := by
  refine ⟨next_of (by decide), by decide, ?_⟩
  rintro (h | ⟨cw, h, -⟩) <;> cases h

theorem witness_EveryNodeHasOnePath : Invariants helloBuilt ∧ helloBuilt.status.phase ≠ .load ∧
    (6 : Index).toNat < helloBuilt.nnode.toNat := ⟨inv_helloBuilt, by decide⟩

theorem witness_WeightsAreSubtreeSums : Invariants helloBuilt ∧
    (6 : Index).toNat < helloBuilt.nnode.toNat := ⟨inv_helloBuilt, by decide⟩

theorem witness_CodesArePrefixFree : Invariants helloDerived ∧
    helloDerived.status.phase = .derived ∧ 0 < helloDerived.nleaf.toNat ∧
    3 < helloDerived.nleaf.toNat ∧ 0 ≠ 3 := ⟨inv_helloDerived, by decide⟩

theorem witness_CodeLengthsFillTheTree : Invariants helloDerived ∧
    helloDerived.status.phase = .derived ∧ 2 ≤ helloDerived.nleaf.toNat ∧
    3 < helloDerived.nleaf.toNat := ⟨inv_helloDerived, by decide⟩

/-- A loaded map, and a prefix-free assignment of non-empty codes: "0", "10", "110", "111". -/
theorem witness_CodesAreOptimal : Invariants hello ∧ hello.status.err = none ∧
    hello.status.phase = .load ∧ 1 ≤ hello.nleaf.toNat ∧
    ∃ c : Nat → List Bool, (∀ i, i < hello.nleaf.toNat → c i ≠ []) ∧
      ∀ i j, i < hello.nleaf.toNat → j < hello.nleaf.toNat → i ≠ j → ¬ c i <+: c j := by
  refine ⟨inv_hello, by decide, by decide, by decide,
    fun i => ([[false], [true, false], [true, true, false], [true, true, true]] :
      List (List Bool)).getD i [], by decide, ?_⟩
  have h : hello.nleaf.toNat = 4 := by decide
  rw [h]
  intro i j hi hj
  interval_cases i <;> interval_cases j <;> decide

theorem sameView_rfl (s : State) : SameView s s :=
  ⟨rfl, rfl, rfl, rfl, rfl, rfl, rfl, rfl, rfl, rfl, fun _ _ => rfl, fun _ _ _ => rfl⟩

/-- The loaded map, and the same with an old table left in CT. -/
theorem witness_UnusedContentIsNeverSeen :
    Invariants hello ∧ Invariants (afterAll [.clr, .ldf 0x48 1, .ldf 0x65 1, .ldf 0x6C 2,
      .ldf 0x6F 1] helloDerived) ∧
    SameView hello (afterAll [.clr, .ldf 0x48 1, .ldf 0x65 1, .ldf 0x6C 2, .ldf 0x6F 1]
      helloDerived) ∧
    ∃ s', step hello = .next s' := by
  refine ⟨inv_hello, inv_afterAll _ _ inv_helloDerived, ?_, hello, next_of (by decide)⟩
  constructor <;> decide

theorem witness_NewInvocationForgets :
    hello.nmax = helloDerived.nmax ∧ hello.host = helloDerived.host := by decide

theorem witness_InvocationsAreReproducible :
    Invariants (sending 0x0100000000000000#64 hello) ∧
    Invariants (sending 0x0100000000000000#64 locked) ∧
    (sending 0x0100000000000000#64 hello).nmax = (sending 0x0100000000000000#64 locked).nmax ∧
    (sending 0x0100000000000000#64 hello).rsp = none ∧
    (sending 0x0100000000000000#64 locked).rsp = none ∧
    (sending 0x0100000000000000#64 hello).host = .send 0x0100000000000000#64 :: [] ∧
    (sending 0x0100000000000000#64 locked).host = (sending 0x0100000000000000#64 hello).host :=
  ⟨inv_ports _ inv_hello _ _, inv_ports _ inv_locked _ _, by decide⟩

end Sys2Proof.Tests
end

section
/-!
The sizes of an instance (R8 of spec/00_scope.md): a rule for each derived size, and the obligation.
-/

namespace Sys2Proof.Machine

/-- The subtraction in NNODE_MAX does not cut off, since NMAX is at least 1 (R7). -/
theorem nnodeMax_add_one {nmax : Index} (h : 1 ≤ nmax.toNat) :
    nnodeMax nmax + 1 = 2 * nmax.toNat := by
  unfold nnodeMax
  omega

/-- The chunks of a code cover all of its bits. -/
theorem codeW_le_nchunk (nmax : Index) : codeW nmax ≤ 32 * nchunk nmax := by
  unfold nchunk
  omega

/-- No chunk of a code lies wholly past its end, so NCHUNK is the least number that covers it. -/
theorem nchunk_lt_codeW_add (nmax : Index) : 32 * nchunk nmax < codeW nmax + 32 := by
  unfold nchunk
  omega

/-- Settles O9: each size by its rule, and the bound 65535 from NNODE_MAX + 1 = 2 NMAX. -/
theorem sizesOfAnInstance : Obligations.SizesOfAnInstance := by
  unfold Obligations.SizesOfAnInstance
  refine ⟨fun nmax hpos hcap => ?_, by decide, by decide⟩
  have hslots : nnodeMax nmax + 1 = 2 * nmax.toNat := nnodeMax_add_one hpos
  have hindex : nnodeMax nmax ≤ 65535 := by omega
  exact ⟨hslots, hindex, rfl, codeW_le_nchunk nmax, nchunk_lt_codeW_add nmax⟩

end Sys2Proof.Machine
end

section
/-!
The invariants of the block (R36 to R41 of spec/10_state.md): they hold at reset, and every command,
every illegal word and every turn of the ports keeps them.
-/

namespace Sys2Proof.Machine

/-- What the host does next and the response it has not yet taken are no part of the invariants. -/
theorem Invariants.withPorts {s : State} (h : Invariants s) (host : List HostEvent)
    (rsp : Option RspWord) : Invariants { s with host := host, rsp := rsp } :=
  h.of_same rfl rfl rfl rfl rfl rfl rfl rfl rfl rfl rfl rfl rfl

/-- A read keeps the invariants, since it faults or completes and writes nothing (R67). -/
theorem Invariants.faultOrComplete {s t : State} (h : Invariants s)
    (hr : (∃ e, t = Machine.raiseFault e s) ∨ ∃ d, t = Machine.complete d s) : Invariants t := by
  rcases hr with ⟨e, rfl⟩ | ⟨d, rfl⟩
  · exact h.raiseFault e
  · exact h.complete d

/-- Every command keeps the invariants. -/
theorem Invariants.exec {s t : State} (h : Invariants s) {i : Instr}
    (he : Machine.exec i s = .next t) : Invariants t := by
  cases i with
  | clr => cases he; exact h.newInvocation.complete _
  | ldf sym cnt => exact Invariants.execLdf h he
  | bld => exact Invariants.execBld h he
  | drv => exact Invariants.execDrv h he
  | rds sel => exact h.faultOrComplete (execRds_cases sel s t he)
  | rdn idx sel => exact h.faultOrComplete (execRdn_cases idx sel s t he)
  | rdc idx sel => exact h.faultOrComplete (execRdc_cases idx sel s t he)
  | rdb idx sel => exact h.faultOrComplete (execRdb_cases idx sel s t he)

/-- Settles O40: a command keeps the invariants by the lemma of its meaning, and what happens at
the ports is reset, a fault, or nothing the invariants speak of. -/
theorem everyStepKeepsInvariant : Obligations.EveryStepKeepsInvariant := by
  unfold Obligations.EveryStepKeepsInvariant
  intro s t h hstep
  rcases step_cases s t hstep with ⟨cw, rest, i, -, -, -, he⟩ | ⟨cw, rest, e, -, -, -, rfl⟩ |
    ⟨rest, -, rfl⟩ | ⟨rest, r, -, -, rfl⟩ | ⟨-, -, rfl⟩
  · exact (h.withPorts rest s.rsp).exec he
  · exact (h.withPorts rest s.rsp).raiseFault .illop
  · exact (h.withPorts rest s.rsp).applyReset
  · exact h.withPorts rest none
  · exact h

/-- Settles O39: the reset state is a fresh state for every NMAX of R7. -/
theorem invariantHoldsAtReset : Obligations.InvariantHoldsAtReset := by
  unfold Obligations.InvariantHoldsAtReset
  intro nmax hpos hcap
  exact Invariants.fresh hpos hcap rfl rfl rfl rfl rfl rfl rfl rfl rfl

end Sys2Proof.Machine
end

section
/-!
What a host can see (`SameView`) and what it cannot: two states that meet the invariants and look
alike step to states that look alike. One lemma for each operation that writes the state, one for
each command, and one for the ports.
-/

namespace Sys2Proof.Machine

/-! ### What two alike states have in common -/

/-- The leaves are among the slots in use (R36). -/
theorem Invariants.nleaf_le_nnode {s : State} (h : Invariants s) :
    s.nleaf.toNat ≤ s.nnode.toNat := by
  by_cases hp : s.status.phase = .load
  · rw [h.load_nnode hp]
  · have := h.built_nnode hp
    omega

/-- An index below a successor, even one that wraps, is the last one or below it. -/
theorem lt_of_lt_succ_of_ne {x : Index} {i : Nat} (h : i < (x + 1).toNat) (hne : i ≠ x.toNat) :
    i < x.toNat := by
  have hle : (x + 1).toNat ≤ x.toNat + 1 := by
    rw [BitVec.toNat_add]
    exact Nat.mod_le _ _
  omega

namespace SameView

variable {s t : State} (h : SameView s t)
include h

theorem hasSymbol (hs : Invariants s) (sym : Symbol) : s.hasSymbol sym = t.hasSymbol sym := by
  have hle := hs.nleaf_le_nnode
  rw [Bool.eq_iff_iff, hasSymbol_iff, hasSymbol_iff, ← h.nleaf]
  refine exists_congr fun i => and_congr_right fun hi => ?_
  rw [h.node i (by omega)]

theorem lowest {pq : List Index} (hm : ∀ i ∈ pq, i.toNat < s.nnode.toNat) :
    t.lowest pq = s.lowest pq :=
  lowest_congr s t pq fun i hi => (h.node i.toNat (hm i hi)).symm

/-- A path from a node in use passes nodes in use alone, so alike states follow it alike. -/
theorem follow (hT : TreeOk s) {i : Index} (hi : i.toNat < s.nnode.toNat) (p : List Bool) :
    t.follow i p = s.follow i p := by
  induction p generalizing i with
  | nil => rfl
  | cons b rest ih =>
    rw [follow_cons, follow_cons, State.child, State.child, ← h.node i.toNat hi]
    cases hk : (s.nodeAt i.toNat).kind with
    | leaf => rfl
    | internal =>
      have hin : s.nleaf.toNat ≤ i.toNat := by
        by_contra hlt
        rw [hT.leaf _ (by omega)] at hk
        cases hk
      have := hT.child_lt hin hi b
      exact ih (i := s.child i b) (by omega)

/-! ### The operations that write the state -/

theorem raiseFault (e : Err) : SameView (raiseFault e s) (raiseFault e t) where
  __ := h
  status := congrArg (·.latch e) h.status
  rsp := rfl
  ct hd := h.ct (by simpa using hd)

theorem complete (d : BitVec 32) : SameView (complete d s) (complete d t) where
  __ := h
  rsp := rfl

theorem withPorts (host : List HostEvent) {r r' : Option RspWord} (hr : r = r') :
    SameView { s with host := host, rsp := r } { t with host := host, rsp := r' } where
  __ := h
  rsp := hr
  host := rfl

theorem newInvocation : SameView (newInvocation s) (newInvocation t) where
  status := rfl
  nleaf := rfl
  nnode := rfl
  qcnt := rfl
  root := rfl
  total := rfl
  nmax := h.nmax
  pq := rfl
  rsp := h.rsp
  host := h.host
  node i hi := absurd hi (Nat.not_lt_zero i)
  ct hd := nomatch hd

theorem loadLeaf (hnn : s.nnode = s.nleaf) (hp : s.status.phase = .load) (sym : Symbol)
    (cnt : Weight) : SameView (s.loadLeaf sym cnt) (t.loadLeaf sym cnt) where
  status := h.status
  nleaf := congrArg (· + 1) h.nleaf
  nnode := congrArg (· + 1) h.nleaf
  qcnt := congrArg (· + 1) h.qcnt
  root := h.root
  total := congrArg (· + cnt) h.total
  nmax := h.nmax
  pq := congrArg₂ pqInsert h.nleaf h.pq
  rsp := h.rsp
  host := h.host
  node i hi := by
    rw [nodeAt_set s _ i (leafNode sym cnt) (s.loadLeaf sym cnt) rfl,
      nodeAt_set t _ i (leafNode sym cnt) (t.loadLeaf sym cnt) rfl, ← h.nleaf]
    split
    · rfl
    · next hne => exact h.node i (hnn ▸ lt_of_lt_succ_of_ne hi hne)
  ct hd := by rw [loadLeaf_status, hp] at hd; cases hd

theorem setEmpty : SameView s.setEmpty t.setEmpty where
  __ := h
  status := congrArg Status.builtEmpty h.status
  ct hd := nomatch hd

theorem merged {a b : Index} (ha : a.toNat < s.nnode.toNat) (hb : b.toNat < s.nnode.toNat) :
    SameView (s.merged a b) (t.merged a b) where
  __ := h
  nnode := congrArg (· + 1) h.nnode
  qcnt := congrArg (· - 1 - 1 + 1) h.qcnt
  pq := congrArg₂ pqInsert h.nnode (congrArg (fun pq => pqRemove b (pqRemove a pq)) h.pq)
  node i hi := by
    rw [merged_nodeAt, merged_nodeAt, ← h.nnode, mergedNode, mergedNode, ← h.node _ ha,
      ← h.node _ hb]
    split
    · rfl
    · next hne => exact h.node i (lt_of_lt_succ_of_ne hi hne)

theorem takeRoot (r : Index) : SameView ((s.dequeue r).setRoot r) ((t.dequeue r).setRoot r) where
  __ := h
  status := congrArg₂ (fun st n => Status.builtTree st (decide (n = 1))) h.status h.nleaf
  qcnt := congrArg (· - 1) h.qcnt
  root := rfl
  pq := congrArg (pqRemove r) h.pq
  ct hd := nomatch hd

theorem storeTable {ct ct' : Slots CtEntry}
    (hct : ∀ i, i < s.nleaf.toNat → (s.storeTable ct).ctAt i = (t.storeTable ct').ctAt i) :
    SameView (s.storeTable ct) (t.storeTable ct') where
  __ := h
  status := congrArg Status.toDerived h.status
  ct _ := hct

/-! ### BLD: the merge loop and the root (R125) -/

theorem mergeStep (hf : Forest s) (hq : 2 ≤ s.qcnt.toNat) :
    ∃ u v, s.mergeStep = .ok u ∧ t.mergeStep = .ok v ∧ SameView u v ∧ Forest u := by
  obtain ⟨a, b, ha, hb, hu⟩ := hf.mergeStep_ok hq
  have hrest : ∀ i ∈ pqRemove a s.pq, i ∈ s.pq := fun i hi => ((mem_pqRemove a i s.pq).1 hi).1
  have hta : t.lowest t.pq = some a := by rw [← h.pq, h.lowest hf.members, ha]
  have htb : t.lowest (pqRemove a t.pq) = some b := by
    rw [← h.pq, h.lowest fun i hi => hf.members i (hrest i hi), hb]
  have hslot : t.nnode.toNat < nnodeMax t.nmax := by
    rw [← h.nnode, ← h.nmax]; exact hf.free_slot hq
  refine ⟨_, _, hu, (mergeStep_ok t _).2 ⟨a, b, hta, htb, hslot, rfl⟩, ?_, hf.merged hq ha hb⟩
  exact h.merged (hf.members a (lowest_spec s _ a ha).1)
    (hf.members b (hrest b (lowest_spec s _ b hb).1))

theorem mergeLoop (hf : Forest s) {fuel : Nat} {u : State} (hu : s.mergeLoop fuel = .ok u) :
    ∃ v, t.mergeLoop fuel = .ok v ∧ SameView u v ∧ Forest u := by
  induction fuel generalizing s t with
  | zero => cases hu; exact ⟨t, rfl, h, hf⟩
  | succ k ih =>
    unfold State.mergeLoop at hu ⊢
    by_cases hq : 1 < s.qcnt.toNat
    · obtain ⟨s1, t1, hs1, ht1, h1, hf1⟩ := h.mergeStep hf hq
      rw [if_pos hq, hs1] at hu
      rw [if_pos (h.qcnt ▸ hq), ht1]
      exact ih h1 hf1 hu
    · rw [if_neg hq] at hu
      rw [if_neg (h.qcnt ▸ hq)]
      cases hu
      exact ⟨t, rfl, h, hf⟩

theorem buildTree (hf : Forest s) {u : State} (hu : s.buildTree = .ok u) :
    ∃ v, t.buildTree = .ok v ∧ SameView u v := by
  unfold State.buildTree at hu ⊢
  split at hu
  · cases hu
  · next s1 hs1 =>
    obtain ⟨t1, ht1, h1, hf1⟩ := h.mergeLoop hf hs1
    split at hu
    · cases hu
    · next r s2 hs2 =>
      cases hu
      obtain ⟨hr, rfl⟩ := (extractMin_ok s1 r s2).1 hs2
      have ht2 : t1.extractMin = .ok (r, t1.dequeue r) :=
        (extractMin_ok t1 r _).2 ⟨by rw [← h1.pq, h1.lowest hf1.members, hr], rfl⟩
      rw [← h.qcnt, ht1]
      simp only [ht2]
      exact ⟨_, rfl, h1.takeRoot r⟩

end SameView

/-! ### DRV: an entry is determined by the tree (R34, R41) -/

/-- An entry with zeros above its length is its bit string (R34). -/
theorem ctEntry_eq_of_bits {e e' : CtEntry} (h : e.cbits < 2 ^ e.clen.toNat)
    (h' : e'.cbits < 2 ^ e'.clen.toNat) (hb : CtEntry.bits e = CtEntry.bits e') : e = e' := by
  have hlen : e.clen.toNat = e'.clen.toNat := by
    simpa [CtEntry.bits] using congrArg List.length hb
  have hbits : e.cbits = e'.cbits := by
    refine Nat.eq_of_testBit_eq fun j => ?_
    by_cases hj : j < e.clen.toNat
    · have hget := congrArg (fun l => l[j]?) hb
      simpa [CtEntry.bits, hj, hlen ▸ hj] using hget
    · have hpow : 2 ^ e.clen.toNat ≤ 2 ^ j := Nat.pow_le_pow_right (by decide) (by omega)
      rw [Nat.testBit_lt_two_pow (by omega), Nat.testBit_lt_two_pow (by rw [← hlen] at h'; omega)]
  cases e
  cases e'
  exact congrArg₂ CtEntry.mk (BitVec.eq_of_toNat_eq hlen) hbits

/-- The entry of a leaf is determined by the paths of the tree (R41), since one path leads to it. -/
theorem LeafCode.ctAt_eq {s t : State} {i : Nat} (hs : LeafCode s i) (ht : LeafCode t i)
    (hi : i < s.nleaf.toNat) (hn : s.nleaf = t.nleaf) (hT : TreeOk s)
    (hroot : s.root.toNat < s.nnode.toNat)
    (hpath : ∀ p, t.follow t.root p = s.follow s.root p) : s.ctAt i = t.ctAt i := by
  refine ctEntry_eq_of_bits hs.high_zero ht.high_zero ?_
  show s.code i = t.code i
  rcases Nat.lt_or_ge s.nleaf.toNat 2 with h1 | h2
  · rw [hs.single (by omega), ht.single (by rw [← hn]; omega)]
  · obtain ⟨j, hj, hji⟩ := Option.map_eq_some_iff.1 (hs.path h2)
    obtain ⟨k, hk, hki⟩ := Option.map_eq_some_iff.1 (ht.path (hn ▸ h2))
    have hjk : j = k := BitVec.eq_of_toNat_eq (hji.trans hki.symm)
    rw [hpath, ← hjk] at hk
    exact hT.follow_inj hroot hj hk

/-! ### Each command -/

/-- Whatever state the first outcome answers, the second answers one that looks alike. -/
def AnswersAlike (o o' : Host.Outcome State Fault Refusal) : Prop :=
  ∀ s', o = .next s' → ∃ t', o' = .next t' ∧ SameView s' t'

namespace AnswersAlike

theorem next {s t : State} (h : SameView s t) : AnswersAlike (.next s) (.next t) := by
  intro s' hs'
  cases hs'
  exact ⟨t, rfl, h⟩

theorem faults {s t : State} (h : SameView s t) (e : Err) :
    AnswersAlike (faults e s) (faults e t) := next (h.raiseFault e)

theorem ite {c : Prop} [Decidable c] {a a' b b' : Host.Outcome State Fault Refusal}
    (ha : c → AnswersAlike a a') (hb : ¬ c → AnswersAlike b b') :
    AnswersAlike (if c then a else b) (if c then a' else b') := by
  split
  · exact ha ‹_›
  · exact hb ‹_›

end AnswersAlike

namespace SameView

variable {s t : State} (h : SameView s t)
include h

theorem execClr : AnswersAlike (execClr s) (execClr t) := .next (h.newInvocation.complete _)

theorem execLdf (hs : Invariants s) (sym : Symbol) (cnt : Weight) :
    AnswersAlike (execLdf sym cnt s) (execLdf sym cnt t) := by
  unfold Machine.execLdf
  rw [h.hasSymbol hs, h.nleaf, h.nmax, h.total, h.status]
  refine .ite (fun _ => .faults h _) fun _ => .ite (fun _ => .faults h _) fun hp =>
    .ite (fun _ => .faults h _) fun _ => .ite (fun _ => .faults h _) fun _ =>
      .ite (fun _ => .faults h _) fun _ => .next ?_
  have hload : s.status.phase = .load := by rw [h.status]; exact not_not.1 hp
  exact (h.loadLeaf (hs.load_nnode hload) hload sym cnt).complete _

theorem execBld (hs : Invariants s) : AnswersAlike (execBld s) (execBld t) := by
  unfold Machine.execBld
  rw [h.setEmpty.status, h.status, h.nleaf]
  refine .ite (fun _ => .faults h _) fun _ => .ite (fun _ => .faults h _) fun hp =>
    .ite (fun _ => .next (h.setEmpty.complete _)) fun hn => ?_
  have hload : s.status.phase = .load := by rw [h.status]; exact not_not.1 hp
  have hpos : 1 ≤ s.nleaf.toNat := by
    rw [h.nleaf]
    exact Nat.pos_of_ne_zero (toNat_ne hn)
  cases hu : s.buildTree with
  | error f => exact fun s' hs' => nomatch hs'
  | ok u =>
    obtain ⟨v, hv, huv⟩ := h.buildTree (hs.forest hload hpos) hu
    rw [hv]
    simp only [huv.status]
    exact .next (huv.complete _)

theorem execDrv (hs : Invariants s) (ht : Invariants t) :
    AnswersAlike (execDrv s) (execDrv t) := by
  unfold Machine.execDrv
  rw [h.status]
  refine .ite (fun _ => .faults h _) fun _ => .ite (fun _ => .faults h _) fun hp =>
    .ite (fun _ => .faults h _) fun hv => ?_
  have hbt : t.status.phase = .built := not_not.1 hp
  have hvt : t.status.rootv = true := by simpa using hv
  have hbs : s.status.phase = .built := h.status ▸ hbt
  have hvs : s.status.rootv = true := h.status ▸ hvt
  obtain ⟨cs, hcs, hwf, hleafs, -⟩ := hs.derivedTable hbs hvs
  obtain ⟨cu, hcu, -, hleaft, -⟩ := ht.derivedTable hbt hvt
  rw [hcs, hcu]
  refine .next ((h.storeTable fun i hi => ?_).complete _)
  have hbuilt : s.status.phase ≠ .load := by rw [hbs]; decide
  have hroot : s.root.toNat < s.nnode.toNat := by
    have := hs.root_last hbuilt (by omega)
    have := hs.built_nnode hbuilt
    omega
  refine (hleafs i hi).ctAt_eq (hleaft i (h.nleaf ▸ hi)) hi h.nleaf
    (hs.storeTable hbs hvs hwf hleafs).treeOk hroot
    fun p => ?_
  rw [follow_congr t (t.storeTable cu) fun _ => rfl, follow_congr s (s.storeTable cs) fun _ => rfl]
  exact h.root ▸ h.follow hs.treeOk hroot p

theorem statusRegister (sel : Nat) : s.statusRegister sel = t.statusRegister sel := by
  unfold State.statusRegister
  rw [h.status, h.nleaf, h.nnode, h.qcnt, h.root, h.total, h.nmax]

theorem execRds (sel : BitVec 16) : AnswersAlike (execRds sel s) (execRds sel t) := by
  unfold Machine.execRds
  rw [h.statusRegister]
  cases t.statusRegister sel.toNat with
  | some v => exact .next (h.complete v)
  | none => exact .faults h _

theorem nodeGroup {idx : Index} (hi : idx.toNat < s.nnode.toNat) (sel : Nat) :
    s.nodeGroup idx sel = t.nodeGroup idx sel := by
  unfold State.nodeGroup State.inq
  rw [h.node _ hi, h.pq]

theorem execRdn (idx : Index) (sel : BitVec 16) :
    AnswersAlike (execRdn idx sel s) (execRdn idx sel t) := by
  unfold Machine.execRdn
  rw [← h.nnode]
  refine .ite (fun _ => .faults h _) fun _ => .ite (fun _ => .faults h _) fun hr => ?_
  rw [← h.nodeGroup (Nat.lt_of_not_le hr)]
  exact .next (h.complete _)

theorem entryGroup (hs : Invariants s) (hd : s.status.phase = .derived) {idx : Index}
    (hi : idx.toNat < s.nleaf.toNat) (sel : Nat) : s.entryGroup idx sel = t.entryGroup idx sel := by
  unfold State.entryGroup
  rw [h.node _ (Nat.lt_of_lt_of_le hi hs.nleaf_le_nnode), h.ct hd _ hi]

theorem execRdc (hs : Invariants s) (idx : Index) (sel : BitVec 16) :
    AnswersAlike (execRdc idx sel s) (execRdc idx sel t) := by
  unfold Machine.execRdc
  rw [← h.status, ← h.nleaf]
  refine .ite (fun _ => .faults h _) fun hd => .ite (fun _ => .faults h _) fun _ =>
    .ite (fun _ => .faults h _) fun hr => ?_
  rw [← h.entryGroup hs (not_not.1 hd) (Nat.lt_of_not_le hr)]
  exact .next (h.complete _)

theorem execRdb (idx : Index) (sel : BitVec 16) :
    AnswersAlike (execRdb idx sel s) (execRdb idx sel t) := by
  unfold Machine.execRdb
  rw [← h.status, ← h.nleaf, ← h.nmax]
  refine .ite (fun _ => .faults h _) fun hd => .ite (fun _ => .faults h _) fun _ =>
    .ite (fun _ => .faults h _) fun hr => ?_
  rw [← h.ct (not_not.1 hd) _ (Nat.lt_of_not_le hr)]
  exact .next (h.complete _)

theorem exec (hs : Invariants s) (ht : Invariants t) (i : Instr) :
    AnswersAlike (exec i s) (exec i t) := by
  cases i with
  | clr => exact h.execClr
  | ldf sym cnt => exact h.execLdf hs sym cnt
  | bld => exact h.execBld hs
  | drv => exact h.execDrv hs ht
  | rds sel => exact h.execRds sel
  | rdn idx sel => exact h.execRdn idx sel
  | rdc idx sel => exact h.execRdc hs idx sel
  | rdb idx sel => exact h.execRdb idx sel

end SameView

/-! ### The ports -/

/-- Reset leaves one view of every state with the same NMAX and the same host (R210). -/
theorem sameView_applyReset {s t : State} (hn : s.nmax = t.nmax) (hh : s.host = t.host) :
    SameView (applyReset s) (applyReset t) := by
  unfold applyReset
  rw [hn, hh]
  exact ⟨rfl, rfl, rfl, rfl, rfl, rfl, rfl, rfl, rfl, rfl, fun _ _ => rfl, fun _ _ _ => rfl⟩

theorem SameView.acceptWord_none {s t : State} (h : SameView s t) (hs : s.acceptWord = none) :
    t.acceptWord = none := by
  by_contra hne
  obtain ⟨⟨cw, t'⟩, ht⟩ := Option.ne_none_iff_exists'.1 hne
  obtain ⟨rest, hh, hr, -⟩ := (acceptWord_some t t' cw).1 ht
  rw [(acceptWord_some s _ cw).2 ⟨rest, h.host.trans hh, h.rsp.trans hr, rfl⟩] at hs
  cases hs

theorem SameView.portTurn {s t : State} (h : SameView s t) : SameView s.portTurn t.portTurn := by
  unfold State.portTurn State.rspValid
  rw [← h.rsp]
  cases hs : s.host with
  | nil => rw [← h.host, hs]; exact h
  | cons ev rest =>
    rw [← h.host, hs]
    cases ev with
    | reset => exact sameView_applyReset h.nmax rfl
    | send cw => exact h
    | take =>
      dsimp only
      split
      · exact h.withPorts rest rfl
      · exact h

/-- Settles O52: alike states accept the same word, each command answers alike by the lemma of its
meaning, and so do the ports. -/
theorem unusedContentIsNeverSeen : Obligations.UnusedContentIsNeverSeen := by
  unfold Obligations.UnusedContentIsNeverSeen
  intro s t hs ht h
  show AnswersAlike (step s) (step t)
  cases ha : s.acceptWord with
  | none =>
    rw [step_port s ha, step_port t (h.acceptWord_none ha)]
    exact .next h.portTurn
  | some p =>
    obtain ⟨cw, s1⟩ := p
    obtain ⟨rest, hh, hr, -⟩ := (acceptWord_some s s1 cw).1 ha
    have hrt : t.rsp = none := h.rsp ▸ hr
    have hv : SameView { s with host := rest } { t with host := rest } := h.withPorts rest h.rsp
    rw [step_send s cw rest hh hr, step_send t cw rest (h.host ▸ hh) hrt]
    cases hd : decode cw with
    | ok i =>
      rw [runWord_ok cw i _ hd, runWord_ok cw i _ hd]
      exact hv.exec (hs.withPorts rest s.rsp) (ht.withPorts rest t.rsp) i
    | error e =>
      rw [runWord_error cw e _ hd, runWord_error cw e _ hd]
      exact .next (hv.raiseFault .illop)

end Sys2Proof.Machine
end

section
/-!
What a step does to the registers (R22 to R30 of spec/10_state.md): every step is one of seven
effects, and what moves PHASE, the flags, ERR, NMAX and the arena is read off them.
-/

namespace Sys2Proof.Machine

/-! ### The effects of a step -/

/-- The block's part of what a step does, by the rule it follows; `rest` is what the host does
afterwards. -/
inductive StepEffect (s t : State) : Prop
  /-- Reset or an accepted CLR (R210, R101). -/
  | restarts (hstart : startsInvocation s) (hstatus : t.status = Status.reset)
      (hnmax : t.nmax = s.nmax) (hrsp : t.rsp = none ∨ t.rsp = some (responseWord 0#8 0#32))
  /-- The fault action (R181). -/
  | faults (e : Err) (rest : List HostEvent) (heq : t = raiseFault e { s with host := rest })
  /-- An LDF whose checks pass (R103). -/
  | loads (sym : Symbol) (cnt : Weight) (d : BitVec 32) (rest : List HostEvent)
      (hload : s.status.phase = .load)
      (heq : t = complete d (State.loadLeaf { s with host := rest } sym cnt))
  /-- BLD on the empty map (R127). -/
  | buildsEmpty (d : BitVec 32) (rest : List HostEvent) (hsend : sends s .bld)
      (hload : s.status.phase = .load)
      (heq : t = complete d (State.setEmpty { s with host := rest }))
  /-- BLD on one entry or more (R125). -/
  | buildsTree (d : BitVec 32) (rest : List HostEvent) (u : State) (hsend : sends s .bld)
      (hload : s.status.phase = .load) (hleaf : s.nleaf ≠ 0)
      (hu : State.buildTree { s with host := rest } = .ok u) (heq : t = complete d u)
  /-- DRV on a built tree (R141). -/
  | derives (d : BitVec 32) (rest : List HostEvent) (ct : Slots CtEntry) (hsend : sends s .drv)
      (hbuilt : s.status.phase = .built)
      (heq : t = complete d (State.storeTable { s with host := rest } ct))
  /-- A read that completes, a response taken, or nothing (R164, R214). -/
  | portsOnly (rsp : Option RspWord) (rest : List HostEvent)
      (hrsp : rsp = none ∨ rsp = s.rsp ∨ ∃ d, rsp = some (responseWord 0#8 d))
      (heq : t = { s with host := rest, rsp := rsp })

theorem sends_of_host {s : State} {cw : CmdWord} {rest : List HostEvent} {i : Instr}
    (hh : s.host = .send cw :: rest) (hd : decode cw = .ok i) : sends s i :=
  ⟨cw, by rw [hh]; rfl, hd⟩

theorem startsInvocation_of_sends_clr {s : State} (h : sends s .clr) : startsInvocation s := .inr h

/-- The effect of a command the host sends. -/
theorem stepEffect_of_exec {s t : State} {i : Instr} {rest : List HostEvent} (hs : sends s i)
    (he : exec i { s with host := rest } = .next t) : StepEffect s t := by
  rcases exec_cases i _ t he with ⟨e, heq⟩ | ⟨rfl, heq⟩ |
    ⟨sym, cnt, rfl, -, hload, -, -, -, heq⟩ | ⟨rfl, -, hload, -, heq⟩ |
    ⟨rfl, -, hload, hleaf, u, hu, heq⟩ | ⟨rfl, -, hbuilt, -, ct, -, heq⟩ | ⟨-, d, heq⟩
  · exact .faults e rest heq
  · exact .restarts (startsInvocation_of_sends_clr hs) (by rw [heq]; rfl) (by rw [heq]; rfl)
      (.inr (by rw [heq]; rfl))
  · exact .loads sym cnt _ rest hload heq
  · exact .buildsEmpty _ rest hs hload heq
  · exact .buildsTree _ rest u hs hload hleaf hu heq
  · exact .derives _ rest ct hs hbuilt heq
  · exact .portsOnly _ rest (.inr (.inr ⟨d, rfl⟩)) heq

/-- Every step is one of the seven effects. -/
theorem stepEffect_of_step {s t : State} (h : step s = .next t) : StepEffect s t := by
  rcases step_cases s t h with ⟨cw, rest, i, hh, -, hd, he⟩ | ⟨cw, rest, e, -, -, -, heq⟩ |
    ⟨rest, hh, heq⟩ | ⟨rest, r, -, -, heq⟩ | ⟨-, -, heq⟩
  · exact stepEffect_of_exec (sends_of_host hh hd) he
  · exact .faults .illop rest heq
  · exact .restarts (.inl (by rw [hh]; rfl)) (by rw [heq]; rfl) (by rw [heq]; rfl)
      (.inl (by rw [heq]; rfl))
  · exact .portsOnly none rest (.inl rfl) heq
  · exact .portsOnly s.rsp s.host (.inr (.inl rfl)) heq

theorem buildTree_status {s u : State} (h : s.buildTree = .ok u) :
    u.status = s.status.builtTree (decide (s.nleaf = 1)) :=
  congrArg State.status (buildTree_writes s u h)

theorem buildTree_nmax {s u : State} (h : s.buildTree = .ok u) : u.nmax = s.nmax :=
  (congrArg State.nmax (buildTree_writes s u h) :)

/-! ### PHASE, the flags and NMAX -/

/-- Settles O42: PHASE is written by a restart, by the two forms of BLD and by DRV. -/
theorem phaseMovesAsTheRuleSays : Obligations.PhaseMovesAsTheRuleSays := by
  unfold Obligations.PhaseMovesAsTheRuleSays
  intro s t hstep
  cases stepEffect_of_step hstep with
  | restarts hstart hstatus _ _ => exact .inr (.inl ⟨by rw [hstatus]; rfl, hstart⟩)
  | faults e rest heq => exact .inl (by rw [heq]; exact latch_phase _ _)
  | loads _ _ _ _ _ heq => exact .inl (by rw [heq]; rfl)
  | buildsEmpty d rest hsend hload heq =>
    exact .inr (.inr (.inl ⟨hload, by rw [heq]; rfl, hsend, d, by rw [heq]; rfl⟩))
  | buildsTree d rest u hsend hload _ hu heq =>
    have hphase : t.status.phase = .built := by rw [heq, complete_status, buildTree_status hu]; rfl
    exact .inr (.inr (.inl ⟨hload, hphase, hsend, d, by rw [heq]; rfl⟩))
  | derives d rest ct hsend hbuilt heq =>
    exact .inr (.inr (.inr ⟨hbuilt, by rw [heq]; rfl, hsend, d, by rw [heq]; rfl⟩))
  | portsOnly _ _ _ heq => exact .inl (by rw [heq])

/-- Settles O44: a restart keeps NMAX, and no other effect writes it. -/
theorem nmaxIsConstant : Obligations.NmaxIsConstant := by
  unfold Obligations.NmaxIsConstant
  intro s t hstep
  cases stepEffect_of_step hstep with
  | restarts _ _ hnmax _ => exact hnmax
  | faults _ _ heq => rw [heq]; rfl
  | loads _ _ _ _ _ heq => rw [heq]; rfl
  | buildsEmpty _ _ _ _ heq => rw [heq]; rfl
  | buildsTree _ _ u _ _ _ hu heq => rw [heq, complete_nmax, buildTree_nmax hu]
  | derives _ _ _ _ _ heq => rw [heq]; rfl
  | portsOnly _ _ _ heq => rw [heq]

/-- Settles O43: the flags are 0 in LOAD (R40), so each form of BLD leaves one of ROOTV and EMPTY
set; a restart clears them, and no other effect writes them. -/
theorem flagsAreWrittenOnlyByBld : Obligations.FlagsAreWrittenOnlyByBld := by
  unfold Obligations.FlagsAreWrittenOnlyByBld
  intro s t hs hstep
  constructor
  · cases stepEffect_of_step hstep with
    | restarts hstart hstatus _ _ => exact .inr (.inl ⟨hstart, by simp [hstatus]⟩)
    | faults e rest heq => exact .inl (by simp [heq])
    | loads _ _ _ _ _ heq => exact .inl (by simp [heq])
    | buildsEmpty d rest hsend hload heq =>
      obtain ⟨hrootv, -, hsingle, -⟩ := hs.load_flags hload
      exact .inr (.inr ⟨hsend, hload, by simp [heq, hrootv, hsingle]⟩)
    | buildsTree d rest u hsend hload _ hu heq =>
      obtain ⟨-, hempty, -, -⟩ := hs.load_flags hload
      exact .inr (.inr ⟨hsend, hload, by simp [heq, buildTree_status hu, hempty]⟩)
    | derives _ _ _ _ _ heq => exact .inl (by simp [heq])
    | portsOnly _ _ _ heq => exact .inl (by simp [heq])
  · intro hload
    obtain ⟨hrootv, hempty, hsingle, -⟩ := (everyStepKeepsInvariant s t hs hstep).load_flags hload
    exact ⟨hrootv, hempty, hsingle⟩

/-! ### ERR (R25, R191) -/

/-- What a step does to ERR: a restart clears it, the fault action latches its code, and any other
effect leaves it and offers no fault's response. -/
theorem StepEffect.err {s t : State} (h : StepEffect s t) :
    (startsInvocation s ∧ t.status.err = none ∧ ∀ e : Err, t.rsp ≠ some (responseWord e.code 0)) ∨
    (∃ e : Err, t.status.err = some (s.status.err.getD e) ∧
      t.rsp = some (responseWord e.code 0)) ∨
    (t.status.err = s.status.err ∧
      (s.rsp = none → ∀ e : Err, t.rsp ≠ some (responseWord e.code 0))) := by
  have hcompletes : ∀ (d : BitVec 32) (e : Err),
      some (responseWord 0#8 d) ≠ some (responseWord e.code 0) := fun d e heq =>
    code_ne_zero e (responseWord_inj.1 (Option.some.inj heq)).1.symm
  cases h with
  | restarts hstart hstatus _ hrsp =>
    refine .inl ⟨hstart, by rw [hstatus]; rfl, fun e => ?_⟩
    rcases hrsp with hrsp | hrsp <;> rw [hrsp]
    · exact nofun
    · exact hcompletes _ e
  | faults e rest heq => exact .inr (.inl ⟨e, by rw [heq]; exact latch_err _ _, by rw [heq]; rfl⟩)
  | loads _ _ d _ _ heq => exact .inr (.inr ⟨by rw [heq]; rfl, fun _ e => heq ▸ hcompletes d e⟩)
  | buildsEmpty d _ _ _ heq => exact .inr (.inr ⟨by rw [heq]; rfl, fun _ e => heq ▸ hcompletes d e⟩)
  | buildsTree d _ u _ _ _ hu heq =>
    refine .inr (.inr ⟨?_, fun _ e => heq ▸ hcompletes d e⟩)
    rw [heq, complete_status, buildTree_status hu]
    rfl
  | derives d _ _ _ _ heq => exact .inr (.inr ⟨by rw [heq]; rfl, fun _ e => heq ▸ hcompletes d e⟩)
  | portsOnly rsp rest hrsp heq =>
    refine .inr (.inr ⟨by rw [heq], fun hnone e => ?_⟩)
    rw [heq]
    rcases hrsp with rfl | rfl | ⟨d, rfl⟩
    · exact nofun
    · rw [hnone]; exact nofun
    · exact hcompletes d e

/-- A command the host sends to a ready block is what the step runs (R214). -/
theorem step_of_sends {s : State} {i : Instr} (h : sends s i) (hr : s.rsp = none) :
    ∃ rest, step s = exec i { s with host := rest } := by
  obtain ⟨cw, hh, hd⟩ := h
  obtain ⟨rest, hh⟩ := List.head?_eq_some_iff.1 hh
  exact ⟨rest, (step_send s cw rest hh hr).trans (runWord_ok cw i _ hd)⟩

/-- A reset the host applies is the step (R210). -/
theorem step_reset {s : State} {rest : List HostEvent} (hh : s.host = .reset :: rest) :
    step s = .next (applyReset { s with host := rest }) := by
  simp only [step, State.acceptWord, State.portTurn, hh]

/-- The lock refuses LDF, BLD and DRV before any other check (R182). -/
theorem exec_of_locked {i : Instr} {s : State} (hi : lockable i = true)
    (he : s.status.err ≠ none) : exec i s = .next (raiseFault .faulted s) := by
  have hl : s.status.locked = true := (locked_iff _).2 he
  cases i with
  | ldf | bld | drv => exact if_pos hl
  | clr | rds | rdn | rdc | rdb => cases hi

/-- Settles O38: the first three clauses by what an effect does to ERR, the last two by the
command or the reset that the step runs. -/
theorem errKeepsFirstFault : Obligations.ErrKeepsFirstFault := by
  unfold Obligations.ErrKeepsFirstFault
  intro s t hstep
  have herr := (stepEffect_of_step hstep).err
  refine ⟨fun e he => ?_, fun hnone e he => ?_, fun hnone hrsp e he => ?_, fun hclr => ?_,
    fun he hrsp i hi hsend => ?_⟩
  · rcases herr with ⟨hstart, ht, -⟩ | ⟨e', ht, -⟩ | ⟨ht, -⟩
    · exact .inr ⟨ht, hstart⟩
    · exact .inl (by rw [ht, he]; rfl)
    · exact .inl (ht.trans he)
  · rcases herr with ⟨-, ht, -⟩ | ⟨e', ht, hr⟩ | ⟨ht, -⟩
    · rw [ht] at he; cases he
    · rw [ht, hnone] at he
      cases he
      exact hr
    · rw [ht, hnone] at he; cases he
  · rcases herr with ⟨-, -, hr⟩ | ⟨e', ht, hr⟩ | ⟨-, hr⟩
    · exact absurd he (hr e)
    · have hcode : e'.code = e.code := (responseWord_inj.1 (Option.some.inj (hr.symm.trans he))).1
      rw [ht, hnone, code_inj.1 hcode]
      rfl
    · exact absurd he (hr hrsp e)
  · rcases hclr with hreset | ⟨hrsp, hsend⟩
    · obtain ⟨rest, hh⟩ := List.head?_eq_some_iff.1 hreset
      cases (step_reset hh).symm.trans hstep
      rfl
    · obtain ⟨rest, hs⟩ := step_of_sends hsend hrsp
      cases hs.symm.trans hstep
      rfl
  · obtain ⟨rest, hs⟩ := step_of_sends hsend hrsp
    rw [exec_of_locked hi (s := { s with host := rest }) he] at hs
    cases hs.symm.trans hstep
    rfl

/-! ### The arena (R30) -/

/-- NNODE does not fall, and every slot in use keeps its node. -/
def SlotsKept (s t : State) : Prop :=
  s.nnode.toNat ≤ t.nnode.toNat ∧ ∀ i, i < s.nnode.toNat → t.nodeAt i = s.nodeAt i

theorem SlotsKept.of_node {s t : State} (hn : t.nnode = s.nnode) (h : t.node = s.node) :
    SlotsKept s t := ⟨by rw [hn], fun i _ => nodeAt_congr s t h i⟩

theorem SlotsKept.trans {s t u : State} (h : SlotsKept s t) (h' : SlotsKept t u) :
    SlotsKept s u :=
  ⟨h.1.trans h'.1, fun i hi => (h'.2 i (Nat.lt_of_lt_of_le hi h.1)).trans (h.2 i hi)⟩

/-- LDF takes slot NLEAF, which in LOAD is the first one not in use. -/
theorem Invariants.slotsKept_loadLeaf {s : State} (h : Invariants s)
    (hp : s.status.phase = .load) (sym : Symbol) (cnt : Weight) :
    SlotsKept s (s.loadLeaf sym cnt) := by
  have hle := h.nleaf_le
  have hmax : s.nmax.toNat ≤ 32768 := h.nmax_le
  have hsucc : (s.nleaf + 1).toNat = s.nleaf.toNat + 1 := toNat_succ (by omega)
  rw [SlotsKept, loadLeaf_nnode, hsucc, h.load_nnode hp]
  refine ⟨Nat.le_succ _, fun i hi => ?_⟩
  rw [nodeAt_set s _ i (leafNode sym cnt) (s.loadLeaf sym cnt) rfl, if_neg (Nat.ne_of_lt hi)]

/-- A merge takes slot NNODE. -/
theorem Forest.slotsKept_merged {s : State} (hf : Forest s) (hq : 2 ≤ s.qcnt.toNat)
    (a b : Index) : SlotsKept s (s.merged a b) := by
  have hfree := hf.free_slot hq
  have hmax := hf.nmax_le
  have hsucc : (s.nnode + 1).toNat = s.nnode.toNat + 1 :=
    toNat_succ (by unfold nnodeMax at hfree; omega)
  rw [SlotsKept, merged_nnode, hsucc]
  refine ⟨Nat.le_succ _, fun i hi => ?_⟩
  rw [merged_nodeAt, if_neg (Nat.ne_of_lt hi)]

theorem Invariants.slotsKept_buildTree {s u : State} (h : Invariants s)
    (hp : s.status.phase = .load) (hn : 1 ≤ s.nleaf.toNat) (hu : s.buildTree = .ok u) :
    SlotsKept s u := by
  obtain ⟨v, r, hv, -, hkept, -⟩ := h.buildTree hp hn (SlotsKept s)
    (fun w a b hf hq _ _ hw => hw.trans (hf.slotsKept_merged hq a b)) (.of_node rfl rfl)
  cases hu.symm.trans hv
  exact hkept.trans (.of_node rfl rfl)

/-- Settles O45: LDF and the merges of BLD write the first slot not in use, and no other effect
within an invocation writes the arena. -/
theorem slotsAreOnlyAppended : Obligations.SlotsAreOnlyAppended := by
  unfold Obligations.SlotsAreOnlyAppended
  intro s t hs hstep hnew
  show SlotsKept s t
  cases stepEffect_of_step hstep with
  | restarts hstart _ _ _ => exact absurd hstart hnew
  | faults _ _ heq => rw [heq]; exact .of_node rfl rfl
  | loads sym cnt _ rest hload heq =>
    rw [heq]
    exact (hs.withPorts rest s.rsp).slotsKept_loadLeaf hload sym cnt
  | buildsEmpty _ _ _ _ heq => rw [heq]; exact .of_node rfl rfl
  | buildsTree _ rest u _ hload hleaf hu heq =>
    have hpos : 1 ≤ s.nleaf.toNat := Nat.pos_of_ne_zero (toNat_ne hleaf)
    have hkept : SlotsKept s u := (hs.withPorts rest s.rsp).slotsKept_buildTree hload hpos hu
    rw [heq]
    exact hkept
  | derives _ _ _ _ _ heq => rw [heq]; exact .of_node rfl rfl
  | portsOnly _ _ _ heq => rw [heq]; exact .of_node rfl rfl

end Sys2Proof.Machine
end

section
/-!
The tree and the codes (R39 to R42 of spec/10_state.md; R147 of spec/42_derive.md): one path to
each node, weights as sums over leaves, and the codes of a filled table as the leaves of a full
binary tree.
-/

namespace Sys2Proof.Machine

/-! ### Paths and weights -/

/-- A built tree with a slot in use has its root among them (R40). -/
theorem Invariants.root_lt {s : State} (h : Invariants s) (hp : s.status.phase ≠ .load)
    (hn : 1 ≤ s.nleaf.toNat) : s.root.toNat < s.nnode.toNat := by
  have := h.root_last hp hn
  have := h.built_nnode hp
  omega

/-- Settles O47: a path exists since every node but the root has a parent, and it is the only one
since no node has two. -/
theorem everyNodeHasOnePath : Obligations.EveryNodeHasOnePath := by
  unfold Obligations.EveryNodeHasOnePath
  intro s h hp j hj
  have hn : 1 ≤ s.nleaf.toNat := by
    have := h.built_nnode hp
    omega
  obtain ⟨p, hpath⟩ := h.reach hp j hj
  exact ⟨p, hpath, fun q hq => h.treeOk.follow_inj (h.root_lt hp hn) hq hpath⟩

/-- A node in use is the root of a finite tree, whose leaves add up to its weight (R39). -/
theorem TreeOk.treeAt {s : State} (h : TreeOk s) {fuel : Nat} {k : Index}
    (hk : k.toNat < s.nnode.toNat) (hfuel : k.toNat < fuel) :
    ∃ T, s.treeAt fuel k = some T ∧ T.weight = (s.nodeAt k.toNat).wt ∧
      T.leafSum = (s.nodeAt k.toNat).wt.toNat := by
  induction fuel generalizing k with
  | zero => omega
  | succ fuel ih =>
    unfold State.treeAt
    by_cases hleaf : k.toNat < s.nleaf.toNat
    · rw [h.leaf _ hleaf]
      exact ⟨_, rfl, rfl, rfl⟩
    · have hI := h.internal k.toNat (by omega) hk
      have hl := hI.left_lt
      have hr := hI.right_lt
      obtain ⟨L, hL, -, hLsum⟩ := ih (k := (s.nodeAt k.toNat).left) (by omega) (by omega)
      obtain ⟨R, hR, -, hRsum⟩ := ih (k := (s.nodeAt k.toNat).right) (by omega) (by omega)
      rw [hI.kind]
      simp only [hL, hR]
      exact ⟨_, rfl, rfl, by rw [Tree.leafSum, hLsum, hRsum, hI.weight]⟩

/-- Weights do not rise along a path (R39). -/
theorem TreeOk.wtN_le_of_follow {s : State} (h : TreeOk s) {i j : Index} {p : List Bool}
    (hi : i.toNat < s.nnode.toNat) (hf : s.follow i p = some j) :
    s.wtN j.toNat ≤ s.wtN i.toNat := by
  induction p generalizing i with
  | nil => cases hf; exact Nat.le_refl _
  | cons b rest ih =>
    obtain ⟨hin, hrest⟩ := h.follow_cons_some hf
    have hlt := h.child_lt hin hi b
    have hchild : s.wtN (s.child i b).toNat ≤ s.wtN i.toNat := by
      have hw : s.wtN i.toNat = s.wtN (s.nodeAt i.toNat).left.toNat +
        s.wtN (s.nodeAt i.toNat).right.toNat := (h.internal _ hin hi).weight
      cases b <;> simp only [State.child, Bool.false_eq_true, if_false, if_true] <;> omega
    exact (ih (by omega) hrest).trans hchild

theorem Invariants.total_eq_sum {s : State} (h : Invariants s) :
    s.total.toNat = (Finset.range s.nleaf.toNat).sum s.wtN := by
  rw [h.total_eq, State.cost]
  simp only [Nat.mul_one]

/-- No node in use weighs more than TOTAL: in LOAD it is one of the leaves that TOTAL adds up, and
afterwards it lies below the root, whose weight is TOTAL (R39, R40). -/
theorem Invariants.wtN_le_total {s : State} (h : Invariants s) {k : Index}
    (hk : k.toNat < s.nnode.toNat) : s.wtN k.toNat ≤ s.total.toNat := by
  by_cases hp : s.status.phase = .load
  · rw [h.load_nnode hp] at hk
    rw [h.total_eq_sum]
    exact Finset.single_le_sum (f := s.wtN) (fun _ _ => Nat.zero_le _) (Finset.mem_range.2 hk)
  · have hn : 1 ≤ s.nleaf.toNat := by
      have := h.built_nnode hp
      omega
    obtain ⟨p, hpath⟩ := h.reach hp k hk
    rw [← h.root_weight hp hn]
    exact h.treeOk.wtN_le_of_follow (h.root_lt hp hn) hpath

/-- Settles O48: the sum of the loaded counts by its invariant, the tree of each node by induction
on its index, and the bound by the root. -/
theorem weightsAreSubtreeSums : Obligations.WeightsAreSubtreeSums := by
  unfold Obligations.WeightsAreSubtreeSums
  intro s h
  refine ⟨h.total_eq_sum, Nat.le_pred_of_lt s.total.isLt, fun k hk => ?_⟩
  obtain ⟨T, hT, hw, hsum⟩ := h.treeOk.treeAt hk (Nat.lt_succ_self _)
  exact ⟨T, hT, hw, hsum, h.wtN_le_total hk⟩

/-! ### The codes of a filled table -/

theorem code_length (s : State) (i : Nat) : (s.code i).length = (s.ctAt i).clen.toNat := by
  simp [State.code, CtEntry.bits]

/-- With two leaves or more, the code of a leaf leads to it from the root (R41). -/
theorem LeafCode.follow {s : State} {i : Nat} (h : LeafCode s i) (hn : 2 ≤ s.nleaf.toNat) :
    ∃ j : Index, s.follow s.root (s.code i) = some j ∧ j.toNat = i :=
  Option.map_eq_some_iff.1 (h.path hn)

/-- No path goes on from a leaf (R140). -/
theorem TreeOk.follow_of_leaf {s : State} (h : TreeOk s) {i j : Index} {p : List Bool}
    (hi : i.toNat < s.nleaf.toNat) (hf : s.follow i p = some j) : j = i := by
  cases p with
  | nil => exact (Option.some.inj hf).symm
  | cons b rest =>
    have := (h.follow_cons_some hf).1
    omega

/-- Settles O49: a code that begins another leads on from a leaf, where no path goes on. -/
theorem codesArePrefixFree : Obligations.CodesArePrefixFree := by
  unfold Obligations.CodesArePrefixFree
  intro s h hp
  refine ⟨fun i hi hnil => ?_, fun i j hi hj hij hpre => ?_⟩
  · have hpos := (h.codes hp i hi).length_pos
    rw [← code_length, hnil] at hpos
    exact absurd hpos (by decide)
  · have hn : 2 ≤ s.nleaf.toNat := by omega
    obtain ⟨a, ha, hai⟩ := (h.codes hp i hi).follow hn
    obtain ⟨b, hb, hbj⟩ := (h.codes hp j hj).follow hn
    obtain ⟨q, hq⟩ := hpre
    rw [← hq, follow_append, ha] at hb
    have hba : b = a := h.treeOk.follow_of_leaf (hai ▸ hi) hb
    exact hij (by rw [← hai, ← hbj, hba])

/-! ### The lengths of a full tree -/

/-- No node is deeper than NLEAF - 1 edges (R41). -/
theorem Invariants.depth_lt {s : State} (h : Invariants s) (hp : s.status.phase ≠ .load)
    {d : Nat → Nat} (hd : ∀ (j : Index) (p : List Bool), s.follow s.root p = some j →
      d j.toNat = p.length) {j : Nat} (hj : j < s.nnode.toNat) : d j < s.nleaf.toNat := by
  have hm := h.built_nnode hp
  have hn : 1 ≤ s.nleaf.toNat := by omega
  have hr := h.root_last hp hn
  have hj16 : (BitVec.ofNat 16 j).toNat = j := ofNat16_toNat (hj.trans s.nnode.isLt)
  obtain ⟨p, hpath⟩ := h.reach hp (BitVec.ofNat 16 j) (by rw [hj16]; exact hj)
  rw [← hj16, hd _ p hpath]
  by_cases hnil : p = []
  · rw [hnil]
    exact hn
  · have := ((h.treeOk.follow_bound (h.root_lt hp hn) hpath).2 hnil).1
    omega

/-- The leaves of a built tree fill it: each node stands for the sum of its children, so by the sum
over the edges the leaves stand for the root (R41). -/
theorem Invariants.sum_leaf_depths {s : State} (h : Invariants s) (hp : s.status.phase ≠ .load)
    (hn : 1 ≤ s.nleaf.toNat) {d : Nat → Nat} (h0 : d s.root.toNat = 0)
    (hchild : ∀ k, s.nleaf.toNat ≤ k → k < s.nnode.toNat →
      d (s.nodeAt k).left.toNat = d k + 1 ∧ d (s.nodeAt k).right.toNat = d k + 1)
    (hd : ∀ (j : Index) (p : List Bool), s.follow s.root p = some j → d j.toNat = p.length) :
    (Finset.range s.nleaf.toNat).sum (fun i => 2 ^ (s.nleaf.toNat - d i)) =
      2 ^ s.nleaf.toNat := by
  have hedges := h.edge_sum hp hn fun j => 2 ^ (s.nleaf.toNat - d j)
  have hsplit := Finset.sum_range_add_sum_Ico (fun j => 2 ^ (s.nleaf.toNat - d j))
    (show s.nleaf.toNat ≤ s.nnode.toNat from h.nleaf_le_nnode)
  have hinner : (Finset.Ico s.nleaf.toNat s.nnode.toNat).sum (fun k =>
      2 ^ (s.nleaf.toNat - d (s.nodeAt k).left.toNat) +
        2 ^ (s.nleaf.toNat - d (s.nodeAt k).right.toNat)) =
      (Finset.Ico s.nleaf.toNat s.nnode.toNat).sum fun k => 2 ^ (s.nleaf.toNat - d k) := by
    refine Finset.sum_congr rfl fun k hk => ?_
    obtain ⟨hk1, hk2⟩ := Finset.mem_Ico.1 hk
    obtain ⟨hl, hr⟩ := hchild k hk1 hk2
    have hlt := h.depth_lt hp hd hk2
    rw [hl, hr, show s.nleaf.toNat - d k = s.nleaf.toNat - (d k + 1) + 1 by omega, pow_succ]
    omega
  rw [hinner, h0, Nat.sub_zero] at hedges
  omega

/-- In a filled table of two leaves or more the length of a code is the depth of its leaf. -/
theorem Invariants.code_length_eq_depth {s : State} (h : Invariants s)
    (hp : s.status.phase = .derived) (hn : 2 ≤ s.nleaf.toNat) {d : Nat → Nat}
    (hd : ∀ (j : Index) (p : List Bool), s.follow s.root p = some j → d j.toNat = p.length)
    {i : Nat} (hi : i < s.nleaf.toNat) : (s.code i).length = d i := by
  obtain ⟨j, hj, hji⟩ := (h.codes hp i hi).follow hn
  rw [← hji, hd j _ hj, hji]

/-- Settles O50: the lengths are the depths of the leaves, and the leaves fill the tree. -/
theorem codeLengthsFillTheTree : Obligations.CodeLengthsFillTheTree := by
  unfold Obligations.CodeLengthsFillTheTree
  intro s h hp hn
  have hbuilt : s.status.phase ≠ .load := by rw [hp]; decide
  have hpos : 1 ≤ s.nleaf.toNat := Nat.le_of_lt hn
  refine ⟨fun i hi => ?_, ?_⟩
  · have := (h.codes hp i hi).length_le
    omega
  · obtain ⟨d, h0, hchild, hd⟩ := h.depths hbuilt hpos
    rw [← h.sum_leaf_depths hbuilt hpos h0 hchild hd]
    refine Finset.sum_congr rfl fun i hi => ?_
    rw [← code_length, h.code_length_eq_depth hp hn hd (Finset.mem_range.1 hi)]

/-! ### Optimality (R42) -/

/-- What the merges done so far and the best that can follow cost: any lengths `len0` for the
leaves of `s` that satisfy the Kraft inequality give lengths for the queue of `u` that satisfy it
too, and that with the weights of the nodes merged so far cost no more. -/
def MergedOptimally (s u : State) : Prop :=
  ∀ len0 : Nat → Nat, Laws.kraft (Finset.range s.nleaf.toNat) len0 ≤ 1 →
    ∃ len : Index → Nat, Laws.kraft u.pq.toFinset len ≤ 1 ∧
      u.pq.toFinset.sum (fun i => u.wtN i.toNat * len i) +
        (Finset.Ico u.nleaf.toNat u.nnode.toNat).sum u.wtN ≤ s.cost len0

/-- A sum over the queue of a loaded map is a sum over its leaves. -/
theorem Invariants.sum_queue {M : Type} [AddCommMonoid M] {s : State} (h : Invariants s)
    (hp : s.status.phase = .load) (f : Nat → M) :
    s.pq.toFinset.sum (fun i => f i.toNat) = (Finset.range s.nleaf.toNat).sum f := by
  refine Finset.sum_bij (fun i _ => i.toNat) (fun i hi => ?_) (fun i _ j _ hij => ?_)
    (fun k hk => ?_) fun _ _ => rfl
  · exact Finset.mem_range.2 ((h.load_queue hp i).1 (List.mem_toFinset.1 hi))
  · exact BitVec.eq_of_toNat_eq hij
  · have hk := Finset.mem_range.1 hk
    have hk16 : (BitVec.ofNat 16 k).toNat = k := ofNat16_toNat (hk.trans s.nleaf.isLt)
    exact ⟨BitVec.ofNat 16 k, List.mem_toFinset.2 ((h.load_queue hp _).2 (by rw [hk16]; exact hk)),
      hk16⟩

theorem Invariants.mergedOptimally_refl {s : State} (h : Invariants s)
    (hp : s.status.phase = .load) : MergedOptimally s s := by
  intro len0 hk
  refine ⟨fun i => len0 i.toNat, ?_, ?_⟩
  · exact (h.sum_queue hp fun i => (1 / 2 : ℚ) ^ len0 i).trans_le hk
  · rw [h.sum_queue hp fun i => s.wtN i * len0 i, h.load_nnode hp, Finset.Ico_self,
      Finset.sum_empty, Nat.add_zero]
    exact Nat.le_refl _

/-- A merge adds one node to those merged so far, and joins the two lightest of the queue. -/
theorem MergedOptimally.merged {s u : State} (h : MergedOptimally s u) (hf : Forest u)
    (hq : 2 ≤ u.qcnt.toNat) {a b : Index} (ha : u.lowest u.pq = some a)
    (hb : u.lowest (pqRemove a u.pq) = some b) : MergedOptimally s (u.merged a b) := by
  intro len0 hk0
  obtain ⟨len, hk, hcost⟩ := h len0 hk0
  obtain ⟨len', hk', hcost'⟩ := hf.merge_lengths hq ha hb len hk
  have hfree := hf.free_slot hq
  have hmax := hf.nmax_le
  have hsucc : (u.nnode + 1).toNat = u.nnode.toNat + 1 :=
    toNat_succ (by unfold nnodeMax at hfree; omega)
  have hold : (Finset.Ico u.nleaf.toNat u.nnode.toNat).sum (u.merged a b).wtN =
      (Finset.Ico u.nleaf.toNat u.nnode.toNat).sum u.wtN :=
    Finset.sum_congr rfl fun k hk => by
      rw [State.wtN, merged_nodeAt, if_neg (Nat.ne_of_lt (Finset.mem_Ico.1 hk).2)]
  refine ⟨len', hk', ?_⟩
  rw [merged_nleaf, merged_nnode, hsucc, Finset.sum_Ico_succ_top hf.nleaf_le_nnode, hold]
  omega

/-- The internal nodes of the tree BLD builds weigh no more than the leaves cost under any lengths
that satisfy the Kraft inequality (R42). -/
theorem Invariants.buildTree_optimal {s u : State} (h : Invariants s)
    (hp : s.status.phase = .load) (hn : 1 ≤ s.nleaf.toNat) (hu : s.buildTree = .ok u)
    {len0 : Nat → Nat} (hk : Laws.kraft (Finset.range s.nleaf.toNat) len0 ≤ 1) :
    (Finset.Ico u.nleaf.toNat u.nnode.toNat).sum u.wtN ≤ s.cost len0 := by
  obtain ⟨v, r, hv, -, hopt, -⟩ := h.buildTree hp hn (MergedOptimally s)
    (fun w a b hf hq ha hb hw => hw.merged hf hq ha hb) (h.mergedOptimally_refl hp)
  cases hu.symm.trans hv
  obtain ⟨len, -, hcost⟩ := hopt len0 hk
  exact (Nat.le_add_left _ _).trans hcost

theorem cost_congr_length (s : State) {len len' : Nat → Nat}
    (h : ∀ i, i < s.nleaf.toNat → len i = len' i) : s.cost len = s.cost len' :=
  Finset.sum_congr rfl fun i hi => congrArg _ (h i (Finset.mem_range.1 hi))

/-- What a filled table of two leaves or more costs is the weight of the internal nodes. -/
theorem Invariants.cost_codes {s : State} (h : Invariants s) (hp : s.status.phase = .derived)
    (hn : 2 ≤ s.nleaf.toNat) : s.cost (fun i => (s.code i).length) =
      (Finset.Ico s.nleaf.toNat s.nnode.toNat).sum s.wtN := by
  have hbuilt : s.status.phase ≠ .load := by rw [hp]; decide
  have hpos : 1 ≤ s.nleaf.toNat := Nat.le_of_lt hn
  obtain ⟨d, h0, hchild, hd⟩ := h.depths hbuilt hpos
  rw [← h.cost_depths hbuilt hpos d h0 hchild]
  exact cost_congr_length s fun i hi => h.code_length_eq_depth hp hn hd hi

/-- The code "0" of a single leaf costs TOTAL (R143). -/
theorem Invariants.cost_codes_single {s : State} (h : Invariants s)
    (hp : s.status.phase = .derived) (hn : s.nleaf.toNat = 1) :
    s.cost (fun i => (s.code i).length) = s.total.toNat := by
  rw [h.total_eq]
  exact cost_congr_length s fun i hi => by rw [(h.codes hp i hi).single hn]; rfl

/-- Lengths of one bit or more cost at least TOTAL. -/
theorem Invariants.total_le_cost {s : State} (h : Invariants s) {len : Nat → Nat}
    (hlen : ∀ i, i < s.nleaf.toNat → 1 ≤ len i) : s.total.toNat ≤ s.cost len := by
  rw [h.total_eq]
  exact Finset.sum_le_sum fun i hi => Nat.mul_le_mul_left _ (hlen i (Finset.mem_range.1 hi))

theorem buildTree_nleaf {s u : State} (h : s.buildTree = .ok u) : u.nleaf = s.nleaf :=
  (congrArg State.nleaf (buildTree_writes s u h) :)

theorem buildTree_total {s u : State} (h : s.buildTree = .ok u) : u.total = s.total :=
  (congrArg State.total (buildTree_writes s u h) :)

theorem Invariants.buildTree_isOk {s : State} (h : Invariants s) (hp : s.status.phase = .load)
    (hn : 1 ≤ s.nleaf.toNat) : ∃ u, s.buildTree = .ok u := by
  obtain ⟨v, r, hv, -⟩ := h.buildTree hp hn (fun _ => True) (fun _ _ _ _ _ _ _ _ => trivial) trivial
  exact ⟨_, hv⟩

/-- Settles O51: with one leaf both sides are compared with TOTAL; with more, the codes cost the
weight of the merged nodes, which no lengths that satisfy the Kraft inequality undercut. -/
theorem codesAreOptimal : Obligations.CodesAreOptimal := by
  unfold Obligations.CodesAreOptimal
  intro s h he hp hn
  obtain ⟨u, hu⟩ := h.buildTree_isOk hp hn
  have hstatus := buildTree_status hu
  have hne : s.nleaf ≠ 0 := fun h0 => by rw [h0] at hn; exact absurd hn (by decide)
  have hbld : exec .bld s = .next (complete u.status.word u) := execBld_next s u he hp hne hu
  have hInvU : Invariants (complete u.status.word u) := h.exec hbld
  have hphase : u.status.phase = .built := by rw [hstatus]; rfl
  have hrootv : u.status.rootv = true := by rw [hstatus]; rfl
  have herr : u.status.err = none := by rw [hstatus]; exact he
  obtain ⟨ct, hct, hwf, hcodes, -⟩ := hInvU.derivedTable hphase hrootv
  refine ⟨_, _, hbld, execDrv_next _ ct herr hphase hrootv hct, fun c hc hfree => ?_⟩
  have hInvV := hInvU.storeTable hphase hrootv hwf hcodes
  have hnleaf : u.nleaf = s.nleaf := buildTree_nleaf hu
  rcases Nat.lt_or_ge s.nleaf.toNat 2 with h1 | h2
  · have hsingle : u.nleaf.toNat = 1 := by rw [hnleaf]; omega
    refine (hInvV.cost_codes_single rfl hsingle).trans_le ?_
    rw [storeTable_total, complete_total, buildTree_total hu]
    exact h.total_le_cost fun i hi => List.length_pos_iff.2 (hc i hi)
  · refine (hInvV.cost_codes rfl (show 2 ≤ u.nleaf.toNat by rw [hnleaf]; exact h2)).trans_le ?_
    exact h.buildTree_optimal hp hn hu (Laws.kraft_codes _ c hfree)

end Sys2Proof.Machine
end

section
/-!
The STATUS word (R22 of spec/10_state.md) and the state that reset leaves (R46).
-/

namespace Sys2Proof.Machine

/-! ### The STATUS word -/

/-- A word made of two is the high one shifted up, plus the low one. -/
theorem append_toNat_add {m n : Nat} (x : BitVec m) (y : BitVec n) :
    (x ++ y).toNat = x.toNat * 2 ^ n + y.toNat := by
  rw [BitVec.toNat_append, Nat.shiftLeft_eq, Nat.mul_comm, ← Nat.two_pow_add_eq_or_of_lt y.isLt]

/-- The STATUS register as a number, by its fields. -/
theorem status_word_toNat (st : Status) : st.word.toNat =
    st.phase.bits.toNat + 4 * st.rootv.toNat + 8 * st.empty.toNat + 16 * st.single.toNat +
      256 * st.errBits.toNat := by
  unfold Status.word
  simp only [append_toNat_add, BitVec.toNat_ofNat, BitVec.toNat_ofBool]
  omega

theorem phase_bits_toNat (p : Phase) :
    p.bits.toNat = match p with | .load => 0 | .built => 1 | .derived => 2 := by
  cases p <;> rfl

/-- Settles O7: each field at its place in the word, and the numbers of PHASE and of the codes. -/
theorem statusWordLayout : Obligations.StatusWordLayout := by
  unfold Obligations.StatusWordLayout
  refine ⟨fun st => ?_, by decide⟩
  obtain ⟨phase, rootv, empty, single, err⟩ := st
  rw [status_word_toNat, phase_bits_toNat]
  rcases err with _ | e
  · rfl
  · cases e <;> rfl

/-! ### The state reset leaves -/

/-- Settles O15: the reset state is written out with these values. -/
theorem resetStateIsTheSpecs : Obligations.ResetStateIsTheSpecs := by
  unfold Obligations.ResetStateIsTheSpecs
  intro nmax
  have hword : Status.reset.word = 0 := by decide
  exact ⟨hword, rfl, rfl, rfl, rfl, rfl, rfl, rfl⟩

/-- With no slot in use every RDN faults, by its selector or by its index (R161). -/
theorem execRdn_of_nnode_zero {s : State} (h : s.nnode = 0) (idx : Index) (sel : BitVec 16) :
    ∃ e, execRdn idx sel s = .next (raiseFault e s) := by
  unfold execRdn
  split
  · exact ⟨.sel, rfl⟩
  · exact ⟨.range, if_pos (by rw [h]; exact Nat.zero_le _)⟩

/-- Outside DERIVED every RDC and every RDB faults E_PHASE (R162, R163). -/
theorem execRdc_of_phase {s : State} (h : s.status.phase ≠ .derived) (idx : Index)
    (sel : BitVec 16) : execRdc idx sel s = .next (raiseFault .phase s) := if_pos h

theorem execRdb_of_phase {s : State} (h : s.status.phase ≠ .derived) (idx : Index)
    (sel : BitVec 16) : execRdb idx sel s = .next (raiseFault .phase s) := if_pos h

/-- Reset and CLR leave one view, the response aside (R46). -/
theorem sameView_applyReset_newInvocation (s : State) :
    SameView (applyReset s) { newInvocation s with rsp := (applyReset s).rsp } where
  status := rfl
  nleaf := rfl
  nnode := rfl
  qcnt := rfl
  root := rfl
  total := rfl
  nmax := rfl
  pq := rfl
  rsp := rfl
  host := rfl
  node i hi := absurd hi (Nat.not_lt_zero i)
  ct hd := nomatch hd

/-- Settles O14: the step is the reset, whose state has no slot in use and is in LOAD. -/
theorem resetLeavesResetState : Obligations.ResetLeavesResetState := by
  unfold Obligations.ResetLeavesResetState
  intro s rest hh
  have hload : (applyReset { s with host := rest }).status.phase ≠ .derived := nofun
  refine ⟨_, step_reset hh, rfl, rfl, rfl, rfl, rfl, rfl, rfl, rfl, rfl, rfl, rfl, rfl, rfl, ?_, ?_, ?_⟩
  · exact fun idx sel => execRdn_of_nnode_zero rfl idx sel
  · exact fun idx sel => ⟨execRdc_of_phase hload idx sel, execRdb_of_phase hload idx sel⟩
  · exact ⟨_, rfl, sameView_applyReset_newInvocation _⟩

end Sys2Proof.Machine
end

section
/-!
The four read commands (R160 to R164 of spec/43_readout.md, R67 of spec/20_memory.md): one rule for
each way a read ends, and that no read writes more than the response and, by a fault, ERR.
-/

namespace Sys2Proof.Machine

/-! ### How each read ends -/

theorem statusRegister_eq_none_iff (s : State) (sel : Nat) :
    s.statusRegister sel = none ↔ 6 < sel := by
  match sel with
  | 0 | 1 | 2 | 3 | 4 | 5 | 6 => exact ⟨nofun, by omega⟩
  | n + 7 => exact ⟨fun _ => by omega, fun _ => rfl⟩

theorem execRds_of_sel (s : State) {sel : BitVec 16} (h : 6 < sel.toNat) :
    execRds sel s = .next (raiseFault .sel s) := by
  unfold execRds
  rw [(statusRegister_eq_none_iff s _).2 h]
  rfl

theorem execRds_next {s : State} {sel : BitVec 16} {d : BitVec 32}
    (h : s.statusRegister sel.toNat = some d) : execRds sel s = .next (complete d s) := by
  unfold execRds
  rw [h]

theorem execRdn_of_sel (s : State) {idx : Index} {sel : BitVec 16} (h : 2 < sel.toNat) :
    execRdn idx sel s = .next (raiseFault .sel s) := if_pos h

theorem execRdn_of_range {s : State} {idx : Index} {sel : BitVec 16} (hsel : ¬ 2 < sel.toNat)
    (h : s.nnode.toNat ≤ idx.toNat) : execRdn idx sel s = .next (raiseFault .range s) :=
  (if_neg hsel).trans (if_pos h)

theorem execRdn_next {s : State} {idx : Index} {sel : BitVec 16} (hsel : ¬ 2 < sel.toNat)
    (h : ¬ s.nnode.toNat ≤ idx.toNat) :
    execRdn idx sel s = .next (complete (s.nodeGroup idx sel.toNat) s) :=
  (if_neg hsel).trans (if_neg h)

theorem execRdc_of_sel {s : State} {idx : Index} {sel : BitVec 16}
    (hp : s.status.phase = .derived) (h : 1 < sel.toNat) :
    execRdc idx sel s = .next (raiseFault .sel s) :=
  (if_neg (not_not.2 hp)).trans (if_pos h)

theorem execRdc_of_range {s : State} {idx : Index} {sel : BitVec 16}
    (hp : s.status.phase = .derived) (hsel : ¬ 1 < sel.toNat) (h : s.nleaf.toNat ≤ idx.toNat) :
    execRdc idx sel s = .next (raiseFault .range s) :=
  (if_neg (not_not.2 hp)).trans ((if_neg hsel).trans (if_pos h))

theorem execRdc_next {s : State} {idx : Index} {sel : BitVec 16}
    (hp : s.status.phase = .derived) (hsel : ¬ 1 < sel.toNat) (h : ¬ s.nleaf.toNat ≤ idx.toNat) :
    execRdc idx sel s = .next (complete (s.entryGroup idx sel.toNat) s) :=
  (if_neg (not_not.2 hp)).trans ((if_neg hsel).trans (if_neg h))

theorem execRdb_of_sel {s : State} {idx : Index} {sel : BitVec 16}
    (hp : s.status.phase = .derived) (h : nchunk s.nmax ≤ sel.toNat) :
    execRdb idx sel s = .next (raiseFault .sel s) :=
  (if_neg (not_not.2 hp)).trans (if_pos h)

theorem execRdb_of_range {s : State} {idx : Index} {sel : BitVec 16}
    (hp : s.status.phase = .derived) (hsel : ¬ nchunk s.nmax ≤ sel.toNat)
    (h : s.nleaf.toNat ≤ idx.toNat) : execRdb idx sel s = .next (raiseFault .range s) :=
  (if_neg (not_not.2 hp)).trans ((if_neg hsel).trans (if_pos h))

theorem execRdb_next {s : State} {idx : Index} {sel : BitVec 16}
    (hp : s.status.phase = .derived) (hsel : ¬ nchunk s.nmax ≤ sel.toNat)
    (h : ¬ s.nleaf.toNat ≤ idx.toNat) : execRdb idx sel s =
      .next (complete (chunk s.nmax (s.ctAt idx.toNat).cbits sel.toNat) s) :=
  (if_neg (not_not.2 hp)).trans ((if_neg hsel).trans (if_neg h))

/-! ### A read writes nothing -/

/-- The state with another ERR: locked, or not. -/
def State.withErr (s : State) (e : Option Err) : State :=
  { s with status := { s.status with err := e } }

/-- A command, asked in state `s`, only reads: it completes whatever response waits and whatever ERR
holds, with data that the waiting response does not change; or it faults whatever ERR holds. -/
def ReadsOnly (f : State → Host.Outcome State Fault Refusal) (s : State) : Prop :=
  (∃ d, (∀ x, f { s with rsp := x } = .next (complete d s)) ∧
    ∀ e, ∃ d', f (s.withErr e) = .next (complete d' (s.withErr e))) ∨
  ∃ e, ∀ e', f (s.withErr e') = .next (raiseFault e (s.withErr e'))

theorem readsOnly_execRds (sel : BitVec 16) (s : State) : ReadsOnly (execRds sel) s := by
  by_cases hsel : 6 < sel.toNat
  · exact .inr ⟨.sel, fun _ => execRds_of_sel _ hsel⟩
  · have named (t : State) : ∃ d, t.statusRegister sel.toNat = some d :=
      Option.ne_none_iff_exists'.1 fun h => hsel ((statusRegister_eq_none_iff t _).1 h)
    obtain ⟨d, hd⟩ := named s
    exact .inl ⟨d, fun _ => execRds_next hd,
      fun e => (named (s.withErr e)).imp fun _ => execRds_next⟩

theorem readsOnly_execRdn (idx : Index) (sel : BitVec 16) (s : State) :
    ReadsOnly (execRdn idx sel) s := by
  by_cases hsel : 2 < sel.toNat
  · exact .inr ⟨.sel, fun _ => execRdn_of_sel _ hsel⟩
  by_cases hidx : s.nnode.toNat ≤ idx.toNat
  · exact .inr ⟨.range, fun _ => execRdn_of_range hsel hidx⟩
  · exact .inl ⟨_, fun _ => execRdn_next hsel hidx, fun _ => ⟨_, execRdn_next hsel hidx⟩⟩

theorem readsOnly_execRdc (idx : Index) (sel : BitVec 16) (s : State) :
    ReadsOnly (execRdc idx sel) s := by
  rcases ne_or_eq s.status.phase .derived with hp | hp
  · exact .inr ⟨.phase, fun e => execRdc_of_phase (s := s.withErr e) hp idx sel⟩
  by_cases hsel : 1 < sel.toNat
  · exact .inr ⟨.sel, fun _ => execRdc_of_sel hp hsel⟩
  by_cases hidx : s.nleaf.toNat ≤ idx.toNat
  · exact .inr ⟨.range, fun _ => execRdc_of_range hp hsel hidx⟩
  · exact .inl ⟨_, fun _ => execRdc_next hp hsel hidx, fun _ => ⟨_, execRdc_next hp hsel hidx⟩⟩

theorem readsOnly_execRdb (idx : Index) (sel : BitVec 16) (s : State) :
    ReadsOnly (execRdb idx sel) s := by
  rcases ne_or_eq s.status.phase .derived with hp | hp
  · exact .inr ⟨.phase, fun e => execRdb_of_phase (s := s.withErr e) hp idx sel⟩
  by_cases hsel : nchunk s.nmax ≤ sel.toNat
  · exact .inr ⟨.sel, fun _ => execRdb_of_sel hp hsel⟩
  by_cases hidx : s.nleaf.toNat ≤ idx.toNat
  · exact .inr ⟨.range, fun _ => execRdb_of_range hp hsel hidx⟩
  · exact .inl ⟨_, fun _ => execRdb_next hp hsel hidx, fun _ => ⟨_, execRdb_next hp hsel hidx⟩⟩

theorem readsOnly_exec {i : Instr} (h : isRead i = true) (s : State) : ReadsOnly (exec i) s := by
  cases i with
  | clr | ldf _ _ | bld | drv => cases h
  | rds sel => exact readsOnly_execRds sel s
  | rdn idx sel => exact readsOnly_execRdn idx sel s
  | rdc idx sel => exact readsOnly_execRdc idx sel s
  | rdb idx sel => exact readsOnly_execRdb idx sel s

/-- Settles O31: none of the checks a read makes looks at ERR or at the waiting response, so it ends
the same way whatever they hold; `s` itself is the case of its own ERR and response. -/
theorem readsHaveNoSideEffects : Obligations.ReadsHaveNoSideEffects := by
  unfold Obligations.ReadsHaveNoSideEffects
  intro i s hi
  rcases readsOnly_exec hi s with ⟨d, hrsp, herr⟩ | ⟨e, hfault⟩
  · exact .inl ⟨d, hrsp s.rsp, hrsp, herr⟩
  · exact .inr ⟨e, hfault s.status.err, by simp, hfault⟩

end Sys2Proof.Machine
end

section
/-!
Command words (spec/30_encoding.md R81 to R86, R91): a word decodes to a command exactly when its
three fields are that command's, and a row of the opcode map fits exactly the words of its commands.
-/

namespace Sys2Proof.Machine

/-! ### Operands with zeros above them (R81, R85) -/

theorem eq_zero_append_iff {m n : Nat} (x : BitVec (m + n)) (y : BitVec n) :
    x = 0#m ++ y ↔ x.extractLsb' 0 n = y ∧ x.extractLsb' n m = 0 := by
  constructor
  · rintro rfl
    exact ⟨low_append m n y, high_append m n y⟩
  · rintro ⟨rfl, hhigh⟩
    exact (append_low x hhigh).symm

theorem aField_eq_idx_iff (cw : CmdWord) (idx : Index) :
    aField cw = 0#8 ++ idx ↔ idxOperand cw = idx ∧ aHigh cw = 0 :=
  eq_zero_append_iff (m := 8) (aField cw) idx

theorem bField_eq_sel_iff (cw : CmdWord) (sel : BitVec 16) :
    bField cw = 0#16 ++ sel ↔ selOperand cw = sel ∧ bHigh cw = 0 :=
  eq_zero_append_iff (m := 16) (bField cw) sel

/-! ### What a word decodes to (R83) -/

/-- The command's own opcode and operands are the three fields of the word. -/
def HasFieldsOf (cw : CmdWord) (i : Instr) : Prop :=
  opField cw = opcode i ∧ aField cw = aOperand i ∧ bField cw = bOperand i

theorem hasFieldsOf_iff_encode (cw : CmdWord) (i : Instr) : HasFieldsOf cw i ↔ encode i = cw := by
  constructor
  · rintro ⟨hop, ha, hb⟩
    rw [encode, ← hop, ← ha, ← hb, commandWord_fields]
  · rintro rfl
    exact ⟨opField_commandWord _ _ _, aField_commandWord _ _ _, bField_commandWord _ _ _⟩

theorem decodeS_ok_fields {f : BitVec 16 → Instr} {i : Instr} {cw : CmdWord}
    (h : decodeS f cw = .ok i) :
    ∃ sel, i = f sel ∧ aField cw = 0 ∧ bField cw = 0#16 ++ sel := by
  obtain ⟨hi, ha, hb⟩ := decodeS_ok.1 h
  exact ⟨selOperand cw, hi.symm, ha, (bField_eq_sel_iff cw _).2 ⟨rfl, hb⟩⟩

theorem decodeX_ok_fields {f : Index → BitVec 16 → Instr} {i : Instr} {cw : CmdWord}
    (h : decodeX f cw = .ok i) :
    ∃ idx sel, i = f idx sel ∧ aField cw = 0#8 ++ idx ∧ bField cw = 0#16 ++ sel := by
  obtain ⟨hi, ha, hb⟩ := decodeX_ok.1 h
  exact ⟨idxOperand cw, selOperand cw, hi.symm, (aField_eq_idx_iff cw _).2 ⟨rfl, ha⟩,
    (bField_eq_sel_iff cw _).2 ⟨rfl, hb⟩⟩

theorem decodeX_of_fields (f : Index → BitVec 16 → Instr) {idx : Index} {sel : BitVec 16}
    {cw : CmdWord} (ha : aField cw = 0#8 ++ idx) (hb : bField cw = 0#16 ++ sel) :
    decodeX f cw = .ok (f idx sel) := by
  obtain ⟨hidx, ha⟩ := (aField_eq_idx_iff cw idx).1 ha
  obtain ⟨hsel, hb⟩ := (bField_eq_sel_iff cw sel).1 hb
  exact decodeX_ok.2 ⟨by rw [hidx, hsel], ha, hb⟩

/-- Each branch of the decoder has checked the opcode, and its format the other two fields. -/
theorem hasFieldsOf_of_decode {cw : CmdWord} {i : Instr} (h : decode cw = .ok i) :
    HasFieldsOf cw i := by
  unfold decode at h
  split_ifs at h with clr ldf bld drv rds rdn rdc rdb
  · obtain ⟨rfl, ha, hb⟩ := decodeZ_ok.1 h
    exact ⟨clr, ha, hb⟩
  · cases h
    exact ⟨ldf, rfl, rfl⟩
  · obtain ⟨rfl, ha, hb⟩ := decodeZ_ok.1 h
    exact ⟨bld, ha, hb⟩
  · obtain ⟨rfl, ha, hb⟩ := decodeZ_ok.1 h
    exact ⟨drv, ha, hb⟩
  · obtain ⟨sel, rfl, ha, hb⟩ := decodeS_ok_fields h
    exact ⟨rds, ha, hb⟩
  · obtain ⟨idx, sel, rfl, ha, hb⟩ := decodeX_ok_fields h
    exact ⟨rdn, ha, hb⟩
  · obtain ⟨idx, sel, rfl, ha, hb⟩ := decodeX_ok_fields h
    exact ⟨rdc, ha, hb⟩
  · obtain ⟨idx, sel, rfl, ha, hb⟩ := decodeX_ok_fields h
    exact ⟨rdb, ha, hb⟩

/-- The opcode selects the branch of the decoder, and the other two fields pass its format. -/
theorem decode_of_hasFieldsOf {cw : CmdWord} {i : Instr} (h : HasFieldsOf cw i) :
    decode cw = .ok i := by
  obtain ⟨hop, ha, hb⟩ := h
  unfold decode
  rw [hop]
  cases i with
  | clr | bld | drv => exact decodeZ_ok.2 ⟨rfl, ha, hb⟩
  | ldf sym cnt => exact congrArg₂ (fun sym cnt => Except.ok (Instr.ldf sym cnt)) ha hb
  | rds sel =>
    obtain ⟨hsel, hb⟩ := (bField_eq_sel_iff cw sel).1 hb
    exact decodeS_ok.2 ⟨by rw [hsel], ha, hb⟩
  | rdn | rdc | rdb => exact decodeX_of_fields _ ha hb

theorem decode_eq_ok_iff (cw : CmdWord) (i : Instr) : decode cw = .ok i ↔ HasFieldsOf cw i :=
  ⟨hasFieldsOf_of_decode, decode_of_hasFieldsOf⟩

/-- Settles O1: the word of a command has the command's fields, and those decode to it. -/
theorem decodeOfEncode : Obligations.DecodeOfEncode := by
  unfold Obligations.DecodeOfEncode
  intro i
  exact decode_of_hasFieldsOf ((hasFieldsOf_iff_encode _ i).2 rfl)

/-- Settles O2: a word that decodes has the command's fields, and a word is its fields. -/
theorem encodeOfDecode : Obligations.EncodeOfDecode := by
  unfold Obligations.EncodeOfDecode
  intro cw i h
  exact (hasFieldsOf_iff_encode cw i).1 (hasFieldsOf_of_decode h)

/-! ### The opcode map (R84) -/

theorem rowOf_mem_opcodeMap (i : Instr) : rowOf i ∈ opcodeMap := by
  cases i <;> simp [rowOf, opcodeMap]

theorem rowOf_fits_encode (i : Instr) : (rowOf i).fits (encode i) := by
  cases i with
  | clr => exact Laws.EncodeFitsRow.clr.2
  | ldf sym cnt => exact (Laws.EncodeFitsRow.ldf sym cnt).2
  | bld => exact Laws.EncodeFitsRow.bld.2
  | drv => exact Laws.EncodeFitsRow.drv.2
  | rds sel => exact (Laws.EncodeFitsRow.rds sel).2
  | rdn idx sel => exact (Laws.EncodeFitsRow.rdn idx sel).2
  | rdc idx sel => exact (Laws.EncodeFitsRow.rdc idx sel).2
  | rdb idx sel => exact (Laws.EncodeFitsRow.rdb idx sel).2

/-- A word that fits a row of format Z, the mask being all ones. -/
theorem fields_of_fitsZ {r : OpcodeRow} {o : BitVec 8} {cw : CmdWord}
    (hm : r.mask = commandWord 0xFF#8 0xFFFFFF#24 0xFFFFFFFF#32)
    (hp : r.pattern = commandWord o 0 0) (h : r.fits cw) :
    opField cw = o ∧ aField cw = 0 ∧ bField cw = 0 := by
  obtain ⟨hop, ha, hb⟩ := (fits_of hm hp cw).1 h
  exact ⟨hop, BitVec.and_allOnes.symm.trans ha, BitVec.and_allOnes.symm.trans hb⟩

/-- A word that fits a row of format X, whose mask leaves out the bits of idx and sel. -/
theorem fields_of_fitsX {r : OpcodeRow} {o : BitVec 8} {cw : CmdWord}
    (hm : r.mask = commandWord 0xFF#8 0xFF0000#24 0xFFFF0000#32)
    (hp : r.pattern = commandWord o 0 0) (h : r.fits cw) :
    opField cw = o ∧ aField cw = 0#8 ++ idxOperand cw ∧ bField cw = 0#16 ++ selOperand cw := by
  obtain ⟨hop, ha, hb⟩ := (fits_of hm hp cw).1 h
  exact ⟨hop, (aField_eq_idx_iff cw _).2 ⟨rfl, (aHigh_zero_iff cw).1 ha⟩,
    (bField_eq_sel_iff cw _).2 ⟨rfl, (bHigh_zero_iff cw).1 hb⟩⟩

/-- A word that fits a row has the fields of a command of that row. -/
theorem hasFieldsOf_of_fits {r : OpcodeRow} {cw : CmdWord} (hr : r ∈ opcodeMap) (h : r.fits cw) :
    ∃ i, HasFieldsOf cw i ∧ rowOf i = r := by
  simp only [opcodeMap, List.mem_cons, List.not_mem_nil, or_false] at hr
  rcases hr with rfl | rfl | rfl | rfl | rfl | rfl | rfl | rfl
  · exact ⟨.clr, fields_of_fitsZ (by decide) (by decide) h, rfl⟩
  · obtain ⟨hop, -, -⟩ := (fits_of (r := rowLDF) (o := 0x02#8) (ma := 0) (pa := 0) (mb := 0)
      (pb := 0) (by decide) (by decide) cw).1 h
    exact ⟨.ldf (symOperand cw) (cntOperand cw), ⟨hop, rfl, rfl⟩, rfl⟩
  · exact ⟨.bld, fields_of_fitsZ (by decide) (by decide) h, rfl⟩
  · exact ⟨.drv, fields_of_fitsZ (by decide) (by decide) h, rfl⟩
  · obtain ⟨hop, ha, hb⟩ := (fits_of (r := rowRDS) (o := 0x10#8) (ma := 0xFFFFFF#24) (pa := 0)
      (mb := 0xFFFF0000#32) (pb := 0) (by decide) (by decide) cw).1 h
    exact ⟨.rds (selOperand cw), ⟨hop, BitVec.and_allOnes.symm.trans ha,
      (bField_eq_sel_iff cw _).2 ⟨rfl, (bHigh_zero_iff cw).1 hb⟩⟩, rfl⟩
  · exact ⟨.rdn (idxOperand cw) (selOperand cw),
      fields_of_fitsX (o := 0x11#8) (by decide) (by decide) h, rfl⟩
  · exact ⟨.rdc (idxOperand cw) (selOperand cw),
      fields_of_fitsX (o := 0x12#8) (by decide) (by decide) h, rfl⟩
  · exact ⟨.rdb (idxOperand cw) (selOperand cw),
      fields_of_fitsX (o := 0x13#8) (by decide) (by decide) h, rfl⟩

/-- A word fits the row of the command it decodes to. -/
theorem rowOf_fits_of_decode {cw : CmdWord} {i : Instr} (h : decode cw = .ok i) :
    (rowOf i).fits cw := by
  rw [← encodeOfDecode cw i h]
  exact rowOf_fits_encode i

theorem fits_iff_decode {r : OpcodeRow} (hr : r ∈ opcodeMap) (cw : CmdWord) :
    r.fits cw ↔ ∃ i, decode cw = .ok i ∧ rowOf i = r := by
  constructor
  · intro h
    obtain ⟨i, hi, hrow⟩ := hasFieldsOf_of_fits hr h
    exact ⟨i, decode_of_hasFieldsOf hi, hrow⟩
  · rintro ⟨i, hi, rfl⟩
    exact rowOf_fits_of_decode hi

/-- Settles O3: a row fits exactly the words that decode to its commands, and the decoder being a
function, no word fits two rows and a refused word fits none. -/
theorem decodeAgreesWithOpcodeMap : Obligations.DecodeAgreesWithOpcodeMap := by
  unfold Obligations.DecodeAgreesWithOpcodeMap
  intro cw
  refine ⟨fun r hr => fits_iff_decode hr cw, fun r hr r' hr' h h' => ?_, ?_, fun h => ?_⟩
  · obtain ⟨i, hi, rfl⟩ := (fits_iff_decode hr cw).1 h
    obtain ⟨j, hj, rfl⟩ := (fits_iff_decode hr' cw).1 h'
    have hij : i = j := Except.ok.inj (hi.symm.trans hj)
    rw [hij]
  · rintro ⟨e, he⟩ r hr h
    obtain ⟨i, hi, -⟩ := (fits_iff_decode hr cw).1 h
    exact nomatch he.symm.trans hi
  · cases hd : decode cw with
    | error e => exact ⟨e, rfl⟩
    | ok i => exact absurd (rowOf_fits_of_decode hd) (h _ (rowOf_mem_opcodeMap i))

/-! ### The bits of each operand (R81) -/

/-- The bits of sel, and those above it in b. -/
theorem sel_bits {cw : CmdWord} {sel : BitVec 16} (h : bField cw = 0#16 ++ sel) :
    sel.toNat = cw.toNat % 2 ^ 16 ∧ cw.toNat / 2 ^ 16 % 2 ^ 16 = 0 := by
  have hb : cw.toNat % 2 ^ 32 = sel.toNat := by
    rw [← bField_toNat, h, zero16_append_toNat]
  have := sel.isLt
  omega

/-- The bits of idx, and those above it in a. -/
theorem idx_bits {cw : CmdWord} {idx : Index} (h : aField cw = 0#8 ++ idx) :
    idx.toNat = cw.toNat / 2 ^ 32 % 2 ^ 16 ∧ cw.toNat / 2 ^ 48 % 2 ^ 8 = 0 := by
  have ha : cw.toNat / 2 ^ 32 % 2 ^ 24 = idx.toNat := by
    rw [← aField_toNat, h, zero8_append_toNat]
  have := idx.isLt
  omega

theorem aField_zero_bits {cw : CmdWord} (h : aField cw = 0) : cw.toNat / 2 ^ 32 % 2 ^ 24 = 0 := by
  rw [← aField_toNat, h]
  rfl

theorem bField_zero_bits {cw : CmdWord} (h : bField cw = 0) : cw.toNat % 2 ^ 32 = 0 := by
  rw [← bField_toNat, h]
  rfl

/-- Settles O4: the fields of a word that decodes are the command's, and each field has its bits. -/
theorem operandsAreTheirBits : Obligations.OperandsAreTheirBits := by
  unfold Obligations.OperandsAreTheirBits
  simp only [decode_eq_ok_iff]
  refine ⟨?_, ?_, ?_, ?_⟩
  · rintro cw sym cnt ⟨-, rfl, rfl⟩
    exact ⟨aField_toNat cw, bField_toNat cw⟩
  · rintro cw sel ⟨-, ha, hb⟩
    obtain ⟨hsel, hhigh⟩ := sel_bits hb
    exact ⟨hsel, hhigh, aField_zero_bits ha⟩
  · rintro cw idx sel (⟨-, ha, hb⟩ | ⟨-, ha, hb⟩ | ⟨-, ha, hb⟩) <;>
      exact ⟨(idx_bits ha).1, (idx_bits ha).2, sel_bits hb⟩
  · rintro cw (⟨-, ha, hb⟩ | ⟨-, ha, hb⟩ | ⟨-, ha, hb⟩) <;>
      exact ⟨aField_zero_bits ha, bField_zero_bits hb⟩

/-- Settles O5: the decoder runs on each word. -/
theorem workedWordsDecode : Obligations.WorkedWordsDecode := by
  unfold Obligations.WorkedWordsDecode
  decide

/-! ### Pseudo-instructions (R90) -/

/-- Settles O8: an RDCODE is one RDC and the range of its chunks, one RDB each. -/
theorem pseudoInstructionsExpand : Obligations.PseudoInstructionsExpand := by
  unfold Obligations.PseudoInstructionsExpand
  refine ⟨rfl, rfl, rfl, rfl, rfl, rfl, rfl, rfl, rfl, rfl, rfl, rfl, fun nmax idx => ?_⟩
  refine ⟨rfl, rfl, ?_, rfl, fun k hk => ?_⟩
  · simp [AsmLine.expand]
  · simp [AsmLine.expand, hk]

end Sys2Proof.Machine
end

section
/-!
Response words (R82, R92 of spec/30_encoding.md): each is a fault's code or a completion's data, and
the data of a completion is what its command says.
-/

namespace Sys2Proof.Machine

theorem code_toNat_le (e : Err) : e.code.toNat ≤ 9 := by cases e <;> decide

/-- A command that answers a next state offers a fault's response or a completion's. -/
theorem exec_rsp {i : Instr} {s t : State} (h : exec i s = .next t) :
    (∃ e : Err, t.rsp = some (responseWord e.code 0)) ∨ ∃ d, t.rsp = some (responseWord 0 d) := by
  rcases exec_cases i s t h with ⟨e, rfl⟩ | ⟨-, rfl⟩ | ⟨sym, cnt, -, -, -, -, -, -, rfl⟩ |
    ⟨-, -, -, -, rfl⟩ | ⟨-, -, -, -, u, -, rfl⟩ | ⟨-, -, -, -, ct, -, rfl⟩ | ⟨-, d, rfl⟩
  · exact .inl ⟨e, rfl⟩
  all_goals exact .inr ⟨_, rfl⟩

/-- Settles O6: a fault answers its code, at most 9, with data 0, and a completion answers err 0. -/
theorem responsesHaveTheirLayout : Obligations.ResponsesHaveTheirLayout := by
  unfold Obligations.ResponsesHaveTheirLayout
  intro i s t h
  rcases exec_rsp h with ⟨e, hr⟩ | ⟨d, hr⟩
  · refine ⟨e.code.toNat, 0, code_toNat_le e, by decide, fun _ => rfl, ?_⟩
    rw [hr, Option.map_some, responseWord_toNat]
    rfl
  · refine ⟨0, d.toNat, by decide, d.isLt, fun h0 => absurd rfl h0, ?_⟩
    rw [hr, Option.map_some, responseWord_toNat]
    rfl

/-! ### The data of a completion (R92) -/

/-- A fault's response has err not 0, so it is no completion's. -/
theorem raiseFault_rsp_ne (e : Err) (s : State) (d : BitVec 32) :
    (raiseFault e s).rsp ≠ some (responseWord 0 d) := fun h =>
  code_ne_zero e (responseWord_inj.1 (Option.some.inj h)).1

theorem complete_rsp_eq_iff {d d' : BitVec 32} {s : State} :
    (complete d' s).rsp = some (responseWord 0 d) ↔ d' = d := by
  simp [responseWord_inj]

section
variable {s t : State} {d : BitVec 32} (hr : t.rsp = some (responseWord 0 d))
include hr

theorem not_next_raiseFault (e : Err) {o : Host.Outcome State Fault Refusal} (h : o = .next t)
    (hf : o = .next (raiseFault e s)) : False := by
  cases hf.symm.trans h
  exact raiseFault_rsp_ne e s d hr

theorem data_of_next_complete {d' : BitVec 32} {o : Host.Outcome State Fault Refusal}
    (h : o = .next t) (hc : o = .next (complete d' s)) : d = d' := by
  cases hc.symm.trans h
  exact (complete_rsp_eq_iff.1 hr).symm

theorem execClr_data (h : execClr s = .next t) : d = t.status.word ∧ d = 0 := by
  have hd : d = 0 := data_of_next_complete hr h rfl
  have hword : Status.reset.word = 0 := by decide
  cases h
  exact ⟨hd.trans hword.symm, hd⟩

theorem execLdf_data {sym : Symbol} {cnt : Weight} (h : execLdf sym cnt s = .next t) :
    d = s.nleaf.setWidth 32 := by
  rcases execLdf_cases sym cnt s t h with ⟨e, rfl⟩ | ⟨-, -, -, -, -, rfl⟩
  · exact absurd hr (raiseFault_rsp_ne e s d)
  · exact (complete_rsp_eq_iff.1 hr).symm

theorem execBld_data (h : execBld s = .next t) : d = t.status.word := by
  rcases execBld_cases s t h with ⟨e, rfl⟩ | ⟨-, -, ⟨-, rfl⟩ | ⟨-, u, -, rfl⟩⟩
  · exact absurd hr (raiseFault_rsp_ne e s d)
  · exact (complete_rsp_eq_iff.1 hr).symm
  · exact (complete_rsp_eq_iff.1 hr).symm

theorem execDrv_data (h : execDrv s = .next t) : d = t.status.word := by
  rcases execDrv_cases s t h with ⟨e, rfl⟩ | ⟨-, -, -, ct, -, rfl⟩
  · exact absurd hr (raiseFault_rsp_ne e s d)
  · exact (complete_rsp_eq_iff.1 hr).symm

theorem execRds_data {sel : BitVec 16} (h : execRds sel s = .next t) :
    s.statusRegister sel.toNat = some d := by
  cases hreg : s.statusRegister sel.toNat with
  | none =>
    have hsel := (statusRegister_eq_none_iff s _).1 hreg
    exact (not_next_raiseFault hr _ h (execRds_of_sel s hsel)).elim
  | some v => rw [data_of_next_complete hr h (execRds_next hreg)]

theorem execRdn_data {idx : Index} {sel : BitVec 16} (h : execRdn idx sel s = .next t) :
    d = s.nodeGroup idx sel.toNat := by
  by_cases hsel : 2 < sel.toNat
  · exact (not_next_raiseFault hr _ h (execRdn_of_sel s hsel)).elim
  by_cases hidx : s.nnode.toNat ≤ idx.toNat
  · exact (not_next_raiseFault hr _ h (execRdn_of_range hsel hidx)).elim
  · exact data_of_next_complete hr h (execRdn_next hsel hidx)

theorem execRdc_data {idx : Index} {sel : BitVec 16} (h : execRdc idx sel s = .next t) :
    d = s.entryGroup idx sel.toNat := by
  rcases ne_or_eq s.status.phase .derived with hp | hp
  · exact (not_next_raiseFault hr _ h (execRdc_of_phase hp idx sel)).elim
  by_cases hsel : 1 < sel.toNat
  · exact (not_next_raiseFault hr _ h (execRdc_of_sel hp hsel)).elim
  by_cases hidx : s.nleaf.toNat ≤ idx.toNat
  · exact (not_next_raiseFault hr _ h (execRdc_of_range hp hsel hidx)).elim
  · exact data_of_next_complete hr h (execRdc_next hp hsel hidx)

theorem execRdb_data {idx : Index} {sel : BitVec 16} (h : execRdb idx sel s = .next t) :
    d = chunk s.nmax (s.ctAt idx.toNat).cbits sel.toNat := by
  rcases ne_or_eq s.status.phase .derived with hp | hp
  · exact (not_next_raiseFault hr _ h (execRdb_of_phase hp idx sel)).elim
  by_cases hsel : nchunk s.nmax ≤ sel.toNat
  · exact (not_next_raiseFault hr _ h (execRdb_of_sel hp hsel)).elim
  by_cases hidx : s.nleaf.toNat ≤ idx.toNat
  · exact (not_next_raiseFault hr _ h (execRdb_of_range hp hsel hidx)).elim
  · exact data_of_next_complete hr h (execRdb_next hp hsel hidx)

end

/-- Settles O32: an err of 0 rules out the fault, and the data is the one its command completes
with; an index or a symbol keeps its number on 32 bits. -/
theorem completedResponsesCarryTheirData : Obligations.CompletedResponsesCarryTheirData := by
  unfold Obligations.CompletedResponsesCarryTheirData
  intro i s t d h hr
  cases i with
  | clr => exact execClr_data hr h
  | ldf sym cnt =>
    have hd : d = s.nleaf.setWidth 32 := execLdf_data hr h
    exact hd ▸ index_setWidth_toNat s.nleaf
  | bld => exact execBld_data hr h
  | drv => exact execDrv_data hr h
  | rds sel => exact execRds_data hr h
  | rdn idx sel => exact execRdn_data hr h
  | rdc idx sel =>
    have hd : d = s.entryGroup idx sel.toNat := execRdc_data hr h
    constructor
    · rintro rfl
      exact hd ▸ symbol_setWidth_toNat (s.nodeAt idx.toNat).sym
    · rintro rfl
      exact hd ▸ index_setWidth_toNat (s.ctAt idx.toNat).clen
  | rdb idx sel => exact execRdb_data hr h

end Sys2Proof.Machine
end

section
/-!
CLR and LDF (spec/40_clear_load.md): what CLR leaves and what no other command clears (R101), the
faults of LDF in the order of its checks, and the writes of an LDF that loads a leaf (R103).
-/

namespace Sys2Proof.Machine

/-! ### CLR -/

/-- Settles O16: CLR is the new invocation it is defined as. Every other command sets a flag or
leaves it, but for BLD's write of SINGLE, and SINGLE is 0 in LOAD (R40). -/
theorem clrStartsNewInvocation : Obligations.ClrStartsNewInvocation := by
  unfold Obligations.ClrStartsNewInvocation
  have hword : responseWord 0#8 0#32 = 0x0000000000000000#64 := by decide
  refine ⟨fun s => hword ▸ rfl, fun i s t hs hne hexec => ?_⟩
  rcases exec_cases i s t hexec with ⟨e, rfl⟩ | ⟨hclr, -⟩ | ⟨sym, cnt, -, -, -, -, -, -, rfl⟩ |
    ⟨-, -, -, -, rfl⟩ | ⟨-, -, hload, -, u, hu, rfl⟩ | ⟨-, -, -, -, ct, -, rfl⟩ | ⟨-, d, rfl⟩
  · simp
  · exact absurd hclr hne
  · exact ⟨id, id, id, id⟩
  · exact ⟨id, id, fun _ => rfl, id⟩
  · obtain ⟨-, -, hsingle, -⟩ := hs.load_flags hload
    rw [complete_status, buildTree_status hu]
    exact ⟨id, fun _ => rfl, id, fun h => absurd (hsingle.symm.trans h) Bool.false_ne_true⟩
  · exact ⟨id, id, id, id⟩
  · exact ⟨id, id, id, id⟩

/-! ### The faults of LDF, in the order of its checks -/

section
variable {s : State} {sym : Symbol} {cnt : Weight} (hlock : s.status.err = none)
include hlock

theorem execLdf_of_phase (hp : s.status.phase ≠ .load) :
    execLdf sym cnt s = .next (raiseFault .phase s) :=
  (if_neg ((not_locked_iff _).2 hlock)).trans (if_pos hp)

variable (hp : s.status.phase = .load)
include hp

theorem execLdf_of_full (hfull : s.nleaf = s.nmax) :
    execLdf sym cnt s = .next (raiseFault .full s) :=
  (if_neg ((not_locked_iff _).2 hlock)).trans <| (if_neg (not_not.2 hp)).trans (if_pos hfull)

variable (hfree : s.nleaf ≠ s.nmax)
include hfree

theorem execLdf_of_dupsym (hdup : ∃ i, i < s.nleaf.toNat ∧ (s.nodeAt i).sym = sym) :
    execLdf sym cnt s = .next (raiseFault .dupsym s) :=
  (if_neg ((not_locked_iff _).2 hlock)).trans <| (if_neg (not_not.2 hp)).trans <|
    (if_neg hfree).trans (if_pos ((hasSymbol_iff s sym).2 hdup))

theorem execLdf_of_wovf (hnew : ∀ i, i < s.nleaf.toNat → (s.nodeAt i).sym ≠ sym)
    (hsum : Config.weightMax < s.total.toNat + cnt.toNat) :
    execLdf sym cnt s = .next (raiseFault .wovf s) := by
  have hsym : ¬ s.hasSymbol sym = true := by
    rw [hasSymbol_iff]
    exact fun ⟨i, hi, heq⟩ => hnew i hi heq
  exact (if_neg ((not_locked_iff _).2 hlock)).trans <| (if_neg (not_not.2 hp)).trans <|
    (if_neg hfree).trans <| (if_neg hsym).trans (if_pos hsum)

end

/-! ### The writes of LDF -/

/-- The new leaf is in slot NLEAF. -/
theorem loadLeaf_nodeAt_nleaf (s : State) (sym : Symbol) (cnt : Weight) :
    (s.loadLeaf sym cnt).nodeAt s.nleaf.toNat = leafNode sym cnt := by
  rw [nodeAt_set s _ _ (leafNode sym cnt) _ rfl, if_pos rfl]

/-- No other slot is written. -/
theorem loadLeaf_node_other (s : State) (sym : Symbol) (cnt : Weight) {j : Nat}
    (hj : j ≠ s.nleaf.toNat) : (s.loadLeaf sym cnt).node.get? j = s.node.get? j :=
  Slots.get?_set_other _ _ _ _ hj

theorem mem_loadLeaf_pq (s : State) (sym : Symbol) (cnt : Weight) (k : Index) :
    k ∈ (s.loadLeaf sym cnt).pq ↔ k ∈ s.pq ∨ k = s.nleaf :=
  (mem_pqInsert _ _ _).trans or_comm

/-- A sum that passes the overflow check does not wrap. -/
theorem loadLeaf_total_toNat {s : State} {cnt : Weight} (sym : Symbol)
    (hsum : s.total.toNat + cnt.toNat ≤ Config.weightMax) :
    (s.loadLeaf sym cnt).total.toNat = s.total.toNat + cnt.toNat :=
  BitVec.toNat_add_of_lt (Nat.lt_succ_of_le hsum)

/-- A completion's response is the number of its data (R82). -/
theorem complete_rsp_toNat (d : BitVec 32) (s : State) :
    (complete d s).rsp.map BitVec.toNat = some d.toNat := by
  simp [responseWord_toNat]

/-- Settles O17: the writes of the leaf when all checks pass, and one lemma for each fault. -/
theorem ldfLoadsOneLeaf : Obligations.LdfLoadsOneLeaf := by
  unfold Obligations.LdfLoadsOneLeaf
  intro s sym cnt
  refine ⟨fun hlock hp hfree hnew hsum => ?_, exec_of_locked rfl, execLdf_of_phase,
    execLdf_of_full, execLdf_of_dupsym, execLdf_of_wovf⟩
  refine ⟨_, execLdf_next sym cnt s hlock hp hfree hnew hsum, loadLeaf_nodeAt_nleaf s sym cnt,
    fun _ => loadLeaf_node_other s sym cnt, mem_loadLeaf_pq s sym cnt, rfl, rfl, rfl,
    loadLeaf_total_toNat sym hsum, ?_, rfl, rfl, rfl, rfl, rfl⟩
  rw [complete_rsp_toNat, index_setWidth_toNat]

end Sys2Proof.Machine
end

section
/-!
No step stops the block: from a state that meets the invariants every command, every illegal word
and every turn of the ports answers a next state (R126, R141, R213).
-/

namespace Sys2Proof.Machine

/-- A meaning that answers a next state: no fault outcome and no refusal. -/
def AnswersNext (o : Host.Outcome State Fault Refusal) : Prop := ∃ t, o = .next t

namespace AnswersNext

theorem next (t : State) : AnswersNext (.next t) := ⟨t, rfl⟩

/-- A fault of the block is a next state (R181). -/
theorem faults (e : Err) (s : State) : AnswersNext (faults e s) := .next (raiseFault e s)

theorem ite {c : Prop} [Decidable c] {a b : Host.Outcome State Fault Refusal}
    (ha : c → AnswersNext a) (hb : ¬ c → AnswersNext b) : AnswersNext (if c then a else b) := by
  split
  · next hc => exact ha hc
  · next hc => exact hb hc

theorem execLdf (sym : Symbol) (cnt : Weight) (s : State) : AnswersNext (execLdf sym cnt s) :=
  .ite (fun _ => .faults _ s) fun _ => .ite (fun _ => .faults _ s) fun _ =>
    .ite (fun _ => .faults _ s) fun _ => .ite (fun _ => .faults _ s) fun _ =>
      .ite (fun _ => .faults _ s) fun _ => .next _

/-- The merge of a loaded map always ends with a root (R126). -/
theorem execBld {s : State} (h : Invariants s) : AnswersNext (execBld s) := by
  refine .ite (fun _ => .faults _ s) fun _ => .ite (fun _ => .faults _ s) fun hp =>
    .ite (fun _ => .next _) fun hn => ?_
  obtain ⟨u, hu⟩ := h.buildTree_isOk (not_not.1 hp) (Nat.pos_of_ne_zero (toNat_ne hn))
  rw [hu]
  exact .next _

/-- The traversal of a built tree always ends (R142). -/
theorem execDrv {s : State} (h : Invariants s) : AnswersNext (execDrv s) := by
  refine .ite (fun _ => .faults _ s) fun _ => .ite (fun _ => .faults _ s) fun hp =>
    .ite (fun _ => .faults _ s) fun hv => ?_
  obtain ⟨ct, hct, -⟩ := h.derivedTable (not_not.1 hp) (Bool.eq_true_of_not_eq_false hv)
  rw [hct]
  exact .next _

theorem execRds (sel : BitVec 16) (s : State) : AnswersNext (execRds sel s) := by
  unfold Machine.execRds
  split
  · exact .next _
  · exact .faults _ s

theorem execRdn (idx : Index) (sel : BitVec 16) (s : State) : AnswersNext (execRdn idx sel s) :=
  .ite (fun _ => .faults _ s) fun _ => .ite (fun _ => .faults _ s) fun _ => .next _

theorem execRdc (idx : Index) (sel : BitVec 16) (s : State) : AnswersNext (execRdc idx sel s) :=
  .ite (fun _ => .faults _ s) fun _ => .ite (fun _ => .faults _ s) fun _ =>
    .ite (fun _ => .faults _ s) fun _ => .next _

theorem execRdb (idx : Index) (sel : BitVec 16) (s : State) : AnswersNext (execRdb idx sel s) :=
  .ite (fun _ => .faults _ s) fun _ => .ite (fun _ => .faults _ s) fun _ =>
    .ite (fun _ => .faults _ s) fun _ => .next _

end AnswersNext

/-- Every command answers a next state; BLD and DRV do since the invariants hold. -/
theorem Invariants.exec_answersNext {s : State} (h : Invariants s) (i : Instr) :
    AnswersNext (Machine.exec i s) := by
  cases i with
  | clr => exact .next _
  | ldf sym cnt => exact .execLdf sym cnt s
  | bld => exact .execBld h
  | drv => exact .execDrv h
  | rds sel => exact .execRds sel s
  | rdn idx sel => exact .execRdn idx sel s
  | rdc idx sel => exact .execRdc idx sel s
  | rdb idx sel => exact .execRdb idx sel s

/-- A word runs its command, or faults E_ILLOP (R184). -/
theorem Invariants.runWord_answersNext {s : State} (h : Invariants s) (cw : CmdWord) :
    AnswersNext (runWord cw s) := by
  cases hd : decode cw with
  | ok i => exact runWord_ok cw i s hd ▸ h.exec_answersNext i
  | error e => exact ⟨_, runWord_error cw e s hd⟩

/-- Settles O41: a word that passes runs in a state that meets the invariants, and a turn of the
ports always ends. -/
theorem noStepStops : Obligations.NoStepStops := by
  unfold Obligations.NoStepStops
  intro s h
  cases ha : s.acceptWord with
  | none => exact ⟨_, step_port s ha⟩
  | some p =>
    obtain ⟨cw, s'⟩ := p
    obtain ⟨rest, hhost, hrsp, -⟩ := (acceptWord_some s s' cw).1 ha
    rw [step_send s cw rest hhost hrsp]
    exact (h.withPorts rest s.rsp).runWord_answersNext cw

end Sys2Proof.Machine
end

section
/-!
BLD (spec/41_build.md): the key order (R120), one extraction and one merge (R121 to R123), the loop
as n - 1 merges (R126), and what BLD leaves (R125, R127).
-/

namespace Sys2Proof.Machine

/-! ### The key order (R120) -/

theorem keyLower_iff_keyBelow (s : State) (i j : Index) :
    s.keyLower i j = true ↔ KeyBelow s i j := keyLower_iff s i j

theorem keyBelow_iff_not (s : State) {i j : Index} (h : i ≠ j) :
    KeyBelow s i j ↔ ¬ KeyBelow s j i := by
  simp only [← keyLower_iff_keyBelow]
  exact ⟨keyLower_asymm s, keyLower_total s h.symm⟩

/-- The member the scan of R121 finds, in the order on the numbers. -/
theorem lowest_keyBelow {s : State} {pq : List Index} {i : Index} (h : s.lowest pq = some i) :
    i ∈ pq ∧ ∀ j ∈ pq, j ≠ i → KeyBelow s i j := by
  simpa only [keyLower_iff_keyBelow] using lowest_spec s pq i h

/-- Settles O18: the lowest member exists by the scan, and it is the only one since the order is
asymmetric. -/
theorem keyOrderHasOneLowest : Obligations.KeyOrderHasOneLowest := by
  unfold Obligations.KeyOrderHasOneLowest
  intro s
  refine ⟨keyLower_iff_keyBelow s, fun i j => keyBelow_iff_not s, fun pq hne => ?_⟩
  obtain ⟨i, hi⟩ := lowest_isSome s pq hne
  obtain ⟨hmem, hlow⟩ := lowest_keyBelow hi
  refine ⟨i, hmem, hlow, fun k hk hklow => ?_⟩
  by_contra hki
  exact (keyBelow_iff_not s hki).1 (hklow i hmem (Ne.symm hki)) (hlow k hk hki)

/-! ### One extraction and one merge (R121 to R123) -/

/-- Settles O19: an extraction is the removal of the member the scan finds. -/
theorem extractMinReturnsLowestKey : Obligations.ExtractMinReturnsLowestKey := by
  unfold Obligations.ExtractMinReturnsLowestKey
  intro s hne
  obtain ⟨i, hi⟩ := lowest_isSome s s.pq hne
  obtain ⟨hmem, hlow⟩ := lowest_keyBelow hi
  exact ⟨i, s.dequeue i, (extractMin_ok s i _).2 ⟨hi, rfl⟩, hmem, hlow,
    fun k => mem_pqRemove i k s.pq, rfl, rfl⟩

/-- A queue in canonical form with two members or more has a lowest member and a next lowest. -/
theorem exists_two_lowest (s : State) {pq : List Index} (hwf : pqWf pq = true)
    (hlen : 2 ≤ pq.length) :
    ∃ a b, s.lowest pq = some a ∧ s.lowest (pqRemove a pq) = some b := by
  obtain ⟨a, ha⟩ := lowest_isSome s pq (List.ne_nil_of_length_pos (by omega))
  have hrest : (pqRemove a pq).length + 1 = pq.length :=
    length_pqRemove a pq hwf (lowest_keyBelow ha).1
  obtain ⟨b, hb⟩ := lowest_isSome s (pqRemove a pq) (List.ne_nil_of_length_pos (by omega))
  exact ⟨a, b, ha, hb⟩

theorem mem_merged_pq (s : State) (a b k : Index) :
    k ∈ (s.merged a b).pq ↔ k = s.nnode ∨ (k ∈ s.pq ∧ k ≠ a ∧ k ≠ b) := by
  rw [merged_pq, mem_pqInsert, mem_pqRemove, mem_pqRemove, and_assoc]

theorem merged_node_other (s : State) (a b : Index) {j : Nat} (hj : j ≠ s.nnode.toNat) :
    (s.merged a b).node.get? j = s.node.get? j := Slots.get?_set_other _ _ _ _ hj

/-- Settles O20: the scan of the queue finds A, the scan of the rest finds B, and the merge of the
two writes slot NNODE alone. -/
theorem mergeStepJoinsTwoLowest : Obligations.MergeStepJoinsTwoLowest := by
  unfold Obligations.MergeStepJoinsTwoLowest
  intro s hwf hlen hfree _
  obtain ⟨a, b, ha, hb⟩ := exists_two_lowest s hwf hlen
  obtain ⟨ham, halow⟩ := lowest_keyBelow ha
  obtain ⟨hbrest, hblow⟩ := lowest_keyBelow hb
  obtain ⟨hbm, hba⟩ := (mem_pqRemove a b s.pq).1 hbrest
  have hnew : (s.merged a b).nodeAt s.nnode.toNat = mergedNode s a b := by
    rw [merged_nodeAt, if_pos rfl]
  exact ⟨s.merged a b, a, b, (mergeStep_ok s _).2 ⟨a, b, ha, hb, hfree, rfl⟩, ham, hbm, hba.symm,
    halow, fun j hj hja => hblow j ((mem_pqRemove a j s.pq).2 ⟨hj, hja⟩), hnew,
    fun j => merged_node_other s a b, mem_merged_pq s a b, BitVec.sub_add_cancel _ _, rfl, rfl⟩

/-! ### The loop (R126) -/

theorem ne_zero_of_one_le {x : Index} (h : 1 ≤ x.toNat) : x ≠ 0 := by
  rintro rfl
  exact absurd h (by decide)

/-- A loaded map has one queue member for each leaf. -/
theorem Invariants.load_qcnt {s : State} (h : Invariants s) (hp : s.status.phase = .load)
    (hn : 1 ≤ s.nleaf.toNat) : s.qcnt.toNat = s.nleaf.toNat := by
  have hcount := (h.forest hp hn).count
  rw [h.load_nnode hp] at hcount
  omega

/-- Fewer merges than members succeed, and each takes one member off the count. -/
theorem Forest.mergeTimes_ok {s : State} (hf : Forest s) {k : Nat} (hk : k < s.qcnt.toNat) :
    ∃ u, mergeTimes k s = .ok u ∧ Forest u ∧ u.nleaf = s.nleaf ∧
      u.qcnt.toNat + k = s.qcnt.toNat := by
  induction k generalizing s with
  | zero => exact ⟨s, rfl, hf, rfl, rfl⟩
  | succ k ih =>
    have hq : 2 ≤ s.qcnt.toNat := by omega
    obtain ⟨a, b, ha, hb, hmerge⟩ := hf.mergeStep_ok hq
    have hqcnt : (s.merged a b).qcnt.toNat = s.qcnt.toNat - 1 := toNat_pred_pred_succ hq
    obtain ⟨u, hu, hfu, hnleaf, hcount⟩ := ih (hf.merged hq ha hb) (by omega)
    exact ⟨u, by rw [mergeTimes, hmerge]; exact hu, hfu, hnleaf, by omega⟩

/-- The loop of a queue of `k + 1` members is `k` merges. -/
theorem Forest.mergeLoop_eq_mergeTimes {s : State} (hf : Forest s) {k fuel : Nat}
    (hq : s.qcnt.toNat = k + 1) (hfuel : k ≤ fuel) : s.mergeLoop fuel = mergeTimes k s := by
  induction k generalizing s fuel with
  | zero =>
    cases fuel with
    | zero => rfl
    | succ fuel => exact if_neg (by omega)
  | succ k ih =>
    cases fuel with
    | zero => omega
    | succ fuel =>
      obtain ⟨a, b, ha, hb, hmerge⟩ := hf.mergeStep_ok (by omega)
      have hqcnt : (s.merged a b).qcnt.toNat = s.qcnt.toNat - 1 := toNat_pred_pred_succ (by omega)
      rw [State.mergeLoop, if_pos (by omega), mergeTimes, hmerge]
      exact ih (hf.merged (by omega) ha hb) (by omega) (by omega)

/-- The tree is what the merges and one extraction leave (R125). -/
theorem Forest.buildTree_of_mergeTimes {s u v : State} {r : Index} (hf : Forest s) {k : Nat}
    (hq : s.qcnt.toNat = k + 1) (hu : mergeTimes k s = .ok u) (hr : u.extractMin = .ok (r, v)) :
    s.buildTree = .ok (v.setRoot r) := by
  have hloop : s.mergeLoop s.qcnt.toNat = .ok u :=
    (hf.mergeLoop_eq_mergeTimes hq (hq ▸ Nat.le_succ k)).trans hu
  simp only [State.buildTree, hloop, hr]

/-- Settles O22: the counts after each merge follow from the forest, and the last member is the
root. -/
theorem bldRunsNleafMinusOneMerges : Obligations.BldRunsNleafMinusOneMerges := by
  unfold Obligations.BldRunsNleafMinusOneMerges
  intro s h herr hp hn
  have hf := h.forest hp hn
  have hqcnt := h.load_qcnt hp hn
  have hle := hf.nleaf_le
  constructor
  · intro k hk
    obtain ⟨u, hu, hfu, hnleaf, hleft⟩ := hf.mergeTimes_ok (hqcnt.symm ▸ hk)
    have hcount := hfu.count
    rw [hnleaf] at hcount
    exact ⟨u, hu, by omega, by omega, by omega, by unfold nnodeMax; omega⟩
  · obtain ⟨u, hu, hfu, hnleaf, hleft⟩ := hf.mergeTimes_ok (k := s.nleaf.toNat - 1) (by omega)
    have hone : u.qcnt.toNat = 1 := by omega
    obtain ⟨r, hpq, -, hnnode⟩ := hfu.last_member hone
    have hr : u.extractMin = .ok (r, u.dequeue r) :=
      (extractMin_ok u r _).2 ⟨by rw [hpq]; rfl, rfl⟩
    have hbuild := hf.buildTree_of_mergeTimes (by omega) hu hr
    have hne : s.nleaf ≠ 0 := ne_zero_of_one_le hn
    exact ⟨u, r, _, _, hu, hone, hnleaf ▸ hnnode, hr, execBld_next s _ herr hp hne hbuild,
      rfl, rfl, rfl, rfl⟩

/-! ### What BLD leaves (R125, R127) -/

theorem execBld_of_phase {s : State} (hlock : s.status.err = none) (hp : s.status.phase ≠ .load) :
    execBld s = .next (raiseFault .phase s) :=
  (if_neg ((not_locked_iff _).2 hlock)).trans (if_pos hp)

/-- The response of a BLD on the empty map is STATUS with EMPTY and BUILT alone. -/
theorem responseWord_builtEmpty {st : Status} (herr : st.err = none) (hrootv : st.rootv = false)
    (hsingle : st.single = false) : responseWord 0#8 st.builtEmpty.word = 0x9#64 := by
  simp [Status.builtEmpty, Status.word, Status.errBits, herr, hrootv, hsingle, responseWord,
    Phase.bits]

/-- The response of a BLD that builds a tree is STATUS with ROOTV, BUILT and SINGLE. -/
theorem responseWord_builtTree {st : Status} (herr : st.err = none) (hempty : st.empty = false)
    (one : Bool) :
    responseWord 0#8 (st.builtTree one).word = if one then 0x15#64 else 0x5#64 := by
  cases one <;> simp [Status.builtTree, Status.word, Status.errBits, herr, hempty, responseWord,
    Phase.bits]

/-- BLD on the empty map (R127): STATUS and the response are all it writes. -/
theorem execBld_of_empty {s : State} (herr : s.status.err = none) (hp : s.status.phase = .load)
    (hrootv : s.status.rootv = false) (hsingle : s.status.single = false) (hn : s.nleaf = 0) :
    execBld s = .next { s with status := s.status.builtEmpty, rsp := some 0x9#64 } := by
  rw [← responseWord_builtEmpty herr hrootv hsingle]
  exact (if_neg ((not_locked_iff _).2 herr)).trans <| (if_neg (not_not.2 hp)).trans (if_pos hn)

/-- Settles O23: with ROOTV, SINGLE and ERR 0, the STATUS written is that of the rule. -/
theorem bldOnEmptyMap : Obligations.BldOnEmptyMap := by
  unfold Obligations.BldOnEmptyMap
  intro s herr hp hrootv hsingle hn
  refine (execBld_of_empty herr hp hrootv hsingle hn).trans ?_
  rw [Status.builtEmpty, herr, hrootv, hsingle]

/-- The arena outside the slots that BLD writes is that of `s`. -/
def KeepsOutsideBuild (s u : State) : Prop :=
  u.nleaf = s.nleaf ∧
    ∀ j, j < s.nleaf.toNat ∨ 2 * s.nleaf.toNat - 1 ≤ j → u.node.get? j = s.node.get? j

/-- The slot of a merge is from NLEAF on, and below 2 NLEAF - 1 while two members are left. -/
theorem KeepsOutsideBuild.merged {s u : State} (h : KeepsOutsideBuild s u) (hf : Forest u)
    (hq : 2 ≤ u.qcnt.toNat) (a b : Index) : KeepsOutsideBuild s (u.merged a b) := by
  obtain ⟨hnleaf, hkept⟩ := h
  have hcount := hf.count
  have hle := hf.nleaf_le_nnode
  rw [hnleaf] at hcount hle
  exact ⟨hnleaf, fun j hj => (merged_node_other u a b (by omega)).trans (hkept j hj)⟩

/-- BLD builds the tree of a loaded map: outside the new slots the arena is kept, and the left
child of every new node has the lower key (R123). -/
theorem Invariants.buildTree_children {s : State} (h : Invariants s)
    (hp : s.status.phase = .load) (hn : 1 ≤ s.nleaf.toNat) :
    ∃ u, s.buildTree = .ok u ∧ KeepsOutsideBuild s u ∧
      ∀ k, s.nleaf.toNat ≤ k → k < u.nnode.toNat →
        KeyBelow u (u.nodeAt k).left (u.nodeAt k).right := by
  obtain ⟨v, r, hv, hf, hkept, -⟩ := h.buildTree hp hn (KeepsOutsideBuild s)
    (fun w a b hfw hq _ _ hw => hw.merged hfw hq a b) ⟨rfl, fun _ _ => rfl⟩
  exact ⟨_, hv, hkept, fun k h1 h2 =>
    (keyLower_iff_keyBelow v _ _).1 (hf.left_lower k (hkept.1.symm ▸ h1) h2)⟩

theorem buildTree_ct {s u : State} (h : s.buildTree = .ok u) : u.ct = s.ct :=
  (congrArg State.ct (buildTree_writes s u h) :)

theorem buildTree_host {s u : State} (h : s.buildTree = .ok u) : u.host = s.host :=
  (congrArg State.host (buildTree_writes s u h) :)

/-- SINGLE tells one entry from more, on the number (R125). -/
theorem buildTree_single {s u : State} (h : s.buildTree = .ok u) :
    u.status = s.status.builtTree (decide (s.nleaf.toNat = 1)) := by
  rw [buildTree_status h, decide_eq_decide.2 (BitVec.toNat_inj (x := s.nleaf) (y := 1)).symm]
  rfl

/-- The queue is empty from BUILT on, and so is its count (R27, R36). -/
theorem Invariants.built_qcnt {s : State} (h : Invariants s) (hp : s.status.phase ≠ .load) :
    s.qcnt = 0 :=
  BitVec.eq_of_toNat_eq (h.qcnt_eq.trans (h.built_queue hp ▸ rfl))

/-- Settles O21: the counters, the root and the new nodes are what the invariants say of a built
state; the merges say which slots are written and in what order the children stand; and the writes
of BLD leave the rest. -/
theorem bldBuildsTree : Obligations.BldBuildsTree := by
  unfold Obligations.BldBuildsTree
  intro s h
  refine ⟨fun herr hp hn => ?_, fun herr hp hn => ?_, exec_of_locked rfl, execBld_of_phase⟩
  · obtain ⟨u, hu, ⟨hnleaf, hkept⟩, hkeys⟩ := h.buildTree_children hp hn
    have hbld : exec .bld s = .next (complete u.status.word u) :=
      execBld_next s u herr hp (ne_zero_of_one_le hn) hu
    have hInv : Invariants (complete u.status.word u) := h.exec hbld
    have hstatus := buildTree_single hu
    have hbuilt : u.status.phase ≠ .load := by rw [hstatus]; exact nofun
    obtain ⟨-, hempty, -, -⟩ := h.load_flags hp
    have hrsp : responseWord 0#8 u.status.word =
        if s.nleaf.toNat = 1 then 0x15#64 else 0x5#64 := by
      rw [hstatus, responseWord_builtTree herr hempty]
      simp only [decide_eq_true_eq]
    have hnnode : u.nnode.toNat = 2 * s.nleaf.toNat - 1 := hnleaf ▸ hInv.built_nnode hbuilt
    have hroot : u.root.toNat = 2 * s.nleaf.toNat - 2 :=
      hnleaf ▸ hInv.root_last hbuilt (hnleaf.symm ▸ hn)
    have htotal : u.total = s.total := buildTree_total hu
    have hweight : (u.nodeAt u.root.toNat).wt = s.total :=
      (hInv.root_weight hbuilt (hnleaf.symm ▸ hn)).trans htotal
    have hinternal : ∀ k, s.nleaf.toNat ≤ k → k < u.nnode.toNat →
        InternalNode (complete u.status.word u) k := hnleaf ▸ hInv.internal
    exact ⟨_, hbld, hInv.built_queue hbuilt, hInv.built_qcnt hbuilt, hnnode, hroot, hweight,
      fun k h1 h2 => ⟨hinternal k h1 h2, hkeys k h1 h2⟩, hstatus, congrArg some hrsp, hkept,
      hnleaf, htotal, (buildTree_nmax hu :), (buildTree_ct hu :), (buildTree_host hu :), hInv⟩
  · obtain ⟨hrootv, -, hsingle, -⟩ := h.load_flags hp
    exact execBld_of_empty herr hp hrootv hsingle hn

end Sys2Proof.Machine
end

section
/-!
DRV (spec/42_derive.md): the entry of a leaf as its code (R34, R41, R144), the faults of DRV in the
order of its checks (R141, R146), and what a DRV on a built tree writes (R141, R143).
-/

namespace Sys2Proof.Machine

/-! ### An entry with zeros above its length (R34, R144) -/

/-- The bits of such an entry are those of its code, and 0 past the code's end. -/
theorem ctEntry_testBit {e : CtEntry} (h : e.cbits < 2 ^ e.clen.toNat) (j : Nat) :
    e.cbits.testBit j = (CtEntry.bits e).getD j false := by
  by_cases hj : j < e.clen.toNat
  · simp [CtEntry.bits, hj]
  · have hpow : 2 ^ e.clen.toNat ≤ 2 ^ j := Nat.pow_le_pow_right (by decide) (by omega)
    rw [Nat.testBit_lt_two_pow (by omega)]
    simp [CtEntry.bits, hj]

theorem LeafCode.code_ne_nil {s : State} {i : Nat} (h : LeafCode s i) : s.code i ≠ [] :=
  List.ne_nil_of_length_pos ((code_length s i).symm ▸ h.length_pos)

/-- The entry of the single leaf is that of the code "0" (R143). -/
theorem LeafCode.ctAt_of_single {s : State} {i : Nat} (h : LeafCode s i)
    (hn : s.nleaf.toNat = 1) : s.ctAt i = { clen := 1, cbits := 0 } :=
  ctEntry_eq_of_bits h.high_zero (by decide) (h.single hn)

/-! ### The faults of DRV, in the order of its checks -/

theorem execDrv_of_phase {s : State} (hlock : s.status.err = none) (hp : s.status.phase ≠ .built) :
    execDrv s = .next (raiseFault .phase s) :=
  (if_neg ((not_locked_iff _).2 hlock)).trans (if_pos hp)

theorem execDrv_of_absent {s : State} (hlock : s.status.err = none) (hp : s.status.phase = .built)
    (hrootv : s.status.rootv = false) : execDrv s = .next (raiseFault .empty s) :=
  (if_neg ((not_locked_iff _).2 hlock)).trans <| (if_neg (not_not.2 hp)).trans (if_pos hrootv)

theorem latch_of_unlocked {st : Status} (e : Err) (h : st.err = none) :
    st.latch e = { st with err := some e } := by
  simp only [Status.latch, h]

/-- Settles O25: the fault action on E_EMPTY writes ERR and the response alone. -/
theorem drvOnAbsentTreeFaults : Obligations.DrvOnAbsentTreeFaults := by
  unfold Obligations.DrvOnAbsentTreeFaults
  intro s hlock hp hrootv
  refine (execDrv_of_absent hlock hp hrootv).trans ?_
  rw [← latch_of_unlocked .empty hlock]
  rfl

/-! ### What a DRV on a built tree leaves (R141) -/

/-- ROOTV tells that a leaf was loaded (R40). -/
theorem Invariants.one_le_nleaf {s : State} (h : Invariants s) (hp : s.status.phase ≠ .load)
    (hrootv : s.status.rootv = true) : 1 ≤ s.nleaf.toNat := by
  by_contra hn
  obtain ⟨habsent, -⟩ := h.absent_flags hp (by omega)
  exact Bool.noConfusion (habsent.symm.trans hrootv)

/-- The response of a DRV that completes is STATUS with ROOTV, DERIVED and SINGLE. -/
theorem responseWord_toDerived {st : Status} (herr : st.err = none) (hrootv : st.rootv = true)
    (hempty : st.empty = false) :
    responseWord 0#8 st.toDerived.word = if st.single then 0x16#64 else 0x6#64 := by
  cases hs : st.single <;> simp [Status.toDerived, Status.word, Status.errBits, herr, hrootv,
    hempty, hs, responseWord, Phase.bits]

/-- Settles O24: the invariants, which DRV keeps, say of each leaf's entry that it is the path to
the leaf; the traversal writes no other entry; and one lemma for each fault. -/
theorem drvFillsCodeTable : Obligations.DrvFillsCodeTable := by
  unfold Obligations.DrvFillsCodeTable
  intro s h
  refine ⟨fun herr hp hrootv => ?_, exec_of_locked rfl, execDrv_of_phase, execDrv_of_absent⟩
  obtain ⟨ct, hct, -, -, hkept⟩ := h.derivedTable hp hrootv
  have hdrv : exec .drv s = .next (complete s.status.toDerived.word (s.storeTable ct)) :=
    execDrv_next s ct herr hp hrootv hct
  have hInv := h.exec hdrv
  have hcode := hInv.codes rfl
  have hbuilt : s.status.phase ≠ .load := by rw [hp]; exact nofun
  have hn := h.one_le_nleaf hbuilt hrootv
  obtain ⟨-, hempty, hsingle⟩ := h.tree_flags hbuilt hn
  have hrsp : responseWord 0#8 s.status.toDerived.word =
      if s.nleaf.toNat = 1 then 0x16#64 else 0x6#64 := by
    rw [responseWord_toDerived herr hrootv hempty]
    exact if_congr hsingle rfl rfl
  refine ⟨_, hdrv, fun hone => (hcode 0 hn).ctAt_of_single hone, fun htwo i hi => ?_,
    fun i hi => (hcode i hi).written, hkept, rfl, congrArg some hrsp, rfl, hInv⟩
  have hleaf := hcode i hi
  have hpath := hleaf.path htwo
  rw [follow_congr s (complete _ (s.storeTable ct)) fun _ => rfl] at hpath
  exact ⟨_, hleaf.code_ne_nil, hpath, (code_length _ i).symm, ctEntry_testBit hleaf.high_zero⟩

end Sys2Proof.Machine
end

section
/-!
What the read commands answer (R160 to R163 of spec/43_readout.md): the data of each as a number or
bit by bit, and a whole code read back chunk by chunk (R64 of spec/20_memory.md).
-/

namespace Sys2Proof.Machine

/-! ### A completion by the number or the word of its data (R82) -/

theorem complete_eq_ofNat {d : BitVec 32} {v : Nat} (h : d.toNat = v) (s : State) :
    complete d s = { s with rsp := some (BitVec.ofNat 64 v) } := by
  subst h
  rw [← responseWord_zero]
  rfl

theorem complete_eq_setWidth (d : BitVec 32) (s : State) :
    complete d s = { s with rsp := some (d.setWidth 64) } := by
  rw [← responseWord_setWidth]
  rfl

/-! ### RDS (R160) -/

/-- RDS answers the number of the register that its selector names. -/
theorem execRds_ofNat {s : State} {sel : BitVec 16} {d : BitVec 32} {v : Nat}
    (hreg : s.statusRegister sel.toNat = some d) (hv : d.toNat = v) :
    execRds sel s = .next { s with rsp := some (BitVec.ofNat 64 v) } := by
  rw [execRds_next hreg, complete_eq_ofNat hv]

/-- Settles O26: each selector names its register, a 16-bit register keeps its number on 32 bits,
and a selector above 6 names none. -/
theorem rdsReadsStatusRegisters : Obligations.RdsReadsStatusRegisters := by
  unfold Obligations.RdsReadsStatusRegisters
  intro s
  refine ⟨fun sel v hsel => ?_, fun sel => execRds_of_sel s⟩
  change execRds sel s = _
  rcases hsel with ⟨rfl, rfl⟩ | ⟨rfl, rfl⟩ | ⟨rfl, rfl⟩ | ⟨rfl, rfl⟩ | ⟨rfl, rfl⟩ | ⟨rfl, rfl⟩ |
    ⟨rfl, rfl⟩
  · exact execRds_ofNat rfl rfl
  · exact execRds_ofNat rfl (index_setWidth_toNat s.nleaf)
  · exact execRds_ofNat rfl (index_setWidth_toNat s.nnode)
  · exact execRds_ofNat rfl (index_setWidth_toNat s.qcnt)
  · exact execRds_ofNat rfl (index_setWidth_toNat s.root)
  · exact execRds_ofNat rfl rfl
  · exact execRds_ofNat rfl (index_setWidth_toNat s.nmax)

/-! ### RDN (R161) -/

/-- RDN of a node in use answers the number of the field group that its selector names. -/
theorem execRdn_ofNat {s : State} {idx : Index} {sel : BitVec 16} {v : Nat}
    (hsel : sel.toNat ≤ 2) (hidx : idx.toNat < s.nnode.toNat)
    (hv : (s.nodeGroup idx sel.toNat).toNat = v) :
    execRdn idx sel s = .next { s with rsp := some (BitVec.ofNat 64 v) } := by
  rw [execRdn_next (Nat.not_lt.2 hsel) (Nat.not_le.2 hidx), complete_eq_ofNat hv]

/-- INFO of node `idx`, whose bit 30 is its membership in the queue (R31). -/
theorem nodeGroup_info_toNat (s : State) (idx : Index) : (s.nodeGroup idx 0).toNat =
    (if (s.nodeAt idx.toNat).kind = .internal then 2 ^ 31 else 0)
      + (if idx ∈ s.pq then 2 ^ 30 else 0) + (s.nodeAt idx.toNat).sym.toNat := by
  have hinq : s.inq idx = true ↔ idx ∈ s.pq := List.contains_iff_mem
  simp only [State.nodeGroup, infoWord_toNat, hinq]

/-- Settles O27: each field group as a number, and one lemma for each fault. -/
theorem rdnReadsNodes : Obligations.RdnReadsNodes := by
  unfold Obligations.RdnReadsNodes
  intro s idx
  refine ⟨fun hidx => ⟨?info, ?wt, ?kids⟩, fun sel => execRdn_of_sel s,
    fun sel hsel => execRdn_of_range (Nat.not_lt.2 hsel)⟩
  case info => exact execRdn_ofNat (by decide) hidx (nodeGroup_info_toNat s idx)
  case wt => exact execRdn_ofNat (by decide) hidx rfl
  case kids => exact execRdn_ofNat (by decide) hidx (kidsWord_toNat (s.nodeAt idx.toNat))

/-! ### RDC (R162) -/

/-- In DERIVED, RDC of a leaf answers the number of the field that its selector names. -/
theorem execRdc_ofNat {s : State} {idx : Index} {sel : BitVec 16} {v : Nat}
    (hp : s.status.phase = .derived) (hsel : sel.toNat ≤ 1) (hidx : idx.toNat < s.nleaf.toNat)
    (hv : (s.entryGroup idx sel.toNat).toNat = v) :
    execRdc idx sel s = .next { s with rsp := some (BitVec.ofNat 64 v) } := by
  rw [execRdc_next hp (Nat.not_lt.2 hsel) (Nat.not_le.2 hidx), complete_eq_ofNat hv]

/-- Selector 1 answers the length of the code. -/
theorem execRdc_len {s : State} {idx : Index} (hp : s.status.phase = .derived)
    (hidx : idx.toNat < s.nleaf.toNat) : execRdc idx 1 s =
      .next { s with rsp := some (BitVec.ofNat 64 (s.ctAt idx.toNat).clen.toNat) } :=
  execRdc_ofNat hp (by decide) hidx (index_setWidth_toNat (s.ctAt idx.toNat).clen)

/-- Settles O28: the symbol and the length keep their numbers on 32 bits, and one lemma for each
fault, in the order of the checks. -/
theorem rdcReadsSymbolsAndLengths : Obligations.RdcReadsSymbolsAndLengths := by
  unfold Obligations.RdcReadsSymbolsAndLengths
  intro s idx
  refine ⟨fun hp hidx => ⟨?sym, execRdc_len hp hidx⟩, fun sel hp => execRdc_of_phase hp idx sel,
    fun sel hp => execRdc_of_sel hp, fun sel hp hsel => execRdc_of_range hp (Nat.not_lt.2 hsel)⟩
  case sym => exact execRdc_ofNat hp (by decide) hidx (symbol_setWidth_toNat _)

/-! ### RDB (R163, R64) -/

/-- In DERIVED, RDB of a leaf answers a chunk of its code's bits. -/
theorem execRdb_chunk {s : State} {idx : Index} {k : BitVec 16}
    (hp : s.status.phase = .derived) (hk : k.toNat < nchunk s.nmax)
    (hidx : idx.toNat < s.nleaf.toNat) : execRdb idx k s = .next { s with
      rsp := some ((chunk s.nmax (s.ctAt idx.toNat).cbits k.toNat).setWidth 64) } := by
  rw [execRdb_next hp (Nat.not_le.2 hk) (Nat.not_le.2 hidx), complete_eq_setWidth]

/-- Settles O29: the bits of a chunk, and one lemma for each fault, in the order of the checks. -/
theorem rdbReadsChunks : Obligations.RdbReadsChunks := by
  unfold Obligations.RdbReadsChunks
  intro s idx k
  refine ⟨fun hp hk hidx => ⟨_, execRdb_chunk hp hk hidx, fun t => ?bits⟩,
    fun hp => execRdb_of_phase hp idx k, execRdb_of_sel,
    fun hp hk => execRdb_of_range hp (Nat.not_le.2 hk)⟩
  case bits => exact chunk_getLsbD s.nmax _ k.toNat t

/-! ### A whole code, chunk by chunk -/

/-- Every chunk number fits the selector's 16 bits. -/
theorem nchunk_lt_sel (nmax : Index) : nchunk nmax < 2 ^ 16 := by
  have hlast := nchunk_lt_codeW_add nmax
  have hmax := nmax.isLt
  unfold codeW at hlast
  omega

/-- The code of a leaf fits the CODE_W bits that are kept for it (R144). -/
theorem Invariants.clen_le_codeW {s : State} (h : Invariants s) (hp : s.status.phase = .derived)
    {i : Nat} (hi : i < s.nleaf.toNat) : (s.ctAt i).clen.toNat ≤ codeW s.nmax := by
  have hlen := (h.codes hp i hi).length_le
  have hcap := h.nleaf_le
  unfold codeW
  omega

/-- A chunk of an entry that has zeros above its length is a piece of its code, with zeros past the
code's end: the cut at CODE_W takes nothing away. -/
theorem chunk_getLsbD_of_clen_le {nmax : Index} {e : CtEntry} (hfit : e.clen.toNat ≤ codeW nmax)
    (hzero : e.cbits < 2 ^ e.clen.toNat) (k : Nat) {b : Nat} (hb : b < 32) :
    (chunk nmax e.cbits k).getLsbD b = (CtEntry.bits e).getD (32 * k + b) false := by
  rw [chunk_getLsbD nmax e.cbits k b hb, ← ctEntry_testBit hzero]
  by_cases hin : 32 * k + b < codeW nmax
  · rw [decide_eq_true hin, Bool.true_and]
  · have hpow : 2 ^ e.clen.toNat ≤ 2 ^ (32 * k + b) :=
      Nat.pow_le_pow_right (by decide) (by omega)
    rw [Nat.testBit_lt_two_pow (Nat.lt_of_lt_of_le hzero hpow), Bool.and_false]

/-- Settles O30: RDC answers CLEN, the code fits NCHUNK chunks because it fits CODE_W bits, and each
chunk that RDB answers is a piece of the code. -/
theorem chunksGiveTheCode : Obligations.ChunksGiveTheCode := by
  unfold Obligations.ChunksGiveTheCode
  intro s idx h hp hidx
  have hfit : (s.ctAt idx.toNat).clen.toNat ≤ codeW s.nmax := h.clen_le_codeW hp hidx
  have hzero := (h.codes hp idx.toNat hidx).high_zero
  rw [code_length]
  refine ⟨execRdc_len hp hidx, fun j hj => ?_, fun k hk => ?_⟩
  · have hcover := codeW_le_nchunk s.nmax
    omega
  · have hsel : (BitVec.ofNat 16 k).toNat = k := ofNat16_toNat (hk.trans (nchunk_lt_sel s.nmax))
    refine ⟨_, execRdb_chunk hp (hsel.symm ▸ hk) hidx, fun b hb => ?_⟩
    rw [hsel]
    exact chunk_getLsbD_of_clen_le hfit hzero k hb

end Sys2Proof.Machine
end

section
/-!
Faults (spec/60_exceptions.md): the fault action (R181), the checks of every command in the order of
their codes (R185 to R189), and that a command answers a fault's code only when that fault applies.
-/

namespace Sys2Proof.Machine

/-! ### The fault action (R181) -/

theorem latch_eq (st : Status) (e : Err) : st.latch e = { st with err := some (st.err.getD e) } := by
  unfold Status.latch
  split
  · next h => rw [h]; rfl
  · next h => rw [h, Option.getD_some, ← h]

/-- The fault action latches the first code and answers its own; it writes nothing else. -/
theorem raiseFault_eq (e : Err) (s : State) : raiseFault e s =
    { s with status := { s.status with err := some (s.status.err.getD e) },
             rsp := some (responseWord e.code 0) } := by
  rw [← latch_eq]
  rfl

/-- While the block is locked the fault action writes the response alone. -/
theorem raiseFault_of_locked (e : Err) {s : State} (h : s.status.err ≠ none) :
    raiseFault e s = { s with rsp := some (responseWord e.code 0) } := by
  unfold raiseFault
  rw [latch_of_locked _ e h]
  rfl

/-- Settles O33: an ERR of 0 takes the code, and any other is left. -/
theorem faultActionLatchesFirstCode : Obligations.FaultActionLatchesFirstCode := by
  unfold Obligations.FaultActionLatchesFirstCode
  refine fun e s => ⟨fun h => ?_, raiseFault_of_locked e⟩
  rw [raiseFault_eq, h]
  rfl

/-- Settles O11: a word that no row fits does not decode, and the step is the fault action on
E_ILLOP with the word passed. -/
theorem illegalWordFaultsIllop : Obligations.IllegalWordFaultsIllop := by
  unfold Obligations.IllegalWordFaultsIllop
  intro s cw rest hhost hrsp hnofit
  have hword : responseWord Err.illop.code 0 = 0x0100000000000000#64 := by decide
  obtain ⟨-, -, hrefused⟩ := decodeAgreesWithOpcodeMap cw
  obtain ⟨w, hw⟩ := hrefused.2 hnofit
  rw [step_send s cw rest hhost hrsp, runWord_error cw w _ hw, raiseFault_eq, hword]

/-! ### The checks of a command, in the order of their codes (R185 to R189) -/

section
variable {i : Instr} {s : State}

/-- A command that the lock does not refuse makes the phase check first (R185). -/
theorem exec_of_phase (hlock : lockable i = true → s.status.err = none)
    (hp : phaseOk i s.status.phase = false) : exec i s = .next (raiseFault .phase s) := by
  cases i with
  | clr | rds _ | rdn _ _ => cases hp
  | ldf sym cnt => exact execLdf_of_phase (hlock rfl) (of_decide_eq_false hp)
  | bld => exact execBld_of_phase (hlock rfl) (of_decide_eq_false hp)
  | drv => exact execDrv_of_phase (hlock rfl) (of_decide_eq_false hp)
  | rdc idx sel => exact execRdc_of_phase (of_decide_eq_false hp) idx sel
  | rdb idx sel => exact execRdb_of_phase (of_decide_eq_false hp) idx sel

variable (hp : phaseOk i s.status.phase = true)
include hp

/-- A read checks its selector next (R187). -/
theorem exec_of_selBad (hsel : selBad i s) : exec i s = .next (raiseFault .sel s) := by
  cases i with
  | clr | ldf _ _ | bld | drv => exact hsel.elim
  | rds sel => exact execRds_of_sel s hsel
  | rdn idx sel => exact execRdn_of_sel s hsel
  | rdc idx sel => exact execRdc_of_sel (of_decide_eq_true hp) hsel
  | rdb idx sel => exact execRdb_of_sel (of_decide_eq_true hp) hsel

/-- A read checks its index after its selector (R187). -/
theorem exec_of_rangeBad (hsel : ¬ selBad i s) (hidx : rangeBad i s) :
    exec i s = .next (raiseFault .range s) := by
  cases i with
  | clr | ldf _ _ | bld | drv | rds _ => exact hidx.elim
  | rdn idx sel => exact execRdn_of_range hsel hidx
  | rdc idx sel => exact execRdc_of_range (of_decide_eq_true hp) hsel hidx
  | rdb idx sel => exact execRdb_of_range (of_decide_eq_true hp) hsel hidx

end

/-- No fault with a code below that of `e` applies. -/
def NoneBelow (e : Err) (i : Instr) (s : State) : Prop :=
  ∀ e', Applies e' i s → e.code.toNat ≤ e'.code.toNat

theorem NoneBelow.not_applies {e e' : Err} {i : Instr} {s : State} (h : NoneBelow e i s)
    (hlt : e'.code.toNat < e.code.toNat) : ¬ Applies e' i s := fun happ =>
  Nat.not_le.2 hlt (h e' happ)

theorem NoneBelow.unlocked {e : Err} {i : Instr} {s : State} (h : NoneBelow e i s)
    (hlt : Err.faulted.code.toNat < e.code.toNat) (hi : lockable i = true) :
    s.status.err = none := by
  by_contra herr
  exact h.not_applies hlt ⟨hi, herr⟩

theorem NoneBelow.phaseOk {e : Err} {i : Instr} {s : State} (h : NoneBelow e i s)
    (hlt : Err.phase.code.toNat < e.code.toNat) : phaseOk i s.status.phase = true :=
  Bool.eq_true_of_not_eq_false (h.not_applies hlt)

theorem NoneBelow.loading {e : Err} {sym : Symbol} {cnt : Weight} {s : State}
    (h : NoneBelow e (.ldf sym cnt) s) (hlt : Err.phase.code.toNat < e.code.toNat) :
    s.status.phase = .load := of_decide_eq_true (h.phaseOk hlt)

theorem NoneBelow.notFull {e : Err} {sym : Symbol} {cnt : Weight} {s : State}
    (h : NoneBelow e (.ldf sym cnt) s) (hlt : Err.full.code.toNat < e.code.toNat) :
    s.nleaf ≠ s.nmax := fun hfull => h.not_applies hlt ⟨sym, cnt, rfl, hfull⟩

/-- A command makes its checks in the order of their codes, so it takes the applicable fault with
the smallest one (R188). -/
theorem exec_of_lowest {e : Err} {i : Instr} {s : State} (happ : Applies e i s)
    (h : NoneBelow e i s) : exec i s = .next (raiseFault e s) := by
  cases e with
  | illop => exact happ.elim
  | faulted =>
    obtain ⟨hi, herr⟩ := happ
    exact exec_of_locked hi herr
  | phase => exact exec_of_phase (h.unlocked (by decide)) happ
  | sel => exact exec_of_selBad (h.phaseOk (by decide)) happ
  | range =>
    have hsel : ¬ selBad i s := h.not_applies (e' := .sel) (by decide)
    exact exec_of_rangeBad (h.phaseOk (by decide)) hsel happ
  | empty =>
    obtain ⟨rfl, hrootv⟩ := happ
    have hbuilt : s.status.phase = .built := of_decide_eq_true (h.phaseOk (by decide))
    exact execDrv_of_absent (h.unlocked (by decide) rfl) hbuilt hrootv
  | full =>
    obtain ⟨sym, cnt, rfl, hfull⟩ := happ
    exact execLdf_of_full (h.unlocked (by decide) rfl) (h.loading (by decide)) hfull
  | dupsym =>
    obtain ⟨sym, cnt, rfl, hdup⟩ := happ
    exact execLdf_of_dupsym (h.unlocked (by decide) rfl) (h.loading (by decide))
      (h.notFull (by decide)) hdup
  | wovf =>
    obtain ⟨sym, cnt, rfl, hsum⟩ := happ
    have hnew : ∀ j, j < s.nleaf.toNat → (s.nodeAt j).sym ≠ sym := fun j hj hsym =>
      h.not_applies (e' := .dupsym) (by decide) ⟨sym, cnt, rfl, j, hj, hsym⟩
    exact execLdf_of_wovf (h.unlocked (by decide) rfl) (h.loading (by decide))
      (h.notFull (by decide)) hnew hsum

/-! ### A fault that is answered applies -/

/-- The outcome `o` of the command `i` answers a fault's code only when that fault applies, and by
the fault action. -/
def FaultsJustly (i : Instr) (s : State) (o : Host.Outcome State Fault Refusal) : Prop :=
  ∀ (t : State) (e : Err), o = .next t → t.rsp = some (responseWord e.code 0) →
    Applies e i s ∧ t = raiseFault e s

namespace FaultsJustly

section
variable {i : Instr} {s : State}

theorem faults {e : Err} (h : Applies e i s) : FaultsJustly i s (faults e s) := by
  rintro t e' ⟨⟩ hr
  have hcode : e.code = e'.code := (responseWord_inj.1 (Option.some.inj hr)).1
  cases code_inj.1 hcode
  exact ⟨h, rfl⟩

theorem complete (d : BitVec 32) (u : State) : FaultsJustly i s (.next (complete d u)) := by
  rintro t e ⟨⟩ hr
  exact absurd (responseWord_inj.1 (Option.some.inj hr)).1.symm (code_ne_zero e)

theorem stops (f : Fault) : FaultsJustly i s (.fault f) := nofun

theorem ite {c : Prop} [Decidable c] {a b : Host.Outcome State Fault Refusal}
    (ha : c → FaultsJustly i s a) (hb : FaultsJustly i s b) :
    FaultsJustly i s (if c then a else b) := by
  split
  · next hc => exact ha hc
  · exact hb

/-- A check that faults where its cause holds. -/
theorem check {c : Prop} [Decidable c] {e : Err} {o : Host.Outcome State Fault Refusal}
    (hc : c → Applies e i s) (ho : FaultsJustly i s o) :
    FaultsJustly i s (if c then Machine.faults e s else o) := ite (fun h => faults (hc h)) ho

/-- The lock's check, the first of LDF, BLD and DRV (R182). -/
theorem lock (hi : lockable i = true) {o : Host.Outcome State Fault Refusal}
    (ho : FaultsJustly i s o) :
    FaultsJustly i s (if s.status.locked then Machine.faults .faulted s else o) :=
  check (fun h => ⟨hi, (locked_iff _).1 h⟩) ho

end

theorem execLdf (sym : Symbol) (cnt : Weight) (s : State) :
    FaultsJustly (.ldf sym cnt) s (execLdf sym cnt s) :=
  lock rfl <| check decide_eq_false <|
    check (fun hfull => ⟨sym, cnt, rfl, hfull⟩) <|
    check (fun hdup => ⟨sym, cnt, rfl, (hasSymbol_iff s sym).1 hdup⟩) <|
    check (fun hsum => ⟨sym, cnt, rfl, hsum⟩) <| complete _ _

theorem execBld (s : State) : FaultsJustly .bld s (execBld s) := by
  refine lock rfl <| check decide_eq_false <| ite (fun _ => complete _ _) ?_
  cases s.buildTree with
  | ok u => exact complete _ u
  | error f => exact stops f

theorem execDrv (s : State) : FaultsJustly .drv s (execDrv s) := by
  refine lock rfl <| check decide_eq_false <|
    check (fun hrootv => ⟨rfl, hrootv⟩) ?_
  cases s.derivedTable with
  | some ct => exact complete _ _
  | none => exact stops _

theorem execRds (sel : BitVec 16) (s : State) : FaultsJustly (.rds sel) s (execRds sel s) := by
  unfold Machine.execRds
  split
  · exact complete _ s
  · next hnone => exact faults ((statusRegister_eq_none_iff s _).1 hnone)

theorem execRdn (idx : Index) (sel : BitVec 16) (s : State) :
    FaultsJustly (.rdn idx sel) s (execRdn idx sel s) :=
  check id <| check id <| complete _ s

theorem execRdc (idx : Index) (sel : BitVec 16) (s : State) :
    FaultsJustly (.rdc idx sel) s (execRdc idx sel s) :=
  check decide_eq_false <| check id <|
    check id <| complete _ s

theorem execRdb (idx : Index) (sel : BitVec 16) (s : State) :
    FaultsJustly (.rdb idx sel) s (execRdb idx sel s) :=
  check decide_eq_false <| check id <|
    check id <| complete _ s

theorem exec (i : Instr) (s : State) : FaultsJustly i s (exec i s) := by
  cases i with
  | clr => exact complete _ _
  | ldf sym cnt => exact execLdf sym cnt s
  | bld => exact execBld s
  | drv => exact execDrv s
  | rds sel => exact execRds sel s
  | rdn idx sel => exact execRdn idx sel s
  | rdc idx sel => exact execRdc idx sel s
  | rdb idx sel => exact execRdb idx sel s

end FaultsJustly

/-- A command does not answer the code of a fault that does not apply. -/
theorem exec_rsp_ne {i : Instr} {s t : State} (h : exec i s = .next t) {e : Err}
    (hn : ¬ Applies e i s) : t.rsp ≠ some (responseWord e.code 0) := fun hr =>
  hn (FaultsJustly.exec i s t e h hr).1

/-! ### What the faults of every command keep (R182, R185, R188, R190) -/

/-- Settles O37: the checks stand in the order of their codes, and a command that answers without an
applicable fault answers err 0. -/
theorem smallestApplicableFaultIsReported : Obligations.SmallestApplicableFaultIsReported := by
  unfold Obligations.SmallestApplicableFaultIsReported
  refine ⟨fun i s e => exec_of_lowest, fun i s hs hnone => ?_⟩
  obtain ⟨t, ht⟩ := hs.exec_answersNext i
  rcases exec_rsp ht with ⟨e, hr⟩ | ⟨d, hr⟩
  · exact absurd hr (exec_rsp_ne ht (hnone e))
  · exact ⟨t, d, ht, hr⟩

theorem responseWord_faulted : responseWord Err.faulted.code 0 = 0x0200000000000000#64 := by decide

theorem responseWord_phase : responseWord Err.phase.code 0 = 0x0300000000000000#64 := by decide

/-- Settles O36: where the row says E_PHASE the phase check faults, and where it says ok the fault
E_PHASE does not apply. -/
theorem phaseTableIsKept : Obligations.PhaseTableIsKept := by
  unfold Obligations.PhaseTableIsKept
  intro i s hlock
  refine ⟨exec_of_phase hlock, fun hok t ht => ?_⟩
  have hnot : ¬ Applies .phase i s := fun hbad => Bool.noConfusion (hok.symm.trans hbad)
  rw [← responseWord_phase]
  exact exec_rsp_ne ht hnot

/-- Settles O35: the lock's check comes first in LDF, BLD and DRV, E_FAULTED applies to no other
command, and of a step's effects on ERR only a restart leaves it 0 when it was not. -/
theorem lockRefusesLoadBuildDerive : Obligations.LockRefusesLoadBuildDerive := by
  unfold Obligations.LockRefusesLoadBuildDerive
  rw [← responseWord_faulted]
  refine ⟨fun i s hi herr => ?_, fun i s t hi ht => ?_, fun s t hstep hs ht => ?_⟩
  · rw [exec_of_locked hi herr, raiseFault_of_locked _ herr]
  · have hnot : ¬ Applies .faulted i s := fun ⟨hi', _⟩ => Bool.noConfusion (hi.symm.trans hi')
    exact exec_rsp_ne ht hnot
  · rcases (stepEffect_of_step hstep).err with ⟨hstart, -, -⟩ | ⟨e, hlatch, -⟩ | ⟨hkept, -⟩
    · exact hstart
    · exact nomatch ht.symm.trans hlatch
    · exact absurd (hkept.symm.trans ht) hs

/-- Settles O34: a nonzero err field is a fault's, the state after is the fault action's, and
E_FAULTED applies only while ERR holds a code. -/
theorem faultsArePrecise : Obligations.FaultsArePrecise := by
  unfold Obligations.FaultsArePrecise
  intro i s t r ht hr herr
  rcases exec_rsp ht with ⟨e, he⟩ | ⟨d, hd⟩
  · cases hr.symm.trans he
    obtain ⟨happ, rfl⟩ := FaultsJustly.exec i s t e ht hr
    refine ⟨e, rfl, raiseFault_eq e s, ?_⟩
    rintro rfl
    obtain ⟨-, hlocked⟩ := happ
    exact raiseFault_of_locked _ hlocked
  · cases hr.symm.trans hd
    have hzero : (responseWord 0 d).toNat = d.toNat := by simp [responseWord_toNat]
    have hlt := d.isLt
    omega

end Sys2Proof.Machine
end

section
/-!
The ports and the start of an invocation (spec/70_reset_and_hazards.md): what a step does while a
word passes or waits (R213, R214, R222), that CLR leaves nothing of an earlier invocation to see
(R212), that runs from alike states stay alike (R219), and that a derived result stays (R221).
-/

namespace Sys2Proof.Machine

/-! ### A word that passes (R214) -/

/-- Settles O10: the word passes, and runs the command it decodes to. -/
theorem stepRunsDecodedCommand : Obligations.StepRunsDecodedCommand := by
  unfold Obligations.StepRunsDecodedCommand
  intro s cw rest i hhost hrsp hdecode
  exact (step_send s cw rest hhost hrsp).trans (runWord_ok cw i _ hdecode)

/-- No command writes what the host does next. -/
theorem exec_host {i : Instr} {s t : State} (h : exec i s = .next t) : t.host = s.host := by
  rcases exec_cases i s t h with ⟨e, rfl⟩ | ⟨-, rfl⟩ | ⟨sym, cnt, -, -, -, -, -, -, rfl⟩ |
    ⟨-, -, -, -, rfl⟩ | ⟨-, -, -, -, u, hu, rfl⟩ | ⟨-, -, -, -, ct, -, rfl⟩ | ⟨-, d, rfl⟩
  exacts [rfl, rfl, rfl, rfl, (buildTree_host hu :), rfl, rfl]

/-- A word that runs, legal or not, offers a response and leaves the host's list (R214). -/
theorem runWord_ports {cw : CmdWord} {s t : State} (h : runWord cw s = .next t) :
    t.host = s.host ∧ ∃ r, t.rsp = some r := by
  cases hd : decode cw with
  | ok i =>
    rw [runWord_ok cw i s hd] at h
    rcases exec_rsp h with ⟨_, hr⟩ | ⟨_, hr⟩ <;> exact ⟨exec_host h, _, hr⟩
  | error e =>
    cases (runWord_error cw e s hd).symm.trans h
    exact ⟨rfl, _, rfl⟩

/-! ### A turn of the ports (R213, R222) -/

/-- No word passes unless the host sends one and the block is ready for it. -/
theorem acceptWord_eq_none {s : State}
    (h : ∀ cw rest, s.host = .send cw :: rest → s.rsp ≠ none) : s.acceptWord = none := by
  refine Option.eq_none_iff_forall_ne_some.2 ?_
  rintro ⟨cw, s'⟩ ha
  obtain ⟨rest, hhost, hrsp, -⟩ := (acceptWord_some s s' cw).1 ha
  exact h cw rest hhost hrsp

/-- A word sent while a response is pending waits. -/
theorem step_send_of_pending {s : State} {cw : CmdWord} {rest : List HostEvent} {r : RspWord}
    (hhost : s.host = .send cw :: rest) (hrsp : s.rsp = some r) : step s = .next s := by
  have hturn : s.portTurn = s := by simp only [State.portTurn, hhost]
  rw [step_port s (acceptWord_eq_none fun _ _ _ => by simp [hrsp]), hturn]

/-- A host that takes passes no word: it takes the response if one is offered, and waits if not. -/
theorem step_take {s : State} {rest : List HostEvent} (hhost : s.host = .take :: rest) :
    step s = .next (if s.rspValid then { s with rsp := none, host := rest } else s) := by
  have hturn : s.portTurn = if s.rspValid then { s with rsp := none, host := rest } else s := by
    simp only [State.portTurn, hhost]
  rw [step_port s (acceptWord_eq_none fun _ _ hsend => nomatch hhost.symm.trans hsend), hturn]

/-- The block waits while its host does nothing (R210). -/
theorem step_of_host_nil {s : State} (hhost : s.host = []) : step s = .next s := by
  have hturn : s.portTurn = s := by simp only [State.portTurn, hhost]
  rw [step_port s (acceptWord_eq_none fun _ _ hsend => nomatch hhost.symm.trans hsend), hturn]

/-- Settles O12: an accepted word runs and offers its response; a word sent while a response is
pending waits; a pending response is taken. -/
theorem oneCommandAtATime : Obligations.OneCommandAtATime := by
  unfold Obligations.OneCommandAtATime
  refine ⟨fun s t cw rest hhost hrsp hstep => ?_, fun s cw rest r => step_send_of_pending,
    fun s rest r hhost hrsp => ?_⟩
  · rw [step_send s cw rest hhost hrsp] at hstep
    exact runWord_ports hstep
  · have hvalid : s.rspValid = true := by simp [State.rspValid, hrsp]
    rw [step_take hhost, if_pos hvalid]

/-- Settles O13: a host that takes waits while no response is valid, and a turn of the ports
without a host action is idle. -/
theorem idleStepsChangeNothing : Obligations.IdleStepsChangeNothing := by
  unfold Obligations.IdleStepsChangeNothing
  refine ⟨fun s rest hhost hrsp => ?_, fun s => step_of_host_nil⟩
  have hinvalid : ¬ s.rspValid = true := by simp [State.rspValid, hrsp]
  rw [step_take hhost, if_neg hinvalid]

/-! ### A new invocation (R101, R212) -/

/-- A completed new invocation has no slot in use, is in LOAD and offers its own response, so its
view keeps of the state before only NMAX and what the host does next. -/
theorem sameView_complete_newInvocation {s t : State} (hn : s.nmax = t.nmax)
    (hh : s.host = t.host) (d : BitVec 32) :
    SameView (complete d (newInvocation s)) (complete d (newInvocation t)) where
  status := rfl
  nleaf := rfl
  nnode := rfl
  qcnt := rfl
  root := rfl
  total := rfl
  nmax := hn
  pq := rfl
  rsp := rfl
  host := hh
  node i hi := absurd hi (Nat.not_lt_zero i)
  ct hd := nomatch hd

/-- Settles O53: CLR is the new invocation completed with 0, in every state. -/
theorem newInvocationForgets : Obligations.NewInvocationForgets := by
  unfold Obligations.NewInvocationForgets
  intro s t hn hh
  exact ⟨_, _, rfl, rfl, sameView_complete_newInvocation hn hh 0⟩

/-- Runs from two alike states go on, and stay alike after every number of steps (R219). -/
theorem SameView.run {s t : State} (h : SameView s t) (hs : Invariants s) (ht : Invariants t)
    (k : Nat) : ∃ s' t', Host.Core.run Sys2Proof.core k s = .next s' ∧
      Host.Core.run Sys2Proof.core k t = .next t' ∧ SameView s' t' := by
  induction k generalizing s t with
  | zero => exact ⟨s, t, rfl, rfl, h⟩
  | succ k ih =>
    obtain ⟨s1, hs1⟩ := noStepStops s hs
    obtain ⟨t1, ht1, h1⟩ := unusedContentIsNeverSeen s t hs ht h s1 hs1
    rw [run_of_step k s s1 hs1, run_of_step k t t1 ht1]
    exact ih h1 (everyStepKeepsInvariant s s1 hs hs1) (everyStepKeepsInvariant t t1 ht ht1)

/-- Settles O54: the first step is CLR, which makes the two states alike, and the runs from there
stay alike. -/
theorem invocationsAreReproducible : Obligations.InvocationsAreReproducible := by
  unfold Obligations.InvocationsAreReproducible
  intro s t rest hs ht hn hrs hrt hhost hhosts k
  obtain ⟨hclr, -⟩ := workedWordsDecode
  obtain ⟨s1, t1, hes, het, h1⟩ :=
    newInvocationForgets { s with host := rest } { t with host := rest } hn rfl
  have hs1 : step s = .next s1 := (stepRunsDecodedCommand s _ rest .clr hhost hrs hclr).trans hes
  have ht1 : step t = .next t1 :=
    (stepRunsDecodedCommand t _ rest .clr (hhosts.trans hhost) hrt hclr).trans het
  rw [run_of_step k s s1 hs1, run_of_step k t t1 ht1]
  exact h1.run (everyStepKeepsInvariant s s1 hs hs1) (everyStepKeepsInvariant t t1 ht ht1) k

/-! ### A derived result (R221) -/

/-- In DERIVED every effect but a restart writes ERR and the ports alone: LDF and BLD complete only
in LOAD, DRV only in BUILT, and what is left is the fault action, a read, or a turn of the ports. -/
theorem StepEffect.writes_of_derived {s t : State} (h : StepEffect s t)
    (hp : s.status.phase = .derived) (hnew : ¬ startsInvocation s) :
    t = { s with
      status := { s.status with err := t.status.err }
      rsp := t.rsp
      host := t.host } := by
  cases h with
  | restarts hstart _ _ _ => exact absurd hstart hnew
  | faults e rest heq => rw [heq, raiseFault_eq]
  | loads _ _ _ _ hload _ => exact nomatch hp.symm.trans hload
  | buildsEmpty _ _ _ hload _ => exact nomatch hp.symm.trans hload
  | buildsTree _ _ _ _ hload _ _ _ => exact nomatch hp.symm.trans hload
  | derives _ _ _ _ hbuilt _ => exact nomatch hp.symm.trans hbuilt
  | portsOnly _ _ _ heq => rw [heq]

/-- Settles O46: none of these fields is ERR or a port's. -/
theorem derivedResultStays : Obligations.DerivedResultStays := by
  unfold Obligations.DerivedResultStays
  intro s t hstep hp hnew
  rw [(stepEffect_of_step hstep).writes_of_derived hp hnew]
  exact ⟨hp, rfl, rfl, rfl, rfl, rfl, rfl, rfl, rfl⟩

end Sys2Proof.Machine
end
